-- ==== Sys2Proof/Word.lean ====
section
/-! DEFINITION. The word types of the framer (00_scope.md rule R10): a byte of the channel and of the buffers, and one
bit of the wire. Every value is an unsigned number (R11). -/

namespace Sys2Proof

/-- One bit of the wire or of a frame buffer (`true` is a 1-bit). -/
abbrev Bit := Bool

/-- A byte: channel data, a buffer byte, the sliding window (R10). -/
abbrev Byte := BitVec 8

/-- A command word, format CMD16 (R86). -/
abbrev CmdWord := BitVec 16

/-- A micro-operation word, format U8 (R92). -/
abbrev UopWord := BitVec 8

/-- A host bus address (R10: 10 bits). -/
abbrev HostAddr := BitVec 10

end Sys2Proof
end

