-- ==== Sys2Proof/Config.lean ====
section
/-! DEFINITION. What the spec fixes for this hardware: the constants of 00_scope.md section 3 and the bus map of
20_memory.md rule R61. The model has no free value of its own: everything the spec leaves open (the channel's answers,
the host's accesses, when RESET comes) stands in State as plain data that a claim quantifies over. -/

namespace Sys2Proof.Config

/-- FLAG = 0x7E (R7). -/
def flag : Byte := 0x7E#8

/-- MAX_MESSAGE_LEN = 256 bytes (R6). -/
def maxMessageLen : Nat := 256

/-- STUFF_RUN = 5 (R8). -/
def stuffRun : Nat := 5

/-- FRAME_BIT_CAPACITY (R9, D10): a named parameter, which takes the value 2576 in this hardware. -/
def frameBitCapacity : Nat := 2576

/-- First host address of TX_BUF (R61). -/
def txBase : Nat := 0x000

/-- First host address of RX_BUF (R61). -/
def rxBase : Nat := 0x100

/-- Bytes in each buffer (R52, R54). -/
def bufBytes : Nat := 256

/-- Host address of CMD (R23, R61). -/
def cmdAddr : HostAddr := 0x200#10

/-- Host address of STATUS (R24, R61). -/
def statusAddr : HostAddr := 0x204#10

end Sys2Proof.Config
end

