-- ==== Sys2Proof/Syntax.lean ====
section
/-! DEFINITION. The instructions: one constructor per row of spec/opcode_table.json, in the table's order. The rows have
three formats (30_encoding.md): CMD16 command words, U8 micro-operation words and BUS host accesses. The raw form of each
format stands here too, for the decoder to read and the encoder to write. -/

namespace Sys2Proof

/-- The 17 rows of the opcode table. -/
inductive Instr where
  /-- ENCODE (CMD16, R130): run one encode command with payload length `len`, the field LEN (R88). -/
  | encode (len : Nat)
  /-- DECODE (CMD16, R160): run one decode command. -/
  | decode
  /-- WRITE_BIT b (U8, R110). -/
  | writeBit (b : Bit)
  /-- WRITE_FLAG (U8, R111). -/
  | writeFlag
  /-- PAD_ONES (U8, R112). -/
  | padOnes
  /-- ENC_PAYLOAD_BIT b (U8, R133). -/
  | encPayloadBit (b : Bit)
  /-- READ_BIT (U8, R150). -/
  | readBit
  /-- SEEK_STEP (U8, R163). -/
  | seekStep
  /-- CAPTURE_STEP (U8, R167). -/
  | captureStep
  /-- DESTUFF_STEP (U8, R172). -/
  | destuffStep
  /-- VALIDATE (U8, R175). -/
  | validate
  /-- PACK (U8, R176). -/
  | pack
  /-- WR8 TX[i], v (BUS, R200): the host writes `v` to TX_BUF[i]. -/
  | wr8Tx (i : Nat) (v : Byte)
  /-- RD8 TX[i] (BUS, R201). -/
  | rd8Tx (i : Nat)
  /-- RD8 RX[i] (BUS, R202). -/
  | rd8Rx (i : Nat)
  /-- WR16 CMD, w (BUS, R204): the host writes the command word `w`. -/
  | wr16Cmd (w : CmdWord)
  /-- RD32 STATUS (BUS, R208). -/
  | rd32Status
  deriving DecidableEq, Repr

/-- The width of a host read (R10, R62). -/
inductive Width where
  | w8
  | w16
  | w32
  deriving DecidableEq, Repr

/-- One host access on the bus, legal or not: its direction, its width, its 10-bit address and, for a write, its data
(R61, R62, R94). -/
inductive BusAccess where
  | rd (w : Width) (addr : HostAddr)
  | wr8 (addr : HostAddr) (v : BitVec 8)
  | wr16 (addr : HostAddr) (v : BitVec 16)
  | wr32 (addr : HostAddr) (v : BitVec 32)
  deriving DecidableEq, Repr

/-- An instruction as it is given to the unit, in the format of its row. -/
inductive Raw where
  | cmd16 (w : CmdWord)
  | u8 (w : UopWord)
  | bus (a : BusAccess)
  deriving DecidableEq, Repr

/-- Why a raw word is no instruction of the table. -/
inductive Reject where
  /-- A command word that R89 makes illegal. The machine does not refuse it: it completes as IllegalCommand (R206). -/
  | reservedCommand
  /-- A U8 word that R93 gives no meaning (R244 UnknownMicroOp). -/
  | unknownMicroOp
  /-- A host access of R209 (R244 IllegalHostAccess). -/
  | illegalHostAccess
  deriving DecidableEq, Repr

end Sys2Proof
end

