-- ==== Sys2Proof/WellFormed.lean ====
section
/-! DEFINITION. When an instruction's operands fit the fields its row gives them: LEN has 9 bits (R88), a buffer index is
0..255 (R94). Every other operand has its field's type. -/

namespace Sys2Proof

/-- The operand ranges of the encodings. -/
def Instr.wellFormed : Instr → Bool
  | .encode len => decide (len < 512)
  | .wr8Tx i _ => decide (i < 256)
  | .rd8Tx i => decide (i < 256)
  | .rd8Rx i => decide (i < 256)
  | .decode => true
  | .writeBit _ => true
  | .writeFlag => true
  | .padOnes => true
  | .encPayloadBit _ => true
  | .readBit => true
  | .seekStep => true
  | .captureStep => true
  | .destuffStep => true
  | .validate => true
  | .pack => true
  | .wr16Cmd _ => true
  | .rd32Status => true

end Sys2Proof
end

