-- ==== Sys2Proof/Decode.lean ====
section
/-! DEFINITION. The decoders of the three formats of 30_encoding.md, each total on every word and rejecting by name, and
after them the encoder. No instruction is stored in a memory: a command word comes by a CMD write, a micro-operation word
from the sequencer, a host access from the bus (R71). -/

namespace Sys2Proof

/-! ### CMD16 (R86 to R89) -/

/-- CMD.OP, bits [15:12] (R86). -/
def cmdOp (w : CmdWord) : BitVec 4 := w.extractLsb' 12 4

/-- CMD.RSVD, bits [11:9] (R86). -/
def cmdRsvd (w : CmdWord) : BitVec 3 := w.extractLsb' 9 3

/-- CMD.LEN, bits [8:0], an unsigned number (R88). -/
def cmdLen (w : CmdWord) : BitVec 9 := w.extractLsb' 0 9

/-- The command a CMD word names (R87), or the reserved word of R89. -/
def decodeCmd16 (w : CmdWord) : Except Reject Instr :=
  if cmdRsvd w ≠ 0 then .error .reservedCommand
  else if cmdOp w = 1 then .ok (.encode (cmdLen w).toNat)
  else if cmdOp w = 2 then if cmdLen w = 0 then .ok .decode else .error .reservedCommand
  else .error .reservedCommand

/-! ### U8 (R92, R93) -/

/-- UOP, bits [7:4] (R92). -/
def uopCode (w : UopWord) : BitVec 4 := w.extractLsb' 4 4

/-- The reserved bits [3:1] of a U8 word (R92). -/
def uopRsvd (w : UopWord) : BitVec 3 := w.extractLsb' 1 3

/-- B, bit [0] (R92). -/
def uopBit (w : UopWord) : Bit := w.getLsbD 0

/-- The micro-operation a U8 word names (R93). B is an operand of WRITE_BIT and ENC_PAYLOAD_BIT and must be 0 in every
other word (R92). -/
def decodeU8 (w : UopWord) : Except Reject Instr :=
  if uopRsvd w ≠ 0 then .error .unknownMicroOp
  else if uopCode w = 0x1 then .ok (.writeBit (uopBit w))
  else if uopCode w = 0x4 then .ok (.encPayloadBit (uopBit w))
  else if uopBit w then .error .unknownMicroOp
  else if uopCode w = 0x2 then .ok .writeFlag
  else if uopCode w = 0x3 then .ok .padOnes
  else if uopCode w = 0x5 then .ok .readBit
  else if uopCode w = 0x6 then .ok .seekStep
  else if uopCode w = 0x7 then .ok .captureStep
  else if uopCode w = 0x8 then .ok .destuffStep
  else if uopCode w = 0x9 then .ok .validate
  else if uopCode w = 0xA then .ok .pack
  else .error .unknownMicroOp

/-! ### BUS (R61, R62, R94, R209) -/

/-- The host access of a row, or one of the refused accesses of R209. -/
def decodeBus : BusAccess → Except Reject Instr
  | .wr8 addr v => if addr.toNat < 0x100 then .ok (.wr8Tx addr.toNat v) else .error .illegalHostAccess
  | .rd .w8 addr =>
    if addr.toNat < 0x100 then .ok (.rd8Tx addr.toNat)
    else if addr.toNat < 0x200 then .ok (.rd8Rx (addr.toNat - 0x100))
    else .error .illegalHostAccess
  | .wr16 addr w => if addr = Config.cmdAddr then .ok (.wr16Cmd w) else .error .illegalHostAccess
  | .rd .w32 addr => if addr = Config.statusAddr then .ok .rd32Status else .error .illegalHostAccess
  | .rd .w16 _ => .error .illegalHostAccess
  | .wr32 _ _ => .error .illegalHostAccess

/-- The decoder of all three formats. -/
def decode : Raw → Except Reject Instr
  | .cmd16 w => decodeCmd16 w
  | .u8 w => decodeU8 w
  | .bus a => decodeBus a

/-! ### The encoder -/

/-- A U8 word from its code and its bit operand (R92: `UUUU 000B`). -/
def uopWord (code : BitVec 4) (b : Bit) : UopWord := (code ++ (0 : BitVec 3)) ++ BitVec.ofBool b

/-- The CMD word `OOOO 000L LLLL LLLL` (R86). -/
def cmdWord (op : BitVec 4) (len : Nat) : CmdWord := (op ++ (0 : BitVec 3)) ++ BitVec.ofNat 9 len

/-- The words of an instruction, from the encoding tables R86, R87, R92, R93 and R94. -/
def encode : Instr → Raw
  | .encode len => .cmd16 (cmdWord 0x1 len)
  | .decode => .cmd16 (cmdWord 0x2 0)
  | .writeBit b => .u8 (uopWord 0x1 b)
  | .writeFlag => .u8 (uopWord 0x2 false)
  | .padOnes => .u8 (uopWord 0x3 false)
  | .encPayloadBit b => .u8 (uopWord 0x4 b)
  | .readBit => .u8 (uopWord 0x5 false)
  | .seekStep => .u8 (uopWord 0x6 false)
  | .captureStep => .u8 (uopWord 0x7 false)
  | .destuffStep => .u8 (uopWord 0x8 false)
  | .validate => .u8 (uopWord 0x9 false)
  | .pack => .u8 (uopWord 0xA false)
  | .wr8Tx i v => .bus (.wr8 (BitVec.ofNat 10 i) v)
  | .rd8Tx i => .bus (.rd .w8 (BitVec.ofNat 10 i))
  | .rd8Rx i => .bus (.rd .w8 (BitVec.ofNat 10 (0x100 + i)))
  | .wr16Cmd w => .bus (.wr16 Config.cmdAddr w)
  | .rd32Status => .bus (.rd .w32 Config.statusAddr)

/-! ### The opcode table -/

/-- One row of spec/opcode_table.json: its mnemonic, and the fixed bits of its word (for a BUS row, of its 10-bit
address). -/
structure OpRow where
  mnemonic : String
  fmt : String
  fixedBits : Nat
  mask : Nat
  deriving DecidableEq, Repr

/-- The row of an instruction, as the table has it. -/
def opRow : Instr → OpRow
  | .encode _ => ⟨"ENCODE", "CMD16", 0x1000, 0xFE00⟩
  | .decode => ⟨"DECODE", "CMD16", 0x2000, 0xFFFF⟩
  | .writeBit _ => ⟨"WRITE_BIT", "U8", 0x10, 0xFE⟩
  | .writeFlag => ⟨"WRITE_FLAG", "U8", 0x20, 0xFF⟩
  | .padOnes => ⟨"PAD_ONES", "U8", 0x30, 0xFF⟩
  | .encPayloadBit _ => ⟨"ENC_PAYLOAD_BIT", "U8", 0x40, 0xFE⟩
  | .readBit => ⟨"READ_BIT", "U8", 0x50, 0xFF⟩
  | .seekStep => ⟨"SEEK_STEP", "U8", 0x60, 0xFF⟩
  | .captureStep => ⟨"CAPTURE_STEP", "U8", 0x70, 0xFF⟩
  | .destuffStep => ⟨"DESTUFF_STEP", "U8", 0x80, 0xFF⟩
  | .validate => ⟨"VALIDATE", "U8", 0x90, 0xFF⟩
  | .pack => ⟨"PACK", "U8", 0xA0, 0xFF⟩
  | .wr8Tx _ _ => ⟨"WR8_TX_i", "BUS", 0x000, 0x300⟩
  | .rd8Tx _ => ⟨"RD8_TX_i", "BUS", 0x000, 0x300⟩
  | .rd8Rx _ => ⟨"RD8_RX_i", "BUS", 0x100, 0x300⟩
  | .wr16Cmd _ => ⟨"WR16_CMD", "BUS", 0x200, 0x3FF⟩
  | .rd32Status => ⟨"RD32_STATUS", "BUS", 0x204, 0x3FF⟩

/-- The address of a host access. -/
def busAddr : BusAccess → HostAddr
  | .rd _ a => a
  | .wr8 a _ => a
  | .wr16 a _ => a
  | .wr32 a _ => a

/-- The bits of a raw word that the table's pattern speaks of. -/
def rawBits : Raw → Nat
  | .cmd16 w => w.toNat
  | .u8 w => w.toNat
  | .bus a => (busAddr a).toNat

/-! ### The table's words, for the host's check -/

/-- The host access that a BUS row's pattern names. The pattern holds the address alone; the map gives each address one
legal access, but for TX_BUF, where a write and a read are legal and the write is taken, with data 0 (DESIGN CHOICE, log entry 12). -/
def tableBus (addr : HostAddr) : BusAccess :=
  if addr.toNat < 0x100 then .wr8 addr 0
  else if addr.toNat < 0x200 then .rd .w8 addr
  else if addr = Config.cmdAddr then .wr16 addr 0
  else .rd .w32 addr

/-- The raw word that `nbits` bits of the table stand for. A BUS pattern has 10 bits, 16 in whole bytes; a CMD16 word of
a row is at least 0x1000, so the two never meet. -/
def tableRaw (nbits w : Nat) : Option Raw :=
  if nbits = 8 then some (.u8 (BitVec.ofNat 8 w))
  else if nbits = 10 then some (.bus (tableBus (BitVec.ofNat 10 w)))
  else if nbits = 16 then
    if w < 0x400 then some (.bus (tableBus (BitVec.ofNat 10 w))) else some (.cmd16 (BitVec.ofNat 16 w))
  else none

/-- What the decoder reads from a word of the table, `none` where it refuses. -/
def decodeTableWord (nbits w : Nat) : Option Instr :=
  match tableRaw nbits w with
  | none => none
  | some r =>
    match decode r with
    | .ok i => some i
    | .error _ => none

end Sys2Proof
end

