-- ==== Sys2Proof/Machine/State.lean ====
section
/-! DEFINITION. The state of the framer (10_state.md), of its buffers and ports (20_memory.md), and of the two agents
outside it as plain data: what the channel will answer and has answered, what the host will do and has read. The faults
and refusals of 60_exceptions.md rule R244. -/

namespace Sys2Proof.Machine

/-! ### Names -/

/-- E_PHASE (R33). -/
inductive EPhase where
  | startFlag
  | payload
  | endFlag
  | pad
  deriving DecidableEq, Repr

/-- D_STATE (R35). DONE and ERROR are terminal: the command completes on reaching one, and the state is discarded. -/
inductive DState where
  | seekingFlag
  | inFrame
  | destuffing
  | validating
  | packing
  | done
  | error
  deriving DecidableEq, Repr

/-- The result kinds (R91). `ok` is also what STATUS.KIND holds while there is no result (R27). -/
inductive Kind where
  | ok
  | ioError
  | syncError
  | unexpectedEOF
  | frameTooLong
  | frameError
  | protocolError
  | alignmentError
  | oversizeError
  | preconditionViolation
  | illegalCommand
  deriving DecidableEq, Repr

/-- The two buffers (R52, R54). -/
inductive Buf where
  | tx
  | rx
  deriving DecidableEq, Repr

/-! ### Channel ports (R57 to R59) -/

/-- What the channel answers to a ChanRead (R58). -/
inductive RxAnswer where
  | byte (b : Byte)
  | eos
  | err
  deriving DecidableEq, Repr

/-- What the channel answers to a ChanWrite (R59). -/
inductive TxAnswer where
  | ok
  | err
  deriving DecidableEq, Repr

/-- A channel request that has no answer yet. -/
inductive ChanReq where
  | read
  | write (b : Byte)
  deriving DecidableEq, Repr

/-- The receive port: the answers the channel still has for this unit's ChanReads, first one first (the channel oracle,
D30), and the answers it has given, first one first. An empty `answers` is a channel that never answers again (R239;
DESIGN CHOICE, log entry 4). -/
structure RxPort where
  answers : List RxAnswer
  log : List RxAnswer
  deriving DecidableEq, Repr

/-- The transmit port: the answers still to come, and every write request made with its answer (R59). -/
structure TxPort where
  answers : List TxAnswer
  log : List (Byte × TxAnswer)
  deriving DecidableEq, Repr

/-! ### Per-call state (R31) -/

/-- The result of a READ_BIT (R150). -/
inductive BitResult where
  | bit (b : Bit)
  | eos
  | err
  deriving DecidableEq, Repr

/-- A buffer of one-bit cells (F_BUF, D_BUF): cell `i` holds a value exactly when entry `i` is there and is `some`. -/
abbrev Cells := List (Option Bit)

/-- What an ENCODE creates at acceptance: the Bit Writer's cursor (R32) and the Frame Encoder's state (R33). -/
structure EncCall where
  /-- W_BYTE, 8 bits. -/
  wByte : Byte
  /-- W_POS, 3 bits. -/
  wPos : BitVec 3
  /-- E_LEN, 9 bits. -/
  eLen : BitVec 9
  /-- E_IDX, values 0..256. -/
  eIdx : BitVec 9
  /-- E_BIT, values 7..0. -/
  eBit : BitVec 3
  /-- The variable `v` of R130's pseudocode: the payload byte read at E_IDX, no value before it is read (DESIGN CHOICE, log
  entry 7). -/
  eByte : Option Byte
  /-- E_PHASE. -/
  ePhase : EPhase
  /-- E_ONES, 3 bits. -/
  eOnes : BitVec 3
  deriving DecidableEq, Repr

/-- The state of the destuffing pass (R38), created on entry to DESTUFFING. -/
structure Destuff where
  /-- D_BUF. -/
  dBuf : Cells
  /-- D_CNT, 12 bits. -/
  dCnt : BitVec 12
  /-- D_IDX, 12 bits. -/
  dIdx : BitVec 12
  /-- D_ONES, 3 bits. -/
  dOnes : BitVec 3
  deriving DecidableEq, Repr

/-- What a DECODE creates at acceptance: the Bit Reader's state (R34) and the Frame Decoder's (R35 to R38). -/
structure DecCall where
  /-- R_BYTE, 8 bits; no value at call entry (R34). -/
  rByte : Option Byte
  /-- R_AVAIL, 4 bits. -/
  rAvail : BitVec 4
  /-- The result READ_BIT last returned to its caller (R150); none before the first one (DESIGN CHOICE, log entry 8). -/
  rResult : Option BitResult
  /-- D_STATE. -/
  dState : DState
  /-- D_WIN, 8 bits. -/
  dWin : Byte
  /-- F_BUF. -/
  fBuf : Cells
  /-- F_CNT, 12 bits. -/
  fCnt : BitVec 12
  /-- D_BUF, D_CNT, D_IDX, D_ONES: no value before DESTUFFING is entered (R41). -/
  destuff : Option Destuff
  deriving DecidableEq, Repr

/-- UNIT_STATE (R22), with the per-call state that exists exactly while a command executes (R31). -/
inductive UnitState where
  | idle
  | encoding (e : EncCall)
  | decoding (d : DecCall)
  deriving DecidableEq, Repr

/-! ### Unit-level registers -/

/-- STATUS (R24): its four fields; its other bits read 0 (R90). -/
structure Status where
  /-- STATUS.BUSY (R25). -/
  busy : Bool
  /-- STATUS.DONE (R26). -/
  done : Bool
  /-- STATUS.KIND (R27). -/
  kind : Kind
  /-- STATUS.COUNT, 9 bits (R28). -/
  count : BitVec 9
  deriving DecidableEq, Repr

/-! ### The agents outside the unit -/

/-- What acts next. Which agent acts when is not specified (R262), so it is plain data that every claim quantifies over
(DESIGN CHOICE, log entry 6). -/
inductive Turn where
  /-- The host makes this access on the bus. -/
  | host (a : BusAccess)
  /-- The sequencer takes its next step. -/
  | unit
  /-- RESET is asserted (R250). -/
  | reset
  /-- The host gives the unit this command word and the whole command is one step (R66, R263: the coarse view). -/
  | command (w : CmdWord)
  /-- The datapath is given this one micro-operation word by itself (R92's words; no interface of the hardware does it). -/
  | micro (w : UopWord)
  deriving DecidableEq, Repr

/-- The value a host read returned. -/
inductive BusValue where
  | byte (v : BitVec 8)
  | word (v : BitVec 32)
  deriving DecidableEq, Repr

/-- The framer and what is outside it. -/
structure State where
  /-- UNIT_STATE and the per-call state (R22, R31); SEQ is read from it (R30). -/
  unit : UnitState
  /-- STATUS (R24). -/
  status : Status
  /-- CUR_CMD (R29): no value in IDLE. -/
  curCmd : Option CmdWord
  /-- TX_BUF and RX_BUF by host address (R52, R54, R61): addresses strictly rising; an address not listed has no value. -/
  mem : List Host.Cell
  /-- The transmit port. -/
  tx : TxPort
  /-- The receive port. -/
  rx : RxPort
  /-- The channel request that waits for its answer (R58, R59). -/
  outstanding : Option ChanReq
  /-- The values the host's reads returned, latest first: a record of the model's own (DESIGN CHOICE, log entry 9). -/
  hostReads : List BusValue
  /-- What acts next, first one first; when it is empty the sequencer goes on by itself. -/
  agenda : List Turn
  deriving DecidableEq, Repr

/-- The reset value of STATUS, 0x0000_0000 (R42). -/
def Status.zero : Status := { busy := false, done := false, kind := .ok, count := 0 }

/-- The state after reset (R42): IDLE, STATUS = 0, CUR_CMD and every buffer byte without a value, no per-call state, no
request outstanding, and a channel and a host that have done nothing and have nothing to do. -/
def State.reset : State where
  unit := .idle
  status := .zero
  curCmd := none
  mem := []
  tx := { answers := [], log := [] }
  rx := { answers := [], log := [] }
  outstanding := none
  hostReads := []
  agenda := []

/-! ### Stops (R244) -/

/-- Model faults: the run stops, and no claim of success holds of it. -/
inductive Fault where
  /-- Raised by the encoder's read of TX_BUF[i] when the byte has no value (R53, I3). Safe: the model stops where the
  hardware would send an unknown byte. -/
  | uninitialisedPayload (i : Nat)
  /-- Raised by a host read of a buffer byte that has no value (R201, R202, I4). Safe. -/
  | uninitialisedRead (buf : Buf) (i : Nat)
  /-- Raised by a micro-operation that reads per-call state, or R_BYTE, or a buffer cell, where it does not exist or has
  no value (R31, I6). No run of the sequencer meets it. Safe. -/
  | noValue
  /-- Raised by an access to a bit, cell or byte outside its register or buffer (R37, R38, R53, R55). No run of the
  sequencer meets it. Safe. -/
  | noSuchPlace
  /-- Raised by a sequencer step in the terminal D_STATE DONE or ERROR, which no run rests in (R35). Safe. -/
  | terminalState
  deriving DecidableEq, Repr

/-- Refusals: the model gives no meaning (R244). -/
inductive Refusal where
  /-- An instruction without a meaning yet. Raised by `exec` alone, by name. Safe. -/
  | notModelled (mnemonic : String)
  /-- Raised by a CMD write, and by a command, while UNIT_STATE is not IDLE (R207, I12). Safe. -/
  | commandWhileBusy
  /-- Raised by a host access to a buffer while UNIT_STATE is not IDLE (R211, I13). Safe. -/
  | hostAccessWhileBusy
  /-- Raised by the step for a host access of R209 (I14). Safe. -/
  | illegalHostAccess
  /-- Raised by the step for a U8 word that R93 gives no meaning (I11). Safe. -/
  | unknownMicroOp
  deriving DecidableEq, Repr

/-- What a meaning answers. -/
abbrev Result := Host.Outcome State Fault Refusal

end Sys2Proof.Machine
end

