-- ==== Sys2Proof/Machine/Flags.lean ====
section
/-! DEFINITION. The status flags: the KIND codes (R91) and the STATUS word (R90). The framer has no other flags (R39). -/

namespace Sys2Proof.Machine

/-- The KIND code (R91). -/
def Kind.code : Kind → BitVec 4
  | .ok => 0
  | .ioError => 1
  | .syncError => 2
  | .unexpectedEOF => 3
  | .frameTooLong => 4
  | .frameError => 5
  | .protocolError => 6
  | .alignmentError => 7
  | .oversizeError => 8
  | .preconditionViolation => 9
  | .illegalCommand => 10

/-- `COUNT << 16 | KIND << 4 | DONE << 1 | BUSY`, reserved bits 0 (R90, R208). -/
def Status.word (t : Status) : BitVec 32 :=
  (t.count.zeroExtend 32 <<< 16) ||| (t.kind.code.zeroExtend 32 <<< 4) |||
    ((BitVec.ofBool t.done).zeroExtend 32 <<< 1) ||| (BitVec.ofBool t.busy).zeroExtend 32

end Sys2Proof.Machine
end

