-- ==== Sys2Proof/Machine/Operands.lean ====
section
/-! DEFINITION. The bit-level helpers of the rules: a byte's bits in transmission order (R50), setting one bit of the
pending byte (R110), the sliding window's shift (R36), packing bits into bytes (R176), and the one-bit cells of F_BUF and
D_BUF (R37, R38). -/

namespace Sys2Proof.Machine

/-- `W_BYTE[W_POS] <- b`: set (b = 1) or clear (b = 0) bit `i` (R110). -/
def setBit (v : Byte) (i : Nat) (b : Bit) : Byte :=
  if b then v ||| (1#8 <<< i) else v &&& ~~~(1#8 <<< i)

/-- `((D_WIN << 1) | bit) mod 256` (R36). -/
def shiftIn (win : Byte) (b : Bit) : Byte := (win <<< 1) ||| BitVec.zeroExtend 8 (BitVec.ofBool b)

/-- The bit string of a byte in transmission order, bit 7 first (R50). -/
def byteBits (v : Byte) : List Bit :=
  [v.getLsbD 7, v.getLsbD 6, v.getLsbD 5, v.getLsbD 4, v.getLsbD 3, v.getLsbD 2, v.getLsbD 1, v.getLsbD 0]

/-- The bit strings of the bytes in order (R51). -/
def bytesBits : List Byte → List Bit
  | [] => []
  | v :: vs => byteBits v ++ bytesBits vs

/-- bitsToByte (00_scope.md section 4): the first bit is bit 7. -/
def bitsToByte (b7 b6 b5 b4 b3 b2 b1 b0 : Bit) : Byte :=
  BitVec.ofBool b7 ++ BitVec.ofBool b6 ++ BitVec.ofBool b5 ++ BitVec.ofBool b4 ++ BitVec.ofBool b3 ++ BitVec.ofBool b2
    ++ BitVec.ofBool b1 ++ BitVec.ofBool b0

/-- Consecutive groups of 8 bits as bytes; a last group of fewer than 8 bits is left out (R176, R136). -/
def groupBytes : List Bit → List Byte
  | b7 :: b6 :: b5 :: b4 :: b3 :: b2 :: b1 :: b0 :: rest => bitsToByte b7 b6 b5 b4 b3 b2 b1 b0 :: groupBytes rest
  | _ => []

/-! ### Cells -/

/-- The value of cell `i`, if it has one. -/
def cellRead : Cells → Nat → Option Bit
  | [], _ => none
  | c :: _, 0 => c
  | _ :: cs, n + 1 => cellRead cs n

/-- Cell `i` gets the value `b`; cells between the last one listed and `i` stay without a value. -/
def cellPut : Cells → Nat → Bit → Cells
  | [], 0, b => [some b]
  | [], n + 1, b => none :: cellPut [] n b
  | _ :: cs, 0, b => some b :: cs
  | c :: cs, n + 1, b => c :: cellPut cs n b

/-- A write of cell `i` of a buffer of FRAME_BIT_CAPACITY cells (R37, R38); `none` where there is no such cell. -/
def cellWrite (c : Cells) (i : Nat) (b : Bit) : Option Cells :=
  if i < Config.frameBitCapacity then some (cellPut c i b) else none

/-- The first `n` cells, if each has a value. -/
def cellPrefix : Cells → Nat → Option (List Bit)
  | _, 0 => some []
  | some b :: cs, n + 1 => (cellPrefix cs n).map (b :: ·)
  | none :: _, _ + 1 => none
  | [], _ + 1 => none

end Sys2Proof.Machine
end

