-- ==== Sys2Proof/Machine/Ops.lean ====
section
/-! DEFINITION. The shared operations: the buffers' bytes (R52 to R55), the channel's requests (R58, R59), command
acceptance and call entry (R204, R205, R41), completion and abort (R220, the analogue of taking an exception; R235: there
is no return from one), and hardware reset (R250, R251). -/

namespace Sys2Proof.Machine

/-! ### The buffers, by host address -/

/-- The byte at host address `a`, if it has a value. -/
def memRead : List Host.Cell → Nat → Option Byte
  | [], _ => none
  | (b, v) :: m, a => if b = a then some v else memRead m a

/-- The byte at host address `a` gets the value `v`; the list stays strictly rising. -/
def memWrite : List Host.Cell → Nat → Byte → List Host.Cell
  | [], a, v => [(a, v)]
  | (b, w) :: m, a, v =>
    if a < b then (a, v) :: (b, w) :: m else if a = b then (a, v) :: m else (b, w) :: memWrite m a v

/-- The canonical form: addresses strictly rising, each of a buffer byte (R61). An address not listed has no value, so no
entry can equal what an unlisted address reads as. -/
abbrev Memory.wf (m : List Host.Cell) : Prop :=
  m.Pairwise (fun c c' => c.1 < c'.1) ∧ ∀ c ∈ m, c.1 < Config.rxBase + Config.bufBytes

/-- First host address of a buffer (R61). -/
def Buf.base : Buf → Nat
  | .tx => Config.txBase
  | .rx => Config.rxBase

/-- The value of byte `i` of a buffer, `none` where it has none (R52, R54) or there is no such byte. -/
def bufByte (m : List Host.Cell) (buf : Buf) (i : Nat) : Option Byte :=
  if i < Config.bufBytes then memRead m (buf.base + i) else none

/-- A write of byte `i` of a buffer (R55, R200); `none` where there is no such byte. -/
def bufWrite (m : List Host.Cell) (buf : Buf) (i : Nat) (v : Byte) : Option (List Host.Cell) :=
  if i < Config.bufBytes then some (memWrite m (buf.base + i) v) else none

/-- Bytes written to a buffer one after the other from index `i` (R176); `none` where one has no place. -/
def bufWriteAll (m : List Host.Cell) (buf : Buf) (i : Nat) : List Byte → Option (List Host.Cell)
  | [] => some m
  | v :: vs =>
    match bufWrite m buf i v with
    | some m' => bufWriteAll m' buf (i + 1) vs
    | none => none

/-! ### The channel -/

/-- ChanRead (R58): the channel's next answer, which goes on record; `none` while it has not answered. -/
def chanRead (p : RxPort) : Option (RxAnswer × RxPort) :=
  match p.answers with
  | [] => none
  | a :: rest => some (a, { answers := rest, log := p.log ++ [a] })

/-- ChanWrite(b) (R59): the channel's next answer, recorded with the byte; `none` while it has not answered. -/
def chanWrite (b : Byte) (p : TxPort) : Option (TxAnswer × TxPort) :=
  match p.answers with
  | [] => none
  | a :: rest => some (a, { answers := rest, log := p.log ++ [(b, a)] })

/-- The transmit stream: the bytes answered OK, in order (R59). -/
def TxPort.delivered (p : TxPort) : List Byte :=
  p.log.filterMap fun x => if x.2 = .ok then some x.1 else none

/-- The bytes consumed from the receive stream, in order (R58: only `Byte` answers consume). -/
def RxPort.consumed (p : RxPort) : List Byte :=
  p.log.filterMap fun
    | .byte b => some b
    | .eos => none
    | .err => none

/-- How a micro-operation ends: it is done, it waits for the channel, it raises Abort(K), or the model stops. `done` and
`abort` carry what the micro-operation has made of its registers and its port. A wait carries nothing: the
micro-operation is taken up again from its start when the channel has answered (DESIGN CHOICE, log entry 5). -/
inductive Flow (α : Type) where
  | done (x : α)
  | wait (r : ChanReq)
  | abort (k : Kind) (x : α)
  | fault (f : Fault)
  deriving DecidableEq, Repr

/-- Go on with `f` where `x` is done. -/
def Flow.andThen {α : Type} (x : Flow α) (f : α → Flow α) : Flow α :=
  match x with
  | .done a => f a
  | .wait r => .wait r
  | .abort k a => .abort k a
  | .fault g => .fault g

/-! ### Completion and abort (R220) -/

/-- finish(K, c): STATUS gets the kind and the count, DONE = 1 and BUSY = 0; UNIT_STATE is IDLE and all per-call state is
discarded; CUR_CMD has no value in IDLE (R29), and nothing is outstanding. -/
def State.finish (s : State) (k : Kind) (c : BitVec 9) : State :=
  { s with
    unit := .idle
    status := { busy := false, done := true, kind := k, count := c }
    curCmd := none
    outstanding := none }

/-- UNIT_STATE = IDLE (R22). -/
def UnitState.isIdle : UnitState → Bool
  | .idle => true
  | .encoding _ => false
  | .decoding _ => false

/-- D_STATE <- ERROR while DECODING. -/
def UnitState.markError : UnitState → UnitState
  | .decoding d => .decoding { d with dState := .error }
  | .idle => .idle
  | .encoding e => .encoding e

/-- raise Abort(K): D_STATE <- ERROR while DECODING, then finish(K, 0). -/
def State.abort (s : State) (k : Kind) : State := { s with unit := s.unit.markError }.finish k 0

/-! ### Call entry (R41) and command acceptance (R204, R205) -/

/-- The per-call state an ENCODE creates (R41). -/
def EncCall.entry (len : BitVec 9) : EncCall where
  wByte := 0x00
  wPos := 7
  eLen := len
  eIdx := 0
  eBit := 7
  eByte := none
  ePhase := .startFlag
  eOnes := 0

/-- The per-call state a DECODE creates (R41). -/
def DecCall.entry : DecCall where
  rByte := none
  rAvail := 0
  rResult := none
  dState := .seekingFlag
  dWin := 0x00
  fBuf := []
  fCnt := 0
  destuff := none

/-- The state of the destuffing pass on entry to DESTUFFING (R38). -/
def Destuff.entry : Destuff where
  dBuf := []
  dCnt := 0
  dIdx := 0
  dOnes := 0

/-- Acceptance of a CMD write: the word is latched and DONE, KIND and COUNT are cleared (R204). -/
def State.accept (s : State) (w : CmdWord) : State :=
  { s with curCmd := some w, status := { s.status with done := false, kind := .ok, count := 0 } }

/-- BUSY <- 1, and the call's state is created (R205). -/
def State.enter (s : State) (u : UnitState) : State :=
  { s with unit := u, status := { s.status with busy := true } }

/-- DISPATCH of an ENCODE word with payload length `len`, once the word is latched (R205, R131): over-long is
PreconditionViolation; otherwise the call begins with E_LEN = CUR_CMD.LEN (R33). -/
def State.startEncode (s : State) (len : Nat) : State :=
  if Config.maxMessageLen < len then s.finish .preconditionViolation 0
  else
    match s.curCmd with
    | none => s
    | some w => s.enter (.encoding (.entry (cmdLen w)))

/-- DISPATCH of a DECODE word (R205). -/
def State.startDecode (s : State) : State := s.enter (.decoding .entry)

/-- DISPATCH of an illegal word (R206). -/
def State.rejectCommand (s : State) : State := s.finish .illegalCommand 0

/-- DISPATCH(w) (R205). -/
def State.dispatch (s : State) (w : CmdWord) : State :=
  match decodeCmd16 w with
  | .ok (.encode len) => s.startEncode len
  | .ok .decode => s.startDecode
  | .ok _ => s.rejectCommand
  | .error _ => s.rejectCommand

/-! ### Reset -/

/-- RESET (R250, R251): the state of R42. What the channel still has to answer and what is on record are not the unit's;
an outstanding request is withdrawn (DEDUCED, log entry 15). -/
def State.hardReset (s : State) : State :=
  { s with unit := .idle, status := .zero, curCmd := none, mem := [], outstanding := none }

/-! ### The sequencer position (R30), and what the host has read -/

/-- SEQ, the program-counter analogue (R30). -/
inductive Seq where
  | idle
  | encoding (phase : EPhase) (idx : BitVec 9) (bit : BitVec 3)
  | decoding (state : DState) (idx : Option (BitVec 12))
  deriving DecidableEq, Repr

/-- SEQ is read from the per-call registers it is made of (R30). D_IDX is part of it whenever the destuffing registers exist,
so in VALIDATING too, where R30, which names destuffing and packing, leaves it open (DESIGN CHOICE, log entry 21). -/
def State.seq (s : State) : Seq :=
  match s.unit with
  | .idle => .idle
  | .encoding e => .encoding e.ePhase e.eIdx e.eBit
  | .decoding d => .decoding d.dState (d.destuff.map (·.dIdx))

/-- A host read returns `v`. -/
def State.hostReturn (s : State) (v : BusValue) : State := { s with hostReads := v :: s.hostReads }

/-! ### Running a micro-operation -/

/-- Run a micro-operation of the writer or encoder on the call's state and the transmit port. Without an ENCODE in
progress there is no such state (R31, I6). -/
def State.onEncoder (s : State) (f : EncCall → TxPort → Flow (EncCall × TxPort)) : Result :=
  match s.unit with
  | .idle => .fault .noValue
  | .decoding _ => .fault .noValue
  | .encoding e =>
    match f e s.tx with
    | .done (e', p) => .next { s with unit := .encoding e', tx := p, outstanding := none }
    | .wait r => .next { s with outstanding := some r }
    | .abort k (e', p) => .next ({ s with unit := .encoding e', tx := p }.abort k)
    | .fault g => .fault g

/-- Run a micro-operation of the reader or decoder on the call's state and the receive port. -/
def State.onDecoder (s : State) (f : DecCall → RxPort → Flow (DecCall × RxPort)) : Result :=
  match s.unit with
  | .idle => .fault .noValue
  | .encoding _ => .fault .noValue
  | .decoding d =>
    match f d s.rx with
    | .done (d', p) => .next { s with unit := .decoding d', rx := p, outstanding := none }
    | .wait r => .next { s with outstanding := some r }
    | .abort k (d', p) => .next ({ s with unit := .decoding d', rx := p }.abort k)
    | .fault g => .fault g

end Sys2Proof.Machine
end

