-- ==== Sys2Proof/Machine/BitReader.lean ====
section
/-! DEFINITION. The Bit Reader's micro-operation READ_BIT (42_bit_reader.md). Its result goes to the caller through
`rResult`. -/

namespace Sys2Proof.Machine

/-- `R_AVAIL <- R_AVAIL - 1; return Bit(R_BYTE[R_AVAIL])` (R150). -/
def takeBit (d : DecCall) (p : RxPort) : Flow (DecCall × RxPort) :=
  match d.rByte with
  | none => .fault .noValue
  | some v =>
    if 8 < d.rAvail.toNat then .fault .noSuchPlace
    else
      .done ({ d with rAvail := d.rAvail - 1, rResult := some (.bit (v.getLsbD (d.rAvail.toNat - 1))) }, p)

/-- READ_BIT (R150): a ChanRead where the internal byte is exhausted, then the next bit. -/
def readBitOn (d : DecCall) (p : RxPort) : Flow (DecCall × RxPort) :=
  if d.rAvail = 0 then
    match chanRead p with
    | none => .wait .read
    | some (.eos, p') => .done ({ d with rResult := some .eos }, p')
    | some (.err, p') => .done ({ d with rResult := some .err }, p')
    | some (.byte v, p') => takeBit { d with rByte := some v, rAvail := 8 } p'
  else takeBit d p

/-- READ_BIT (R150). -/
def execReadBit (s : State) : Result := s.onDecoder readBitOn

end Sys2Proof.Machine
end

