-- ==== Sys2Proof/Machine/FrameDecoder.lean ====
section
/-! DEFINITION. The Frame Decoder's micro-operations (43_frame_decoder.md): SEEK_STEP, CAPTURE_STEP, DESTUFF_STEP,
VALIDATE, PACK. The command DECODE stands in Commands.lean. -/

namespace Sys2Proof.Machine

/-- The window's part of SEEK_STEP, once a bit is read (R163, R166). -/
def seekBit (b : Bit) (d : DecCall) : DecCall :=
  if shiftIn d.dWin b = Config.flag then { d with dState := .inFrame, dWin := 0x00, fCnt := 0 }
  else { d with dWin := shiftIn d.dWin b }

/-- SEEK_STEP (R163, R164). -/
def seekStepOn (d : DecCall) (p : RxPort) : Flow (DecCall × RxPort) :=
  (readBitOn d p).andThen fun x =>
    match x.1.rResult with
    | none => .fault .noValue
    | some .eos => .abort .syncError x
    | some .err => .abort .ioError x
    | some (.bit b) => .done (seekBit b x.1, x.2)

/-- The end-flag test of CAPTURE_STEP, after a bit is stored (R167, R170). -/
def endFlagTest (d : DecCall) (p : RxPort) : Flow (DecCall × RxPort) :=
  if d.dWin = Config.flag then
    if d.fCnt.toNat < 8 then .abort .frameError (d, p)
    else .done ({ d with fCnt := d.fCnt - 8, dState := .destuffing, destuff := some .entry }, p)
  else .done (d, p)

/-- CAPTURE_STEP's storing of a bit (R167, R169): first the capacity, then the cell, the count and the window. -/
def captureBit (b : Bit) (d : DecCall) (p : RxPort) : Flow (DecCall × RxPort) :=
  if d.fCnt.toNat = Config.frameBitCapacity then .abort .frameTooLong (d, p)
  else
    match cellWrite d.fBuf d.fCnt.toNat b with
    | none => .fault .noSuchPlace
    | some buf => endFlagTest { d with fBuf := buf, fCnt := d.fCnt + 1, dWin := shiftIn d.dWin b } p

/-- CAPTURE_STEP (R167 to R170): the read, then the channel's answer, then the capacity, then the match (D11). -/
def captureStepOn (d : DecCall) (p : RxPort) : Flow (DecCall × RxPort) :=
  (readBitOn d p).andThen fun x =>
    match x.1.rResult with
    | none => .fault .noValue
    | some .eos => .abort .unexpectedEOF x
    | some .err => .abort .ioError x
    | some (.bit b) => captureBit b x.1 x.2

/-- `D_BUF[D_CNT] <- b; D_CNT <- D_CNT + 1` (R172). -/
def Destuff.append (b : Bit) (x : Destuff) : Option Destuff :=
  match cellWrite x.dBuf x.dCnt.toNat b with
  | none => none
  | some buf => some { x with dBuf := buf, dCnt := x.dCnt + 1 }

/-- The walk of one frame bit (R172), D_IDX moved on already. -/
def destuffBit (b : Bit) (x : Destuff) : Flow Destuff :=
  if b then
    match x.append true with
    | none => .fault .noSuchPlace
    | some y =>
      if 5 < y.dOnes.toNat + 1 then .abort .protocolError { y with dOnes := y.dOnes + 1 }
      else .done { y with dOnes := y.dOnes + 1 }
  else if x.dOnes = 5 then .done { x with dOnes := 0 }
  else
    match x.append false with
    | none => .fault .noSuchPlace
    | some y => .done { y with dOnes := 0 }

/-- DESTUFF_STEP (R172). It makes no channel request. -/
def destuffStepOn (d : DecCall) (p : RxPort) : Flow (DecCall × RxPort) :=
  match d.destuff with
  | none => .fault .noValue
  | some x =>
    if x.dIdx = d.fCnt then .done ({ d with dState := .validating }, p)
    else
      match cellRead d.fBuf x.dIdx.toNat with
      | none => .fault .noValue
      | some b =>
        match destuffBit b { x with dIdx := x.dIdx + 1 } with
        | .done y => .done ({ d with destuff := some y }, p)
        | .wait r => .wait r
        | .abort k y => .abort k ({ d with destuff := some y }, p)
        | .fault g => .fault g

/-- VALIDATE (R175): alignment first, then size (D12). -/
def validateOn (d : DecCall) (p : RxPort) : Flow (DecCall × RxPort) :=
  match d.destuff with
  | none => .fault .noValue
  | some x =>
    if x.dCnt.toNat % 8 ≠ 0 then .abort .alignmentError (d, p)
    else if Config.maxMessageLen < x.dCnt.toNat / 8 then .abort .oversizeError (d, p)
    else .done ({ d with dState := .packing }, p)

/-- SEEK_STEP (R163). -/
def execSeekStep (s : State) : Result := s.onDecoder seekStepOn

/-- CAPTURE_STEP (R167). -/
def execCaptureStep (s : State) : Result := s.onDecoder captureStepOn

/-- DESTUFF_STEP (R172). -/
def execDestuffStep (s : State) : Result := s.onDecoder destuffStepOn

/-- VALIDATE (R175). -/
def execValidate (s : State) : Result := s.onDecoder validateOn

/-- PACK (R176, R177): the first `8 * n` destuffed bits, `n = D_CNT div 8`, go to RX_BUF as `n` bytes; then D_STATE is
DONE and the command finishes with KIND = OK and COUNT = n. -/
def execPack (s : State) : Result :=
  match s.unit with
  | .idle => .fault .noValue
  | .encoding _ => .fault .noValue
  | .decoding d =>
    match d.destuff with
    | none => .fault .noValue
    | some x =>
      match cellPrefix x.dBuf (8 * (x.dCnt.toNat / 8)) with
      | none => .fault .noValue
      | some bits =>
        match bufWriteAll s.mem .rx 0 (groupBytes bits) with
        | none => .fault .noSuchPlace
        | some m =>
          .next ({ s with mem := m, unit := .decoding { d with dState := .done } }.finish .ok
            (BitVec.ofNat 9 (x.dCnt.toNat / 8)))

end Sys2Proof.Machine
end

