-- ==== Sys2Proof/Machine/BitWriter.lean ====
section
/-! DEFINITION. The Bit Writer's micro-operations (40_bit_writer.md): WRITE_BIT, WRITE_FLAG, PAD_ONES. -/

namespace Sys2Proof.Machine

/-- WRITE_BIT b (R110) on the writer's cursor and the transmit port. -/
def writeBitOn (b : Bit) (e : EncCall) (p : TxPort) : Flow (EncCall × TxPort) :=
  let v := setBit e.wByte e.wPos.toNat b
  if e.wPos = 0 then
    match chanWrite v p with
    | none => .wait (.write v)
    | some (.err, p') => .abort .ioError ({ e with wByte := v }, p')
    | some (.ok, p') => .done ({ e with wByte := 0x00, wPos := 7 }, p')
  else .done ({ e with wByte := v, wPos := e.wPos - 1 }, p)

/-- WRITE_BIT for each bit in order. -/
def writeBitsOn : List Bit → EncCall → TxPort → Flow (EncCall × TxPort)
  | [], e, p => .done (e, p)
  | b :: bs, e, p => (writeBitOn b e p).andThen fun x => writeBitsOn bs x.1 x.2

/-- WRITE_FLAG (R111): the bits of FLAG, MSB first, unstuffed. -/
def writeFlagOn (e : EncCall) (p : TxPort) : Flow (EncCall × TxPort) := writeBitsOn (byteBits Config.flag) e p

/-- `while W_POS != 7: WRITE_BIT(1)` (R112), at most `n` times round. -/
def padOnesLoop : Nat → EncCall → TxPort → Flow (EncCall × TxPort)
  | 0, e, p => .done (e, p)
  | n + 1, e, p =>
    if e.wPos = 7 then .done (e, p) else (writeBitOn true e p).andThen fun x => padOnesLoop n x.1 x.2

/-- PAD_ONES (R112). From W_POS = p < 7 the loop goes p + 1 times round, at most 7. -/
def padOnesOn (e : EncCall) (p : TxPort) : Flow (EncCall × TxPort) := padOnesLoop 7 e p

/-- WRITE_BIT b (R110). -/
def execWriteBit (b : Bit) (s : State) : Result := s.onEncoder (writeBitOn b)

/-- WRITE_FLAG (R111). -/
def execWriteFlag (s : State) : Result := s.onEncoder writeFlagOn

/-- PAD_ONES (R112). -/
def execPadOnes (s : State) : Result := s.onEncoder padOnesOn

end Sys2Proof.Machine
end

