-- ==== Sys2Proof/Machine/FrameEncoder.lean ====
section
/-! DEFINITION. The Frame Encoder's micro-operation ENC_PAYLOAD_BIT (41_frame_encoder.md). The command ENCODE stands in
Commands.lean. -/

namespace Sys2Proof.Machine

/-- ENC_PAYLOAD_BIT b (R133): the payload bit, and a stuffed 0 after the fifth consecutive 1. -/
def encPayloadBitOn (b : Bit) (e : EncCall) (p : TxPort) : Flow (EncCall × TxPort) :=
  (writeBitOn b e p).andThen fun x =>
    if b then
      if x.1.eOnes + 1 = 5 then
        (writeBitOn false x.1 x.2).andThen fun y => .done ({ y.1 with eOnes := 0 }, y.2)
      else .done ({ x.1 with eOnes := x.1.eOnes + 1 }, x.2)
    else .done ({ x.1 with eOnes := 0 }, x.2)

/-- ENC_PAYLOAD_BIT b (R133). -/
def execEncPayloadBit (b : Bit) (s : State) : Result := s.onEncoder (encPayloadBitOn b)

end Sys2Proof.Machine
end

