-- ==== Sys2Proof/Machine/Sequencer.lean ====
section
/-! DEFINITION. The framer sequencer (R20, R30): which micro-operation SEQ issues next, and how SEQ moves on after it
(R130, R132, R160, R162). -/

namespace Sys2Proof.Machine

/-- What the sequencer does next at SEQ. -/
inductive SeqAction where
  /-- IDLE: it waits for a CMD write (R250). -/
  | rest
  /-- It issues the micro-operation of this U8 word (R93). -/
  | issue (w : UopWord)
  /-- ENCODE reads the next payload byte: `v <- MemRead(TX_BUF, E_IDX, 1)` (R130). -/
  | load (e : EncCall)
  /-- ENCODE's payload is at its end: `E_PHASE <- END_FLAG` (R130). -/
  | endPayload (e : EncCall)
  /-- The terminal D_STATEs, in which no run rests (R35). -/
  | halted
  deriving DecidableEq, Repr

/-- The sequencer in ENCODING (R130). -/
def encoderAction (e : EncCall) : SeqAction :=
  match e.ePhase with
  | .startFlag => .issue (uopWord 0x2 false)
  | .payload =>
    if e.eIdx.toNat < e.eLen.toNat then
      match e.eByte with
      | none => .load e
      | some v => .issue (uopWord 0x4 (v.getLsbD e.eBit.toNat))
    else .endPayload e
  | .endFlag => .issue (uopWord 0x2 false)
  | .pad => .issue (uopWord 0x3 false)

/-- The sequencer in DECODING (R160). -/
def decoderAction (d : DecCall) : SeqAction :=
  match d.dState with
  | .seekingFlag => .issue (uopWord 0x6 false)
  | .inFrame => .issue (uopWord 0x7 false)
  | .destuffing => .issue (uopWord 0x8 false)
  | .validating => .issue (uopWord 0x9 false)
  | .packing => .issue (uopWord 0xA false)
  | .done => .halted
  | .error => .halted

/-- What the sequencer does next. -/
def seqAction (s : State) : SeqAction :=
  match s.unit with
  | .idle => .rest
  | .encoding e => encoderAction e
  | .decoding d => decoderAction d

/-- The meaning of a micro-operation, as the sequencer runs it; every other instruction is no micro-operation. -/
def execMicro (i : Instr) (s : State) : Result :=
  match i with
  | .writeBit b => execWriteBit b s
  | .writeFlag => execWriteFlag s
  | .padOnes => execPadOnes s
  | .encPayloadBit b => execEncPayloadBit b s
  | .readBit => execReadBit s
  | .seekStep => execSeekStep s
  | .captureStep => execCaptureStep s
  | .destuffStep => execDestuffStep s
  | .validate => execValidate s
  | .pack => execPack s
  | .encode _ => .refused .unknownMicroOp
  | .decode => .refused .unknownMicroOp
  | .wr8Tx _ _ => .refused .unknownMicroOp
  | .rd8Tx _ => .refused .unknownMicroOp
  | .rd8Rx _ => .refused .unknownMicroOp
  | .wr16Cmd _ => .refused .unknownMicroOp
  | .rd32Status => .refused .unknownMicroOp

/-- How (E_PHASE, E_IDX, E_BIT) moves on after the micro-operation issued at it (R132). After the last payload bit E_BIT is 7,
with E_IDX = N, to the end of the command; R130 and R132 give it no value there (DESIGN CHOICE, log entry 22). PAD is the
last phase: what follows it is the completion. -/
def EncCall.advance (e : EncCall) : EncCall :=
  match e.ePhase with
  | .startFlag => { e with ePhase := .payload }
  | .payload =>
    if e.eBit = 0 then { e with eIdx := e.eIdx + 1, eBit := 7, eByte := none } else { e with eBit := e.eBit - 1 }
  | .endFlag => { e with ePhase := .pad }
  | .pad => e

/-- SEQ after a micro-operation has run (R130, R132): it stays where it is while a request is outstanding; after PAD_ONES
the ENCODE calls finish(OK, N). In DECODING the micro-operations move D_STATE themselves (R162), and a completed command
has no SEQ to move. -/
def State.advance (s : State) : State :=
  match s.outstanding with
  | some _ => s
  | none =>
    match s.unit with
    | .idle => s
    | .decoding _ => s
    | .encoding e => if e.ePhase = .pad then s.finish .ok e.eLen else { s with unit := .encoding e.advance }

/-- Run the micro-operation of a U8 word, and move SEQ on. -/
def issueMicro (w : UopWord) (s : State) : Result :=
  match decodeU8 w with
  | .error _ => .refused .unknownMicroOp
  | .ok i =>
    match execMicro i s with
    | .next t => .next t.advance
    | .fault g => .fault g
    | .refused r => .refused r

/-- One step of the sequencer (R263). -/
def sequencerStep (s : State) : Result :=
  match seqAction s with
  | .rest => .next s
  | .issue w => issueMicro w s
  | .load e =>
    if e.eIdx.toNat < Config.bufBytes then
      match bufByte s.mem .tx e.eIdx.toNat with
      | none => .fault (.uninitialisedPayload e.eIdx.toNat)
      | some v => .next { s with unit := .encoding { e with eByte := some v } }
    else .fault .noSuchPlace
  | .endPayload e => .next { s with unit := .encoding { e with ePhase := .endFlag } }
  | .halted => .fault .terminalState

end Sys2Proof.Machine
end

