-- ==== Sys2Proof/Machine/Commands.lean ====
section
/-! DEFINITION. The two commands, each as one step from acceptance to completion (R130, R160; R66 and R263: "A model may
equally treat a whole command as one step, given the channel's answers in order"). A command whose channel stops answering
is left in progress, with its request outstanding (R58, R59, R239), and the sequencer goes on from there (DEDUCED, log entry
10). -/

namespace Sys2Proof.Machine

/-- Let the sequencer run until the command has completed or waits for the channel, at most `fuel` steps. -/
def runSequencer : Nat → State → Result
  | 0, s => .next s
  | n + 1, s =>
    if s.unit.isIdle then .next s
    else
      match sequencerStep s with
      | .next t => if t.outstanding.isSome then .next t else runSequencer n t
      | .fault g => .fault g
      | .refused r => .refused r

/-- Steps enough for every ENCODE: two flags, the end of the payload and the pad, and nine for each payload byte. -/
def encodeFuel : Nat := 9 * Config.maxMessageLen + 4

/-- Steps enough for every DECODE: one for each bit the channel still delivers and one for its last answer or wait, one for
each frame bit and one for the end of the walk, VALIDATE and PACK. -/
def decodeFuel (p : RxPort) : Nat := 8 * p.answers.length + 1 + Config.frameBitCapacity + 1 + 2

/-- ENCODE N (R130): acceptance (R204, R205), and where the command is not rejected (R131) its run. A command given while
UNIT_STATE is not IDLE is refused (R207). -/
def execEncode (len : Nat) (s : State) : Result :=
  match s.unit with
  | .idle => runSequencer encodeFuel ((s.accept (cmdWord 0x1 len)).startEncode len)
  | .encoding _ => .refused .commandWhileBusy
  | .decoding _ => .refused .commandWhileBusy

/-- DECODE (R160): acceptance and run. -/
def execDecode (s : State) : Result :=
  match s.unit with
  | .idle => runSequencer (decodeFuel s.rx) ((s.accept (cmdWord 0x2 0)).startDecode)
  | .encoding _ => .refused .commandWhileBusy
  | .decoding _ => .refused .commandWhileBusy

end Sys2Proof.Machine
end

