-- ==== Sys2Proof/Machine/HostBus.lean ====
section
/-! DEFINITION. The host bus accesses (44_host_commands.md): WR8 TX, RD8 TX, RD8 RX, WR16 CMD, RD32 STATUS. -/

namespace Sys2Proof.Machine

/-- A host access to a buffer, refused while UNIT_STATE is not IDLE (R211). -/
def State.whenIdle (s : State) (go : Result) : Result :=
  match s.unit with
  | .idle => go
  | .encoding _ => .refused .hostAccessWhileBusy
  | .decoding _ => .refused .hostAccessWhileBusy

/-- A host read of byte `i` of a buffer (R201, R202). -/
def State.readBuf (s : State) (buf : Buf) (i : Nat) : Result :=
  if i < Config.bufBytes then
    match bufByte s.mem buf i with
    | none => .fault (.uninitialisedRead buf i)
    | some v => .next (s.hostReturn (.byte v))
  else .fault .noSuchPlace

/-- WR8 TX[i], v (R200). -/
def execWr8Tx (i : Nat) (v : Byte) (s : State) : Result :=
  s.whenIdle
    (match bufWrite s.mem .tx i v with
    | none => .fault .noSuchPlace
    | some m => .next { s with mem := m })

/-- RD8 TX[i] (R201). -/
def execRd8Tx (i : Nat) (s : State) : Result := s.whenIdle (s.readBuf .tx i)

/-- RD8 RX[i] (R202). -/
def execRd8Rx (i : Nat) (s : State) : Result := s.whenIdle (s.readBuf .rx i)

/-- WR16 CMD, w (R204, R205): acceptance and dispatch; while UNIT_STATE is not IDLE it is refused (R207). -/
def execWr16Cmd (w : CmdWord) (s : State) : Result :=
  match s.unit with
  | .idle => .next ((s.accept w).dispatch w)
  | .encoding _ => .refused .commandWhileBusy
  | .decoding _ => .refused .commandWhileBusy

/-- RD32 STATUS (R208): allowed in every unit state, and it clears nothing. -/
def execRd32Status (s : State) : Result := .next (s.hostReturn (.word s.status.word))

end Sys2Proof.Machine
end

