-- ==== Sys2Proof/Machine/Dispatch.lean ====
section
/-! DEFINITION. The meaning of every instruction: one arm a constructor. -/

namespace Sys2Proof.Machine

def exec (i : Instr) (s : State) : Host.Outcome State Fault Refusal :=
  match i with
  -- CMD16
  | .encode len => Sys2Proof.Machine.execEncode len s
  | .decode => Sys2Proof.Machine.execDecode s
  -- U8
  | .writeBit b => Sys2Proof.Machine.execWriteBit b s
  | .writeFlag => Sys2Proof.Machine.execWriteFlag s
  | .padOnes => Sys2Proof.Machine.execPadOnes s
  | .encPayloadBit b => Sys2Proof.Machine.execEncPayloadBit b s
  | .readBit => Sys2Proof.Machine.execReadBit s
  | .seekStep => Sys2Proof.Machine.execSeekStep s
  | .captureStep => Sys2Proof.Machine.execCaptureStep s
  | .destuffStep => Sys2Proof.Machine.execDestuffStep s
  | .validate => Sys2Proof.Machine.execValidate s
  | .pack => Sys2Proof.Machine.execPack s
  -- BUS
  | .wr8Tx i' v => Sys2Proof.Machine.execWr8Tx i' v s
  | .rd8Tx i' => Sys2Proof.Machine.execRd8Tx i' s
  | .rd8Rx i' => Sys2Proof.Machine.execRd8Rx i' s
  | .wr16Cmd w => Sys2Proof.Machine.execWr16Cmd w s
  | .rd32Status => Sys2Proof.Machine.execRd32Status s

end Sys2Proof.Machine
end

