-- ==== Sys2Proof/Machine/Fetch.lean ====
section
/-! DEFINITION. What the machine does next: the head of the agenda, or the sequencer's next step. The framer has no program
counter and fetches no instructions (R30, R71): an instruction comes from the host's bus, from the host's command word, or
from the sequencer. -/

namespace Sys2Proof.Machine

/-- What a turn comes to. -/
inductive Fetched where
  /-- It runs this instruction in this state. -/
  | run (i : Instr) (s : State)
  /-- The sequencer takes a step in this state. -/
  | sequencer (s : State)
  /-- It has come to this outcome without an instruction. -/
  | settled (o : Result)

/-- A command word given to the unit as a whole command (R205): an illegal word completes as IllegalCommand (R206), and
while UNIT_STATE is not IDLE the word is refused (R207). -/
def fetchCommand (w : CmdWord) (s : State) : Fetched :=
  match s.unit with
  | .encoding _ => .settled (.refused .commandWhileBusy)
  | .decoding _ => .settled (.refused .commandWhileBusy)
  | .idle =>
    match decodeCmd16 w with
    | .ok i => .run i s
    | .error _ => .settled (.next (s.accept w).rejectCommand)

/-- One turn, the agenda moved on already. -/
def fetchTurn (t : Turn) (s : State) : Fetched :=
  match t with
  | .unit => .sequencer s
  | .reset => .settled (.next s.hardReset)
  | .command w => fetchCommand w s
  | .host a =>
    match decodeBus a with
    | .ok i => .run i s
    | .error _ => .settled (.refused .illegalHostAccess)
  | .micro w =>
    match decodeU8 w with
    | .ok i => .run i s
    | .error _ => .settled (.refused .unknownMicroOp)

/-- The next turn. -/
def fetch (s : State) : Fetched :=
  match s.agenda with
  | [] => .sequencer s
  | t :: rest => fetchTurn t { s with agenda := rest }

/-- The call's state a micro-operation needs, for one that is given from outside while no command is in progress: an
ENCODE for the writer's and the encoder's, a DECODE for the others, at call entry, and for DESTUFF_STEP, VALIDATE and PACK
at the entry to DESTUFFING, VALIDATING or PACKING (R38, R41). An ENCODE's is that of ENCODE 0. -/
def callFor (i : Instr) : Option UnitState :=
  match i with
  | .writeBit _ => some (.encoding (.entry 0))
  | .writeFlag => some (.encoding (.entry 0))
  | .padOnes => some (.encoding (.entry 0))
  | .encPayloadBit _ => some (.encoding (.entry 0))
  | .readBit => some (.decoding .entry)
  | .seekStep => some (.decoding .entry)
  | .captureStep => some (.decoding { DecCall.entry with dState := .inFrame })
  | .destuffStep => some (.decoding { DecCall.entry with dState := .destuffing, destuff := some .entry })
  | .validate => some (.decoding { DecCall.entry with dState := .validating, destuff := some .entry })
  | .pack => some (.decoding { DecCall.entry with dState := .packing, destuff := some .entry })
  | .encode _ => none
  | .decode => none
  | .wr8Tx _ _ => none
  | .rd8Tx _ => none
  | .rd8Rx _ => none
  | .wr16Cmd _ => none
  | .rd32Status => none

/-- The command word a unit state goes with: CUR_CMD holds it (R29). -/
def UnitState.word : UnitState → Option CmdWord
  | .idle => none
  | .encoding e => some (cmdWord 0x1 e.eLen.toNat)
  | .decoding _ => some (cmdWord 0x2 0)

/-- While IDLE, put the unit into the command a micro-operation needs. -/
def State.inCallFor (s : State) (i : Instr) : State :=
  match s.unit with
  | .encoding _ => s
  | .decoding _ => s
  | .idle =>
    match callFor i with
    | none => s
    | some u => ({ s with curCmd := u.word, status := .zero }).enter u

/-- Place a raw word where the next turn takes it. -/
def State.place (s : State) (r : Raw) : State :=
  match r with
  | .cmd16 w => { s with agenda := .command w :: s.agenda }
  | .bus a => { s with agenda := .host a :: s.agenda }
  | .u8 w =>
    match decodeU8 w with
    | .ok i => { s.inCallFor i with agenda := .micro w :: s.agenda }
    | .error _ => { s with agenda := .micro w :: s.agenda }

end Sys2Proof.Machine
end

