-- ==== Sys2Proof/Machine/Step.lean ====
section
/-! DEFINITION. One step of the machine, and where the host places a word of the opcode table for it. -/

namespace Sys2Proof.Machine

/-- One step (R20, R263): the next agent's turn. -/
def step (s : State) : Host.Outcome State Fault Refusal :=
  match fetch s with
  | .run i t => exec i t
  | .sequencer t => sequencerStep t
  | .settled o => o

/-- `s` with the table's word placed so that the very next step runs it (DESIGN CHOICE, log entry 11). -/
def State.withFetchWord (s : State) (nbits w : Nat) : State :=
  match tableRaw nbits w with
  | none => s
  | some r => s.place r

end Sys2Proof.Machine
end

