-- ==== Sys2Proof/Machine/Wire.lean ====
section
/-! DEFINITION. The wire format as functions of whole bit strings (30_encoding.md rules R80 to R83, 43_frame_decoder.md
rules R160 to R178): what the statements compare the micro-operations with. No meaning calls them. -/

namespace Sys2Proof.Machine

/-- FLAGBITS = 0111 1110 (R80). -/
def flagBits : List Bit := byteBits Config.flag

/-- stuff (R81) on a bit string, from a run counter: a 0 after every fifth consecutive 1, which is not counted. -/
def stuffFrom : Nat → List Bit → List Bit
  | _, [] => []
  | ones, true :: bs =>
    if ones + 1 = Config.stuffRun then true :: false :: stuffFrom 0 bs else true :: stuffFrom (ones + 1) bs
  | _, false :: bs => false :: stuffFrom 0 bs

/-- stuff(P) (R81). -/
def stuff (P : List Byte) : List Bit := stuffFrom 0 (bytesBits P)

/-- fill(P) (R82): 1-bits up to a multiple of 8. -/
def fill (P : List Byte) : List Bit := List.replicate ((8 - (16 + (stuff P).length) % 8) % 8) true

/-- wire(P) (R80). -/
def wire (P : List Byte) : List Bit := flagBits ++ stuff P ++ flagBits ++ fill P

/-- The bytes of wire(P), cut into consecutive groups of 8 bits (R136). -/
def wireBytes (P : List Byte) : List Byte := groupBytes (wire P)

/-- The lengths of the runs of 1-bits, some of them 0, of a bit string that continues a run of `r`. -/
def onesRuns : Nat → List Bit → List Nat
  | r, [] => [r]
  | r, true :: bs => onesRuns (r + 1) bs
  | r, false :: bs => r :: onesRuns 0 bs

/-- S(P) (R83): the sum of floor(r / 5) over the runs of 1-bits. -/
def stuffedCount (P : List Byte) : Nat := ((onesRuns 0 (bytesBits P)).map (· / 5)).sum

/-- How many bits it takes until the sliding window, starting at `win`, first equals FLAG (R163, R167); `none` where it
never does. -/
def firstFlag : Byte → List Bit → Option Nat
  | _, [] => none
  | win, b :: bs =>
    if shiftIn win b = Config.flag then some 1 else (firstFlag (shiftIn win b) bs).map (· + 1)

/-- destuff (R173) on frame bits, from a run counter; `none` is ProtocolError. -/
def destuffFrom : Nat → List Bit → Option (List Bit)
  | _, [] => some []
  | c, true :: bs => if 5 < c + 1 then none else (destuffFrom (c + 1) bs).map (true :: ·)
  | c, false :: bs => if c = 5 then destuffFrom 0 bs else (destuffFrom 0 bs).map (false :: ·)

/-- destuff(f) (R173). -/
def destuff (f : List Bit) : Option (List Bit) := destuffFrom 0 f

/-- The result of a DECODE and how many bytes of the receive stream it consumes; `usesTail` says whether it also takes the
answer that ends the stream. -/
structure Verdict where
  kind : Kind
  payload : List Byte
  consumed : Nat
  usesTail : Bool
  deriving DecidableEq, Repr

/-- Steps 3 to 5 on the frame bits (R172 to R177), `used` bits of the stream having been read. -/
def frameVerdict (f : List Bit) (used : Nat) : Verdict :=
  match destuff f with
  | none => ⟨.protocolError, [], (used + 7) / 8, false⟩
  | some out =>
    if out.length % 8 ≠ 0 then ⟨.alignmentError, [], (used + 7) / 8, false⟩
    else if Config.maxMessageLen < out.length / 8 then ⟨.oversizeError, [], (used + 7) / 8, false⟩
    else ⟨.ok, groupBytes out, (used + 7) / 8, false⟩

/-- Step 2 on the bits after the start flag (R167 to R170), `used` bits having been read before them. -/
def captureVerdict (bits : List Bit) (used nBytes : Nat) (tail : RxAnswer) : Verdict :=
  match firstFlag 0 (bits.take Config.frameBitCapacity) with
  | some m =>
    if m < 8 then ⟨.frameError, [], (used + m + 7) / 8, false⟩ else frameVerdict (bits.take (m - 8)) (used + m)
  | none =>
    if Config.frameBitCapacity < bits.length then
      ⟨.frameTooLong, [], (used + Config.frameBitCapacity + 1 + 7) / 8, false⟩
    else ⟨if tail = .eos then .unexpectedEOF else .ioError, [], nBytes, true⟩

/-- What a DECODE makes of a receive stream of these bytes that the answer `tail` ends (R160 to R178). -/
def decodeVerdict (bytes : List Byte) (tail : RxAnswer) : Verdict :=
  match firstFlag 0 (bytesBits bytes) with
  | none => ⟨if tail = .eos then .syncError else .ioError, [], bytes.length, true⟩
  | some k => captureVerdict ((bytesBits bytes).drop k) k bytes.length tail

end Sys2Proof.Machine
end

