-- ==== Sys2Proof/Safety.lean ====
section
/-! DEFINITION. What the claims are stated in: the invariant of a run, the launch premises and the end of a run
(70_reset_and_hazards.md rules R264, R266), and a row of instructions run one after the other. -/

namespace Sys2Proof.Machine

/-- The values the rules allow in an ENCODE's state between micro-operations (R32, R33, R113, R132). That E_BIT is 7 where no
payload byte is held, also after the last one, is the model's choice (`unloaded`; DESIGN CHOICE, log entry 22). -/
structure EncCall.Ok (e : EncCall) : Prop where
  len : e.eLen.toNat ≤ Config.maxMessageLen
  idx : e.eIdx.toNat ≤ e.eLen.toNat
  ones : e.eOnes.toNat ≤ 4
  pending : ∀ i, i ≤ e.wPos.toNat → e.wByte.getLsbD i = false
  start : e.ePhase = .startFlag → e.wPos = 7 ∧ e.eIdx = 0 ∧ e.eOnes = 0
  loaded : e.eByte ≠ none → e.ePhase = .payload ∧ e.eIdx.toNat < e.eLen.toNat
  unloaded : e.eByte = none → e.eBit = 7
  ended : e.ePhase = .endFlag ∨ e.ePhase = .pad → e.eIdx = e.eLen

/-- The values the rules allow in the destuffing pass between micro-operations (R38, R172). -/
structure Destuff.Ok (x : Destuff) (fCnt : Nat) : Prop where
  order : x.dCnt.toNat ≤ x.dIdx.toNat ∧ x.dIdx.toNat ≤ fCnt
  ones : x.dOnes.toNat ≤ 5
  cells : ∀ i, i < x.dCnt.toNat → cellRead x.dBuf i ≠ none

/-- The values the rules allow in a DECODE's state between micro-operations (R34 to R38, R162). -/
structure DecCall.Ok (d : DecCall) : Prop where
  avail : d.rAvail.toNat ≤ 8
  byte : d.rAvail ≠ 0 → d.rByte ≠ none
  live : d.dState ≠ .done ∧ d.dState ≠ .error
  count : d.fCnt.toNat ≤ Config.frameBitCapacity
  cells : ∀ i, i < d.fCnt.toNat → cellRead d.fBuf i ≠ none
  seeking : d.dState = .seekingFlag → d.fCnt = 0
  early : d.dState = .seekingFlag ∨ d.dState = .inFrame → d.destuff = none
  walk : d.dState = .destuffing ∨ d.dState = .validating ∨ d.dState = .packing →
    ∃ x, d.destuff = some x ∧ x.Ok d.fCnt.toNat
  walked : d.dState = .validating ∨ d.dState = .packing → ∀ x, d.destuff = some x → x.dIdx = d.fCnt
  valid : d.dState = .packing → ∀ x, d.destuff = some x →
    x.dCnt.toNat % 8 = 0 ∧ x.dCnt.toNat / 8 ≤ Config.maxMessageLen

/-- The call's state is one the rules allow. -/
def UnitState.Ok : UnitState → Prop
  | .idle => True
  | .encoding e => e.Ok
  | .decoding d => d.Ok

/-- STATUS against UNIT_STATE (R25 to R28). -/
structure Status.Ok (t : Status) (u : UnitState) : Prop where
  busy : t.busy = !u.isIdle
  notBoth : t.busy = true → t.done = false
  noResult : t.done = false → t.kind = .ok ∧ t.count = 0
  errorCount : t.kind ≠ .ok → t.count = 0
  countRange : t.count.toNat ≤ Config.maxMessageLen

/-- An outstanding request is the unit's own, and the channel has no answer for it (R57 to R59). -/
def State.OutstandingOk (s : State) : Prop :=
  match s.outstanding, s.unit with
  | none, _ => True
  | some .read, .decoding _ => s.rx.answers = []
  | some (.write _), .encoding _ => s.tx.answers = []
  | some _, _ => False

/-- The agenda gives the datapath no micro-operation from outside: no interface of the hardware does (R92). -/
def State.NoMicro (s : State) : Prop := ∀ w, Turn.micro w ∉ s.agenda

/-- What holds of the machine after reset and after every step (an invariant of the whole machine). -/
structure State.Inv (s : State) : Prop where
  mem : Memory.wf s.mem
  call : s.unit.Ok
  status : s.status.Ok s.unit
  curCmd : s.curCmd = s.unit.word
  outstanding : s.OutstandingOk
  noMicro : s.NoMicro

/-- clean_entry (R266): a run starts from reset, with what the channel will answer and what the agents will do given. -/
def State.start (tx : List TxAnswer) (rx : List RxAnswer) (agenda : List Turn) : State :=
  { State.reset with
    tx := { answers := tx, log := [] }
    rx := { answers := rx, log := [] }
    agenda := agenda }

/-- The run has ended (R264): the host has made its last access, and no command is in progress. A fault or a refusal is no
state, so it is no end. -/
def State.Ended (s : State) : Prop := s.agenda = [] ∧ s.unit = .idle

/-- The final observation (R264): STATUS, the buffer bytes that hold a value, the transmit requests with their answers, and
the number of receive bytes consumed. -/
structure Observation where
  status : BitVec 32
  mem : List Host.Cell
  sent : List (Byte × TxAnswer)
  consumed : Nat
  deriving DecidableEq, Repr

/-- The observation of a state (R264). -/
def State.observe (s : State) : Observation :=
  { status := s.status.word, mem := s.mem, sent := s.tx.log, consumed := s.rx.consumed.length }

/-- `s` after a micro-operation of an ENCODE is done: the call's state and the transmit port are these, and nothing is
outstanding; all else is as before. -/
def State.withEnc (s : State) (e : EncCall) (p : TxPort) : State :=
  { s with unit := .encoding e, tx := p, outstanding := none }

/-- `s` after a micro-operation of a DECODE is done. -/
def State.withDec (s : State) (d : DecCall) (p : RxPort) : State :=
  { s with unit := .decoding d, rx := p, outstanding := none }

/-- `s` with a request outstanding and all else as before. -/
def State.waiting (s : State) (r : ChanReq) : State := { s with outstanding := some r }

/-- `s` with a write request answered and recorded, `rest` being the answers still to come. -/
def State.sent (s : State) (log : List (Byte × TxAnswer)) (rest : List TxAnswer) : State :=
  { s with tx := { answers := rest, log := s.tx.log ++ log } }

/-- `s` with read requests answered and recorded, `rest` being the answers still to come. -/
def State.received (s : State) (log rest : List RxAnswer) : State :=
  { s with rx := { answers := rest, log := s.rx.log ++ log } }

/-- `s` after a command has completed with kind `k` and count `c` (R220): IDLE, DONE = 1, no per-call state, CUR_CMD without
a value, nothing outstanding; all else is as before. -/
def State.completed (s : State) (k : Kind) (c : Nat) : State :=
  { s with
    unit := .idle
    status := { busy := false, done := true, kind := k, count := BitVec.ofNat 9 c }
    curCmd := none
    outstanding := none }

/-- Six consecutive 1-bits stand somewhere in the bit string. -/
def SixOnes (bits : List Bit) : Prop := List.IsInfix (List.replicate 6 true) bits

/-- RX_BUF holds the payload from its first byte on and is otherwise as before, and so is TX_BUF. -/
def PayloadStored (old new : List Host.Cell) (P : List Byte) : Prop :=
  (∀ i, i < P.length → bufByte new .rx i = some (P.getD i 0)) ∧
  (∀ i, P.length ≤ i → bufByte new .rx i = bufByte old .rx i) ∧
  (∀ i, bufByte new .tx i = bufByte old .tx i)

/-- Instructions run one after the other, stopping at the first fault or refusal. -/
def execAll : List Instr → State → Result
  | [], s => .next s
  | i :: is, s =>
    match exec i s with
    | .next t => execAll is t
    | .fault g => .fault g
    | .refused r => .refused r

end Sys2Proof.Machine
end

