-- ==== Sys2Proof/Certificates/Slice0/Obligations.lean ====
section
/-! DEFINITION. The statements for the provers, from the numbered rules of spec/. OBLIGATIONS.json lists them. -/

open Sys2Proof Sys2Proof.Machine

/-! ### Encodings -/

/-- R96: the command words of the table decode to their commands, the over-long ENCODE completes as
PreconditionViolation and the four illegal words as IllegalCommand. -/
def Obligations.CommandWordExamples : Prop :=
  decode (.cmd16 0x1000) = .ok (.encode 0) ∧ decode (.cmd16 0x1001) = .ok (.encode 1) ∧
  decode (.cmd16 0x1002) = .ok (.encode 2) ∧ decode (.cmd16 0x1100) = .ok (.encode 256) ∧
  decode (.cmd16 0x1101) = .ok (.encode 257) ∧ decode (.cmd16 0x2000) = .ok .decode ∧
  (∀ s : State, s.unit = .idle →
    exec (.wr16Cmd 0x1101) s = .next (s.completed .preconditionViolation 0) ∧
    ∀ w ∈ [0x2001#16, 0x1200#16, 0x3000#16, 0x0000#16],
      exec (.wr16Cmd w) s = .next (s.completed .illegalCommand 0))

/-- R92, R93: the ten micro-operation codes with their bit operand, and nothing else, decode; the sequencer issues no other
word, and a model that meets one refuses it. (That a word can be met by itself, as the turn `micro`, is the model's choice, log
entry 6.) -/
def Obligations.MicroOpCodes : Prop :=
  (∀ b : Bit, decode (.u8 (0x10 ||| BitVec.zeroExtend 8 (BitVec.ofBool b))) = .ok (.writeBit b)) ∧
  decode (.u8 0x20) = .ok .writeFlag ∧ decode (.u8 0x30) = .ok .padOnes ∧
  (∀ b : Bit, decode (.u8 (0x40 ||| BitVec.zeroExtend 8 (BitVec.ofBool b))) = .ok (.encPayloadBit b)) ∧
  decode (.u8 0x50) = .ok .readBit ∧ decode (.u8 0x60) = .ok .seekStep ∧ decode (.u8 0x70) = .ok .captureStep ∧
  decode (.u8 0x80) = .ok .destuffStep ∧ decode (.u8 0x90) = .ok .validate ∧ decode (.u8 0xA0) = .ok .pack ∧
  (∀ w : UopWord,
    w ∉ [0x10#8, 0x11#8, 0x20#8, 0x30#8, 0x40#8, 0x41#8, 0x50#8, 0x60#8, 0x70#8, 0x80#8, 0x90#8, 0xA0#8] →
      decode (.u8 w) = .error .unknownMicroOp ∧
      (∀ (s : State) (rest : List Turn), s.agenda = .micro w :: rest → step s = .refused .unknownMicroOp) ∧
      ∀ s : State, seqAction s ≠ .issue w)

/-- Every well-formed instruction is read back from its own words. -/
def Obligations.DecodeOfEncode : Prop :=
  ∀ i : Instr, i.wellFormed = true → decode (encode i) = .ok i

/-- Every word that decodes is the word of the instruction it decodes to, which is well-formed. -/
def Obligations.EncodeOfDecode : Prop :=
  ∀ (r : Raw) (i : Instr), decode r = .ok i → encode i = r ∧ i.wellFormed = true

/-- R89: a command word is illegal exactly when OP is not 1 or 2, RSVD is not 0, or OP is 2 with LEN not 0; and an illegal
command changes STATUS alone (R206). -/
def Obligations.IllegalCommandWords : Prop :=
  ∀ w : CmdWord,
    (decode (.cmd16 w) = .error .reservedCommand ↔
      (w.toNat / 4096 = 0 ∨ 3 ≤ w.toNat / 4096 ∨ w.toNat / 512 % 8 ≠ 0 ∨ (w.toNat / 4096 = 2 ∧ w.toNat % 512 ≠ 0))) ∧
    (decode (.cmd16 w) = .error .reservedCommand → ∀ s : State, s.unit = .idle →
      exec (.wr16Cmd w) s = .next (s.completed .illegalCommand 0) ∧
      (s.completed .illegalCommand 0).status.word = 0x0000_00A2#32)

/-- R209: every host access but the map's own (R61) is refused, in every unit state: a read of CMD, a write to STATUS or
RX_BUF, an access of another width, an address outside the map. In IDLE the refusal is IllegalHostAccess (R244). -/
def Obligations.IllegalHostAccessRefused : Prop :=
  ∀ (s : State) (rest : List Turn) (a : BusAccess), s.agenda = .host a :: rest →
    (∀ i v, i < 0x100 → a ≠ .wr8 (BitVec.ofNat 10 i) v) → (∀ i, i < 0x200 → a ≠ .rd .w8 (BitVec.ofNat 10 i)) →
    (∀ w, a ≠ .wr16 0x200 w) → a ≠ .rd .w32 0x204 →
    (∃ r, step s = .refused r) ∧ (s.unit = .idle → step s = .refused .illegalHostAccess)

/-! ### The step -/

/-- A turn that brings a word which decodes runs the decoded instruction, with the agenda moved on. (The turns, and the whole
command as one of them, are the model's choice, log entries 6 and 10.) -/
def Obligations.StepRunsDecodedInstruction : Prop :=
  ∀ (s : State) (rest : List Turn) (i : Instr),
    (∀ a, s.agenda = .host a :: rest → decode (.bus a) = .ok i → step s = exec i { s with agenda := rest }) ∧
    (∀ w, s.agenda = .micro w :: rest → decode (.u8 w) = .ok i → step s = exec i { s with agenda := rest }) ∧
    (∀ w, s.agenda = .command w :: rest → s.unit = .idle → decode (.cmd16 w) = .ok i →
      step s = exec i { s with agenda := rest })

/-- The sequencer's step runs the micro-operation of SEQ's position (R130, R160) and then moves SEQ on. (What one step is, is
the model's choice, log entry 7.) -/
def Obligations.SequencerIssuesAtSeq : Prop :=
  (∀ (s : State) (w : UopWord) (i : Instr), s.agenda = [] → seqAction s = .issue w → decode (.u8 w) = .ok i →
    (∀ t, exec i s = .next t → step s = .next t.advance) ∧ (∀ g, exec i s = .fault g → step s = .fault g)) ∧
  (∀ (s : State) (rest : List Turn), s.agenda = .unit :: rest → step s = sequencerStep { s with agenda := rest }) ∧
  (∀ s : State, s.agenda = [] → step s = sequencerStep s) ∧
  (∀ (s : State) (e : EncCall), s.unit = .encoding e →
    (e.ePhase = .startFlag → seqAction s = .issue 0x20) ∧
    (∀ v, e.ePhase = .payload → e.eIdx.toNat < e.eLen.toNat → e.eByte = some v →
      seqAction s = .issue (0x40 ||| BitVec.zeroExtend 8 (BitVec.ofBool (v.getLsbD e.eBit.toNat)))) ∧
    (e.ePhase = .endFlag → seqAction s = .issue 0x20) ∧
    (e.ePhase = .pad → seqAction s = .issue 0x30)) ∧
  (∀ (s : State) (d : DecCall), s.unit = .decoding d →
    (d.dState = .seekingFlag → seqAction s = .issue 0x60) ∧ (d.dState = .inFrame → seqAction s = .issue 0x70) ∧
    (d.dState = .destuffing → seqAction s = .issue 0x80) ∧ (d.dState = .validating → seqAction s = .issue 0x90) ∧
    (d.dState = .packing → seqAction s = .issue 0xA0))

/-- R132: how (E_PHASE, E_IDX, E_BIT) moves in one sequencer step of an ENCODE that is still in progress after it. (That a
step which comes to wait leaves the call's state as it was is the model's choice, log entry 5; that E_BIT is 7 after the last
payload bit is too, log entry 22.) -/
def Obligations.EncoderPhaseOrder : Prop :=
  ∀ (s t : State) (e e' : EncCall), s.unit = .encoding e → sequencerStep s = .next t → t.unit = .encoding e' →
    (t.outstanding ≠ none ∧ s.outstanding = none → e' = e) ∧
    (e'.ePhase = e.ePhase ∨ (e.ePhase = .startFlag ∧ e'.ePhase = .payload) ∨
      (e.ePhase = .payload ∧ e'.ePhase = .endFlag ∧ e.eLen.toNat ≤ e.eIdx.toNat) ∨
      (e.ePhase = .endFlag ∧ e'.ePhase = .pad)) ∧
    e'.eLen = e.eLen ∧
    ((e'.eIdx = e.eIdx ∧ e'.eBit = e.eBit) ∨
      (e.ePhase = .payload ∧ e.eIdx.toNat < e.eLen.toNat ∧
        ((e.eBit ≠ 0 ∧ e'.eIdx = e.eIdx ∧ e'.eBit = e.eBit - 1) ∨
          (e.eBit = 0 ∧ e'.eIdx = e.eIdx + 1 ∧ e'.eBit = 7))))

/-- R162: the transitions of D_STATE in one sequencer step, and which kinds end a DECODE from which state. -/
def Obligations.DecoderTransitions : Prop :=
  ∀ (s t : State) (d : DecCall), s.unit = .decoding d → sequencerStep s = .next t →
    (∃ d', t.unit = .decoding d' ∧
      (d'.dState = d.dState ∧ d.dState ∈ [DState.seekingFlag, .inFrame, .destuffing] ∨
       (d.dState = .seekingFlag ∧ d'.dState = .inFrame) ∨ (d.dState = .inFrame ∧ d'.dState = .destuffing) ∨
       (d.dState = .destuffing ∧ d'.dState = .validating) ∨ (d.dState = .validating ∧ d'.dState = .packing))) ∨
    (t.unit = .idle ∧ t.status.done = true ∧ t.status.busy = false ∧
      ((d.dState = .seekingFlag ∧ t.status.kind ∈ [Kind.syncError, .ioError]) ∨
       (d.dState = .inFrame ∧ t.status.kind ∈ [Kind.unexpectedEOF, .ioError, .frameTooLong, .frameError]) ∨
       (d.dState = .destuffing ∧ t.status.kind = .protocolError) ∨
       (d.dState = .validating ∧ t.status.kind ∈ [Kind.alignmentError, .oversizeError]) ∨
       (d.dState = .packing ∧ t.status.kind = .ok)))

/-! ### Reset -/

/-- R42: what reset leaves, and that RESET leaves it whatever the unit was doing (R250, R251): no request is made, and an
outstanding one is withdrawn. -/
def Obligations.ResetState : Prop :=
  (State.reset.unit = .idle ∧ State.reset.seq = .idle ∧ State.reset.status.word = 0x0000_0000#32 ∧
    State.reset.curCmd = none ∧ ∀ buf i, bufByte State.reset.mem buf i = none) ∧
  (∀ (s : State) (rest : List Turn), s.agenda = .reset :: rest →
    ∃ t, step s = .next t ∧ t.unit = .idle ∧ t.seq = .idle ∧ t.status.word = 0x0000_0000#32 ∧ t.curCmd = none ∧
      (∀ buf i, bufByte t.mem buf i = none) ∧ t.outstanding = none ∧ t.tx = s.tx ∧ t.rx = s.rx)

/-! ### Host accesses -/

/-- R200: WR8 TX[i], v in IDLE sets that byte and nothing else; while a command is in progress it is refused. -/
def Obligations.HostWriteOfTxBuf : Prop :=
  ∀ (s : State) (i : Nat) (v : Byte), i < 256 →
    encode (.wr8Tx i v) = .bus (.wr8 (BitVec.ofNat 10 i) v) ∧
    (s.unit = .idle →
      ∃ m, exec (.wr8Tx i v) s = .next { s with mem := m } ∧ bufByte m .tx i = some v ∧
        ∀ a, a ≠ i → memRead m a = memRead s.mem a) ∧
    (s.unit ≠ .idle → exec (.wr8Tx i v) s = .refused .hostAccessWhileBusy)

/-- R201, R202: a host read of a buffer byte returns it and changes nothing; a byte without a value is the model fault
UninitialisedRead; while a command is in progress the read is refused. -/
def Obligations.HostReadOfBuffers : Prop :=
  ∀ (s : State) (i : Nat), i < 256 →
    encode (.rd8Tx i) = .bus (.rd .w8 (BitVec.ofNat 10 i)) ∧
    encode (.rd8Rx i) = .bus (.rd .w8 (BitVec.ofNat 10 (0x100 + i))) ∧
    (s.unit = .idle → ∀ v, bufByte s.mem .tx i = some v →
      exec (.rd8Tx i) s = .next { s with hostReads := .byte v :: s.hostReads }) ∧
    (s.unit = .idle → bufByte s.mem .tx i = none → exec (.rd8Tx i) s = .fault (.uninitialisedRead .tx i)) ∧
    (s.unit ≠ .idle → exec (.rd8Tx i) s = .refused .hostAccessWhileBusy) ∧
    (s.unit = .idle → ∀ v, bufByte s.mem .rx i = some v →
      exec (.rd8Rx i) s = .next { s with hostReads := .byte v :: s.hostReads }) ∧
    (s.unit = .idle → bufByte s.mem .rx i = none → exec (.rd8Rx i) s = .fault (.uninitialisedRead .rx i)) ∧
    (s.unit ≠ .idle → exec (.rd8Rx i) s = .refused .hostAccessWhileBusy)

/-- R208, R90, R91: RD32 STATUS answers in every unit state with `COUNT << 16 | KIND << 4 | DONE << 1 | BUSY`, reserved bits
0, and changes nothing; the KIND codes are 0 to 10 in the table's order. -/
def Obligations.HostReadOfStatus : Prop :=
  encode .rd32Status = .bus (.rd .w32 0x204) ∧
  (∀ s : State, ∃ v : BitVec 32,
    exec .rd32Status s = .next { s with hostReads := .word v :: s.hostReads } ∧
    v.toNat = s.status.count.toNat * 65536 + s.status.kind.code.toNat * 16 + s.status.done.toNat * 2 +
      s.status.busy.toNat ∧
    v.getLsbD 0 = s.status.busy ∧ v.getLsbD 1 = s.status.done ∧ v.extractLsb' 2 2 = 0 ∧
    v.extractLsb' 4 4 = s.status.kind.code ∧ v.extractLsb' 8 8 = 0 ∧ v.extractLsb' 16 9 = s.status.count ∧
    v.extractLsb' 25 7 = 0) ∧
  [Kind.ok, .ioError, .syncError, .unexpectedEOF, .frameTooLong, .frameError, .protocolError, .alignmentError,
    .oversizeError, .preconditionViolation, .illegalCommand].map (fun k => k.code.toNat) = List.range 11

/-- R204, R205: WR16 CMD in IDLE: the word is latched, DONE, KIND and COUNT are cleared, and the word is dispatched on its
fields; IllegalCommand comes before PreconditionViolation. -/
def Obligations.CommandAcceptance : Prop :=
  ∀ (s : State) (op rsvd len : Nat), op < 16 → rsvd < 8 → len < 512 → s.unit = .idle →
    let w := BitVec.ofNat 16 (op * 4096 + rsvd * 512 + len)
    (rsvd ≠ 0 ∨ (op ≠ 1 ∧ op ≠ 2) ∨ (op = 2 ∧ len ≠ 0) →
      exec (.wr16Cmd w) s = .next (s.completed .illegalCommand 0)) ∧
    (rsvd = 0 → op = 1 → 256 < len → exec (.wr16Cmd w) s = .next (s.completed .preconditionViolation 0)) ∧
    (rsvd = 0 → op = 1 → len ≤ 256 →
      exec (.wr16Cmd w) s = .next { s with
        curCmd := some w
        status := { busy := true, done := false, kind := .ok, count := 0 }
        unit := .encoding { wByte := 0x00, wPos := 7, eLen := BitVec.ofNat 9 len, eIdx := 0, eBit := 7, eByte := none,
                            ePhase := .startFlag, eOnes := 0 } }) ∧
    (rsvd = 0 → op = 2 → len = 0 →
      exec (.wr16Cmd w) s = .next { s with
        curCmd := some w
        status := { busy := true, done := false, kind := .ok, count := 0 }
        unit := .decoding { rByte := none, rAvail := 0, rResult := none, dState := .seekingFlag, dWin := 0x00, fBuf := [],
                            fCnt := 0, destuff := none } })

/-- R207: while a command is in progress a CMD write is refused as CommandWhileBusy, and so is a command given as a whole (the
model's coarse view, log entries 6 and 10). -/
def Obligations.CommandWhileBusyRefused : Prop :=
  ∀ s : State, s.unit ≠ .idle →
    (∀ w, exec (.wr16Cmd w) s = .refused .commandWhileBusy) ∧ (∀ n, exec (.encode n) s = .refused .commandWhileBusy) ∧
    exec .decode s = .refused .commandWhileBusy ∧
    ∀ w rest, s.agenda = .command w :: rest → step s = .refused .commandWhileBusy

/-- R131: an over-long ENCODE is rejected at acceptance: STATUS becomes 0x0000_0092, and nothing else changes. -/
def Obligations.OverlongEncodeRejected : Prop :=
  ∀ (s : State) (n : Nat), 256 < n → n < 512 → s.unit = .idle →
    exec (.encode n) s = .next (s.completed .preconditionViolation 0) ∧
    exec (.wr16Cmd (BitVec.ofNat 16 (0x1000 + n))) s = .next (s.completed .preconditionViolation 0) ∧
    (s.completed .preconditionViolation 0).status.word = 0x0000_0092#32

/-! ### The Bit Writer -/

/-- R110: WRITE_BIT b. -/
def Obligations.WriteBitEffect : Prop :=
  (∀ b : Bit, encode (.writeBit b) = .u8 (0x10 ||| BitVec.zeroExtend 8 (BitVec.ofBool b))) ∧
  (∀ (v : Byte) (i j : Nat) (b : Bit), i < 8 → j < 8 → (setBit v i b).getLsbD j = if j = i then b else v.getLsbD j) ∧
  (∀ (s : State) (e : EncCall) (b : Bit), s.unit = .encoding e →
    (e.wPos ≠ 0 → exec (.writeBit b) s =
      .next (s.withEnc { e with wByte := setBit e.wByte e.wPos.toNat b, wPos := e.wPos - 1 } s.tx)) ∧
    (e.wPos = 0 → ∀ rest, s.tx.answers = .ok :: rest → exec (.writeBit b) s =
      .next (s.withEnc { e with wByte := 0x00, wPos := 7 } ⟨rest, s.tx.log ++ [(setBit e.wByte 0 b, .ok)]⟩)) ∧
    (e.wPos = 0 → ∀ rest, s.tx.answers = .err :: rest → exec (.writeBit b) s =
      .next ((s.sent [(setBit e.wByte 0 b, .err)] rest).completed .ioError 0)))

/-- R111: WRITE_FLAG from any W_POS: one byte goes out, and W_POS ends where it was. -/
def Obligations.WriteFlagEffect : Prop :=
  encode .writeFlag = .u8 0x20 ∧
  ∀ (s : State) (e : EncCall), s.unit = .encoding e →
    let out : Byte := (e.wByte &&& (0xFF#8 <<< (e.wPos.toNat + 1))) ||| (0x7E#8 >>> (7 - e.wPos.toNat))
    (∀ rest, s.tx.answers = .ok :: rest → exec .writeFlag s =
      .next (s.withEnc { e with wByte := 0x7E#8 <<< (e.wPos.toNat + 1) } ⟨rest, s.tx.log ++ [(out, .ok)]⟩)) ∧
    (∀ rest, s.tx.answers = .err :: rest → exec .writeFlag s =
      .next ((s.sent [(out, .err)] rest).completed .ioError 0))

/-- R112: PAD_ONES from any W_POS. -/
def Obligations.PadOnesEffect : Prop :=
  encode .padOnes = .u8 0x30 ∧
  ∀ (s : State) (e : EncCall), s.unit = .encoding e →
    let out : Byte := (e.wByte &&& (0xFF#8 <<< (e.wPos.toNat + 1))) ||| (0xFF#8 >>> (7 - e.wPos.toNat))
    (e.wPos = 7 → exec .padOnes s = .next (s.withEnc e s.tx)) ∧
    (e.wPos ≠ 7 → ∀ rest, s.tx.answers = .ok :: rest → exec .padOnes s =
      .next (s.withEnc { e with wByte := 0x00, wPos := 7 } ⟨rest, s.tx.log ++ [(out, .ok)]⟩)) ∧
    (e.wPos ≠ 7 → ∀ rest, s.tx.answers = .err :: rest → exec .padOnes s =
      .next ((s.sent [(out, .err)] rest).completed .ioError 0))

/-- R113: from call entry, m successful WRITE_BITs make floor(m / 8) ChanWrites, of the written bits in order; W_POS is
7 - (m mod 8), and the pending byte holds the bits written since the last flush, and 0 below. -/
def Obligations.WriterSequence : Prop :=
  ∀ (s : State) (e : EncCall) (bs : List Bit) (rest : List TxAnswer),
    s.unit = .encoding e → e.wByte = 0x00 → e.wPos = 7 → s.outstanding = none →
    s.tx.answers = List.replicate (bs.length / 8) .ok ++ rest →
    ∃ w : Byte,
      execAll (bs.map .writeBit) s =
        .next (s.withEnc { e with wByte := w, wPos := BitVec.ofNat 3 (7 - bs.length % 8) }
          ⟨rest, s.tx.log ++ (groupBytes bs).map (fun v => (v, TxAnswer.ok))⟩) ∧
      (∀ i, i ≤ 7 - bs.length % 8 → w.getLsbD i = false) ∧
      (∀ j, j < bs.length % 8 → w.getLsbD (7 - j) = bs.getD (8 * (bs.length / 8) + j) false) ∧
      (groupBytes bs).length = bs.length / 8 ∧
      ∀ j k, j < bs.length / 8 → k < 8 → ((groupBytes bs).getD j 0).getLsbD (7 - k) = bs.getD (8 * j + k) false

/-- What WRITE_BIT, WRITE_FLAG, PAD_ONES and ENC_PAYLOAD_BIT leave unchanged. -/
def Obligations.WriterFrame : Prop :=
  ∀ (s t : State) (i : Instr), (∃ b, i = .writeBit b) ∨ i = .writeFlag ∨ i = .padOnes ∨ (∃ b, i = .encPayloadBit b) →
    exec i s = .next t →
    (∀ a, memRead t.mem a = memRead s.mem a) ∧ t.rx = s.rx ∧ t.hostReads = s.hostReads ∧ t.agenda = s.agenda ∧
    ((∃ e e', s.unit = .encoding e ∧ t.unit = .encoding e' ∧ t.status = s.status ∧ t.curCmd = s.curCmd ∧
        e'.eLen = e.eLen ∧ e'.eIdx = e.eIdx ∧ e'.eBit = e.eBit ∧ e'.eByte = e.eByte ∧ e'.ePhase = e.ePhase ∧
        ((∃ b, i = .encPayloadBit b) ∨ e'.eOnes = e.eOnes)) ∨
      (t.unit = .idle ∧ t.status = { busy := false, done := true, kind := .ioError, count := 0 } ∧ t.curCmd = none))

/-! ### The Frame Encoder -/

/-- R133: ENC_PAYLOAD_BIT b. The bits written are b, and after the fifth consecutive 1 a stuffed 0; the byte that becomes
full on the way, if one does, is the one ChanWrite. -/
def Obligations.EncPayloadBitEffect : Prop :=
  (∀ b : Bit, encode (.encPayloadBit b) = .u8 (0x40 ||| BitVec.zeroExtend 8 (BitVec.ofBool b))) ∧
  ∀ (s : State) (e : EncCall) (b : Bit), s.unit = .encoding e → e.eOnes.toNat ≤ 4 →
    let ones : BitVec 3 := if b then (if e.eOnes = 4 then 0 else e.eOnes + 1) else 0
    let v := setBit e.wByte e.wPos.toNat b
    (¬(b = true ∧ e.eOnes = 4) →
      (e.wPos ≠ 0 → exec (.encPayloadBit b) s =
        .next (s.withEnc { e with wByte := v, wPos := e.wPos - 1, eOnes := ones } s.tx)) ∧
      (e.wPos = 0 → ∀ rest, s.tx.answers = .ok :: rest → exec (.encPayloadBit b) s =
        .next (s.withEnc { e with wByte := 0x00, wPos := 7, eOnes := ones } ⟨rest, s.tx.log ++ [(v, .ok)]⟩))) ∧
    (b = true ∧ e.eOnes = 4 →
      (2 ≤ e.wPos.toNat → exec (.encPayloadBit b) s =
        .next (s.withEnc { e with wByte := setBit v (e.wPos.toNat - 1) false, wPos := e.wPos - 2, eOnes := ones } s.tx)) ∧
      (e.wPos = 1 → ∀ rest, s.tx.answers = .ok :: rest → exec (.encPayloadBit b) s =
        .next (s.withEnc { e with wByte := 0x00, wPos := 7, eOnes := ones }
          ⟨rest, s.tx.log ++ [(setBit v 0 false, .ok)]⟩)) ∧
      (e.wPos = 0 → ∀ rest, s.tx.answers = .ok :: rest → exec (.encPayloadBit b) s =
        .next (s.withEnc { e with wByte := 0x00, wPos := 6, eOnes := ones } ⟨rest, s.tx.log ++ [(v, .ok)]⟩))) ∧
    (∀ rest, s.tx.answers = .err :: rest → (e.wPos = 0 → exec (.encPayloadBit b) s =
        .next ((s.sent [(v, .err)] rest).completed .ioError 0)) ∧
      (b = true → e.eOnes = 4 → e.wPos = 1 → exec (.encPayloadBit b) s =
        .next ((s.sent [(setBit v 0 false, .err)] rest).completed .ioError 0)))

/-- R130, R136, R140: a successful ENCODE N writes exactly wire(P), as bytes, to the transmit stream, and completes with
KIND = OK and COUNT = N; nothing else changes. -/
def Obligations.EncodeSendsWireFormat : Prop :=
  ∀ (s : State) (P : List Byte) (rest : List TxAnswer),
    s.unit = .idle → P.length ≤ 256 → (∀ i, i < P.length → bufByte s.mem .tx i = some (P.getD i 0)) →
    s.tx.answers = List.replicate (wireBytes P).length .ok ++ rest →
    exec (.encode P.length) s =
      .next ((s.sent ((wireBytes P).map fun v => (v, TxAnswer.ok)) rest).completed .ok P.length)

/-- R139: the first ChanWrite answered ERR ends the ENCODE with IOError: the bytes before it stay sent, no request follows
it, the pending bits are lost, and the buffers are as before. -/
def Obligations.EncodeWriteFailure : Prop :=
  ∀ (s : State) (P : List Byte) (k : Nat) (rest : List TxAnswer),
    s.unit = .idle → P.length ≤ 256 → (∀ i, i < P.length → bufByte s.mem .tx i = some (P.getD i 0)) →
    k < (wireBytes P).length → s.tx.answers = List.replicate k .ok ++ .err :: rest →
    exec (.encode P.length) s =
      .next ((s.sent (((wireBytes P).take k).map (fun v => (v, TxAnswer.ok)) ++ [((wireBytes P).getD k 0, .err)])
        rest).completed .ioError 0) ∧
    (s.completed .ioError 0).status.word = 0x0000_0012#32

/-- R53: an ENCODE that comes to a payload byte without a value is the model fault UninitialisedPayload of that byte. -/
def Obligations.EncodeOfUnwrittenByte : Prop :=
  ∀ (s : State) (n i : Nat), s.unit = .idle → n ≤ 256 → i < n →
    (∀ j, j < i → bufByte s.mem .tx j ≠ none) → bufByte s.mem .tx i = none →
    (∃ rest, s.tx.answers = List.replicate 310 .ok ++ rest) →
    exec (.encode n) s = .fault (.uninitialisedPayload i)

/-- R83: the frame's lengths. -/
def Obligations.FrameLengths : Prop :=
  (∀ P : List Byte,
    (stuff P).length = 8 * P.length + stuffedCount P ∧
    (wireBytes P).length = P.length + 2 + (stuffedCount P + 7) / 8 ∧
    (fill P).length = (8 - stuffedCount P % 8) % 8 ∧
    bytesBits (wireBytes P) = wire P ∧
    (P.length ≤ 256 → stuffedCount P ≤ 409 ∧ (wireBytes P).length ≤ 310)) ∧
  wire [] = flagBits ++ flagBits ∧ stuffedCount (List.replicate 256 0xFF) = 409 ∧
  (wireBytes (List.replicate 256 0xFF)).length = 310

/-- R135: a run of 1-bits gets a stuffed 0 after every fifth one, and no other. -/
def Obligations.StuffingOfARun : Prop :=
  ∀ (q k : Nat) (bs : List Bit), k < 5 →
    stuffFrom 0 (List.replicate (5 * q + k) true) =
      (List.replicate q [true, true, true, true, true, false]).flatten ++ List.replicate k true ∧
    stuffFrom 0 (List.replicate (5 * q + k) true ++ false :: bs) =
      (List.replicate q [true, true, true, true, true, false]).flatten ++ List.replicate k true ++
        false :: stuffFrom 0 bs

/-- R137: stuff(P) holds no six consecutive 1-bits. -/
def Obligations.StuffedPayloadHasNoSixOnes : Prop := ∀ P : List Byte, ¬SixOnes (stuff P)

/-- R138: the decoder's window first equals FLAG at the start flag's last bit of wire(P), and, reset there, next at the end
flag's last bit. -/
def Obligations.FlagTransparency : Prop :=
  ∀ P : List Byte,
    firstFlag 0x00 (wire P) = some 8 ∧ firstFlag 0x00 ((wire P).drop 8) = some ((stuff P).length + 8)

/-! ### The Bit Reader -/

/-- R150: READ_BIT. -/
def Obligations.ReadBitEffect : Prop :=
  encode .readBit = .u8 0x50 ∧
  ∀ (s : State) (d : DecCall), s.unit = .decoding d →
    (d.rAvail = 0 → ∀ v rest, s.rx.answers = .byte v :: rest → exec .readBit s =
      .next (s.withDec { d with rByte := some v, rAvail := 7, rResult := some (.bit (v.getLsbD 7)) }
        ⟨rest, s.rx.log ++ [.byte v]⟩)) ∧
    (d.rAvail = 0 → ∀ rest, s.rx.answers = .eos :: rest → exec .readBit s =
      .next (s.withDec { d with rResult := some .eos } ⟨rest, s.rx.log ++ [.eos]⟩)) ∧
    (d.rAvail = 0 → ∀ rest, s.rx.answers = .err :: rest → exec .readBit s =
      .next (s.withDec { d with rResult := some .err } ⟨rest, s.rx.log ++ [.err]⟩)) ∧
    (0 < d.rAvail.toNat → d.rAvail.toNat ≤ 8 → ∀ v, d.rByte = some v → exec .readBit s =
      .next (s.withDec { d with rAvail := d.rAvail - 1, rResult := some (.bit (v.getLsbD (d.rAvail.toNat - 1))) } s.rx))

/-- R50, R151: from an exhausted byte, k READ_BITs return the first k bits of the receive stream, MSB first, and consume
ceil(k / 8) bytes. -/
def Obligations.ReaderSequence : Prop :=
  ∀ (s : State) (d : DecCall) (bytes : List Byte) (rest : List RxAnswer) (k : Nat),
    s.unit = .decoding d → d.rAvail = 0 → s.rx.answers = bytes.map .byte ++ rest → 0 < k → k ≤ 8 * bytes.length →
    ∃ v a,
      execAll (List.replicate k .readBit) s =
        .next (s.withDec { d with rByte := v, rAvail := a, rResult := some (.bit ((bytesBits bytes).getD (k - 1) false)) }
          ⟨(bytes.drop ((k + 7) / 8)).map .byte ++ rest, s.rx.log ++ (bytes.take ((k + 7) / 8)).map .byte⟩)

/-! ### The Frame Decoder -/

/-- R163, R164, R166: SEEK_STEP, after what READ_BIT makes of the call's state. -/
def Obligations.SeekStepEffect : Prop :=
  encode .seekStep = .u8 0x60 ∧
  (∀ (w : Byte) (b : Bit), (shiftIn w b).toNat = (2 * w.toNat + b.toNat) % 256) ∧
  ∀ (s : State) (d d' : DecCall) (p : RxPort), s.unit = .decoding d → readBitOn d s.rx = .done (d', p) →
    (d'.rResult = some .eos → exec .seekStep s = .next (({ s with rx := p } : State).completed .syncError 0)) ∧
    (d'.rResult = some .err → exec .seekStep s = .next (({ s with rx := p } : State).completed .ioError 0)) ∧
    (∀ b, d'.rResult = some (.bit b) →
      (shiftIn d'.dWin b = 0x7E → exec .seekStep s =
        .next (s.withDec { d' with dState := .inFrame, dWin := 0x00, fCnt := 0 } p)) ∧
      (shiftIn d'.dWin b ≠ 0x7E → exec .seekStep s = .next (s.withDec { d' with dWin := shiftIn d'.dWin b } p)))

/-- R167 to R170: CAPTURE_STEP, after what READ_BIT makes of the call's state: the channel's answer, then the capacity,
then the match. -/
def Obligations.CaptureStepEffect : Prop :=
  encode .captureStep = .u8 0x70 ∧
  (∀ (c : Cells) (i j : Nat) (b : Bit), cellRead (cellPut c i b) j = if j = i then some b else cellRead c j) ∧
  ∀ (s : State) (d d' : DecCall) (p : RxPort), s.unit = .decoding d → readBitOn d s.rx = .done (d', p) →
    (d'.rResult = some .eos → exec .captureStep s = .next (({ s with rx := p } : State).completed .unexpectedEOF 0)) ∧
    (d'.rResult = some .err → exec .captureStep s = .next (({ s with rx := p } : State).completed .ioError 0)) ∧
    (∀ b, d'.rResult = some (.bit b) →
      (d'.fCnt.toNat = 2576 → exec .captureStep s = .next (({ s with rx := p } : State).completed .frameTooLong 0)) ∧
      (d'.fCnt.toNat < 2576 → shiftIn d'.dWin b ≠ 0x7E → exec .captureStep s =
        .next (s.withDec { d' with fBuf := cellPut d'.fBuf d'.fCnt.toNat b, fCnt := d'.fCnt + 1,
                                   dWin := shiftIn d'.dWin b } p)) ∧
      (d'.fCnt.toNat + 1 < 8 → shiftIn d'.dWin b = 0x7E → exec .captureStep s =
        .next (({ s with rx := p } : State).completed .frameError 0)) ∧
      (8 ≤ d'.fCnt.toNat + 1 → d'.fCnt.toNat < 2576 → shiftIn d'.dWin b = 0x7E → exec .captureStep s =
        .next (s.withDec { d' with fBuf := cellPut d'.fBuf d'.fCnt.toNat b, fCnt := d'.fCnt + 1 - 8, dWin := 0x7E,
                                   dState := .destuffing,
                                   destuff := some { dBuf := [], dCnt := 0, dIdx := 0, dOnes := 0 } } p)))

/-- R150, R163, R167: where a bit can be read, READ_BIT, SEEK_STEP and CAPTURE_STEP complete: `b` is the bit, `d'` and `p`
what the read makes of the call's state and of the port, both for a byte the channel delivers and for the internal byte. -/
def Obligations.DecoderStepsRunWhereReadable : Prop :=
  ∀ (s : State) (d d' : DecCall) (b : Bit) (p : RxPort) (v : Byte), s.unit = .decoding d →
    ((d.rAvail = 0 ∧ ∃ rest, s.rx.answers = .byte v :: rest ∧ p = ⟨rest, s.rx.log ++ [.byte v]⟩ ∧ b = v.getLsbD 7 ∧
        d' = { d with rByte := some v, rAvail := 7, rResult := some (.bit b) }) ∨
      (0 < d.rAvail.toNat ∧ d.rAvail.toNat ≤ 8 ∧ d.rByte = some v ∧ p = s.rx ∧ b = v.getLsbD (d.rAvail.toNat - 1) ∧
        d' = { d with rAvail := d.rAvail - 1, rResult := some (.bit b) })) →
    readBitOn d s.rx = .done (d', p) ∧
    exec .readBit s = .next (s.withDec d' p) ∧
    (shiftIn d.dWin b = 0x7E → exec .seekStep s =
      .next (s.withDec { d' with dState := .inFrame, dWin := 0x00, fCnt := 0 } p)) ∧
    (shiftIn d.dWin b ≠ 0x7E → exec .seekStep s = .next (s.withDec { d' with dWin := shiftIn d.dWin b } p)) ∧
    (d.fCnt.toNat < 2576 → shiftIn d.dWin b ≠ 0x7E → exec .captureStep s =
      .next (s.withDec { d' with fBuf := cellPut d.fBuf d.fCnt.toNat b, fCnt := d.fCnt + 1,
                                 dWin := shiftIn d.dWin b } p)) ∧
    (7 ≤ d.fCnt.toNat → d.fCnt.toNat < 2576 → shiftIn d.dWin b = 0x7E → exec .captureStep s =
      .next (s.withDec { d' with fBuf := cellPut d.fBuf d.fCnt.toNat b, fCnt := d.fCnt + 1 - 8, dWin := 0x7E,
                                 dState := .destuffing,
                                 destuff := some { dBuf := [], dCnt := 0, dIdx := 0, dOnes := 0 } } p))

/-- R172: DESTUFF_STEP. -/
def Obligations.DestuffStepEffect : Prop :=
  encode .destuffStep = .u8 0x80 ∧
  ∀ (s : State) (d : DecCall) (x : Destuff), s.unit = .decoding d → d.destuff = some x → x.dCnt.toNat < 2576 →
    x.dOnes.toNat ≤ 5 →
    (x.dIdx = d.fCnt → exec .destuffStep s = .next (s.withDec { d with dState := .validating } s.rx)) ∧
    (x.dIdx ≠ d.fCnt → cellRead d.fBuf x.dIdx.toNat = some true →
      (x.dOnes ≠ 5 → exec .destuffStep s =
        .next (s.withDec { d with destuff := some { dBuf := cellPut x.dBuf x.dCnt.toNat true, dCnt := x.dCnt + 1,
                                                    dIdx := x.dIdx + 1, dOnes := x.dOnes + 1 } } s.rx)) ∧
      (x.dOnes = 5 → exec .destuffStep s = .next (s.completed .protocolError 0))) ∧
    (x.dIdx ≠ d.fCnt → cellRead d.fBuf x.dIdx.toNat = some false →
      (x.dOnes = 5 → exec .destuffStep s =
        .next (s.withDec { d with destuff := some { x with dIdx := x.dIdx + 1, dOnes := 0 } } s.rx)) ∧
      (x.dOnes ≠ 5 → exec .destuffStep s =
        .next (s.withDec { d with destuff := some { dBuf := cellPut x.dBuf x.dCnt.toNat false, dCnt := x.dCnt + 1,
                                                    dIdx := x.dIdx + 1, dOnes := 0 } } s.rx)))

/-- R173: the destuffing pass computes destuff of the frame bits, into D_BUF, or ends with ProtocolError. -/
def Obligations.DestuffPass : Prop :=
  ∀ (s : State) (d : DecCall) (f : List Bit),
    s.unit = .decoding d → d.dState = .destuffing → d.destuff = some .entry → f.length ≤ 2576 →
    d.fCnt.toNat = f.length → (∀ i, i < f.length → cellRead d.fBuf i = some (f.getD i false)) →
    (∀ out, destuff f = some out →
      ∃ x, x.dCnt.toNat = out.length ∧ cellPrefix x.dBuf out.length = some out ∧ x.dIdx = d.fCnt ∧
        execAll (List.replicate (f.length + 1) .destuffStep) s =
          .next (s.withDec { d with dState := .validating, destuff := some x } s.rx)) ∧
    (destuff f = none →
      ∃ k, k ≤ f.length ∧ execAll (List.replicate k .destuffStep) s = .next (s.completed .protocolError 0))

/-- R173: destuff undoes stuff, on every bit string. -/
def Obligations.DestuffInvertsStuff : Prop := ∀ bs : List Bit, destuff (stuffFrom 0 bs) = some bs

/-- R180: ProtocolError is raised exactly when the frame bits hold six consecutive 1-bits. -/
def Obligations.ProtocolErrorExactly : Prop := ∀ f : List Bit, destuff f = none ↔ SixOnes f

/-- R165, R181: no match comes before seven bits, and a match at seven comes exactly where the first seven bits are
111 1110. -/
def Obligations.EarlyMatchExactly : Prop :=
  ∀ bits : List Bit,
    (∀ m, firstFlag 0x00 bits = some m → 7 ≤ m) ∧
    ((∃ m, firstFlag 0x00 bits = some m ∧ m < 8) ↔ bits.take 7 = [true, true, true, true, true, true, false])

/-- R175: VALIDATE: alignment first, then size. -/
def Obligations.ValidateEffect : Prop :=
  encode .validate = .u8 0x90 ∧
  ∀ (s : State) (d : DecCall) (x : Destuff), s.unit = .decoding d → d.destuff = some x →
    (x.dCnt.toNat % 8 ≠ 0 → exec .validate s = .next (s.completed .alignmentError 0)) ∧
    (x.dCnt.toNat % 8 = 0 → 256 < x.dCnt.toNat / 8 → exec .validate s = .next (s.completed .oversizeError 0)) ∧
    (x.dCnt.toNat % 8 = 0 → x.dCnt.toNat / 8 ≤ 256 → exec .validate s =
      .next (s.withDec { d with dState := .packing } s.rx))

/-- R176, R177: PACK: the destuffed bits go to RX_BUF, 8 a byte, MSB first; every other byte is as before; the command
completes with KIND = OK and COUNT = D_CNT div 8. -/
def Obligations.PackEffect : Prop :=
  encode .pack = .u8 0xA0 ∧
  ∀ (s : State) (d : DecCall) (x : Destuff) (bits : List Bit), s.unit = .decoding d → d.destuff = some x →
    cellPrefix x.dBuf bits.length = some bits → x.dCnt.toNat = bits.length → bits.length / 8 ≤ 256 →
    ∃ m, exec .pack s = .next (({ s with mem := m } : State).completed .ok (bits.length / 8)) ∧
      PayloadStored s.mem m (groupBytes bits) ∧ (groupBytes bits).length = bits.length / 8 ∧
      (∀ i k, i < bits.length / 8 → k < 8 → ((groupBytes bits).getD i 0).getLsbD (7 - k) = bits.getD (8 * i + k) false) ∧
      (∀ a, a < 0x100 ∨ 0x100 + bits.length / 8 ≤ a → memRead m a = memRead s.mem a)

/-- What READ_BIT, SEEK_STEP, CAPTURE_STEP, DESTUFF_STEP and VALIDATE leave unchanged. -/
def Obligations.DecoderFrame : Prop :=
  ∀ (s t : State) (i : Instr), i ∈ [Instr.readBit, .seekStep, .captureStep, .destuffStep, .validate] →
    exec i s = .next t →
    (∀ a, memRead t.mem a = memRead s.mem a) ∧ t.tx = s.tx ∧ t.hostReads = s.hostReads ∧ t.agenda = s.agenda ∧
    (i ∈ [Instr.destuffStep, .validate] → t.rx = s.rx) ∧
    ((∃ d d', s.unit = .decoding d ∧ t.unit = .decoding d' ∧ t.status = s.status ∧ t.curCmd = s.curCmd ∧
        (i = .readBit → d' = { d with rByte := d'.rByte, rAvail := d'.rAvail, rResult := d'.rResult }) ∧
        (i = .seekStep → d'.fBuf = d.fBuf ∧ d'.destuff = d.destuff) ∧
        (i = .captureStep → ∀ j, j ≠ d.fCnt.toNat → cellRead d'.fBuf j = cellRead d.fBuf j) ∧
        (i = .destuffStep → d' = { d with dState := d'.dState, destuff := d'.destuff }) ∧
        (i = .validate → d' = { d with dState := d'.dState })) ∨
      (t.unit = .idle ∧ i ≠ .readBit ∧ t.status.kind ≠ .ok ∧ t.curCmd = none ∧
        t.status = { busy := false, done := true, kind := t.status.kind, count := 0 }))

/-- R160 to R178: what a DECODE makes of a receive stream that ends in EOS or ERR: the kind, the payload in RX_BUF, the
count, and the bytes consumed, are those of the rules on whole bit strings. -/
def Obligations.DecodeFollowsTheRules : Prop :=
  ∀ (s : State) (bytes : List Byte) (tail : RxAnswer) (rest : List RxAnswer),
    s.unit = .idle → tail = .eos ∨ tail = .err → s.rx.answers = bytes.map .byte ++ tail :: rest →
    let v := decodeVerdict bytes tail
    ∃ m, PayloadStored s.mem m v.payload ∧ (v.kind ≠ .ok → m = s.mem) ∧ v.payload.length ≤ 256 ∧
      exec .decode s =
        .next (({ s with mem := m } : State).received
            (if v.usesTail then bytes.map .byte ++ [tail] else (bytes.take v.consumed).map .byte)
            (if v.usesTail then rest else (bytes.drop v.consumed).map .byte ++ tail :: rest)
          |>.completed v.kind v.payload.length)

/-- R144: a DECODE that receives wire(P) returns P: KIND = OK, COUNT = N, RX_BUF[0..N-1] = P, and exactly the bytes of
wire(P) are consumed. -/
def Obligations.DecodeOfWireFormat : Prop :=
  ∀ (s : State) (P : List Byte) (rest : List RxAnswer),
    s.unit = .idle → P.length ≤ 256 → s.rx.answers = (wireBytes P).map .byte ++ rest →
    ∃ m, PayloadStored s.mem m P ∧
      exec .decode s =
        .next ((({ s with mem := m } : State).received ((wireBytes P).map .byte) rest).completed .ok P.length)

/-- R179: bytes without six consecutive 1-bits before a frame do not hide it. -/
def Obligations.DecodeAfterGarbage : Prop :=
  ∀ (s : State) (G P : List Byte) (rest : List RxAnswer),
    s.unit = .idle → P.length ≤ 256 → ¬SixOnes (bytesBits G) → s.rx.answers = (G ++ wireBytes P).map .byte ++ rest →
    ∃ m, PayloadStored s.mem m P ∧
      exec .decode s =
        .next ((({ s with mem := m } : State).received ((G ++ wireBytes P).map .byte) rest).completed .ok P.length)

/-- Streams of the vectors, from every idle state: the empty frame 7E 7E (R182), the frame 7E 1F 7E that no ENCODE produces
(R174), and the garbage 3F that hides the flag after it (R179, C4). -/
def Obligations.DecodeNamedStreams : Prop :=
  ∀ (s : State) (rest : List RxAnswer), s.unit = .idle →
    (s.rx.answers = .byte 0x7E :: .byte 0x7E :: rest →
      exec .decode s = .next ((s.received [.byte 0x7E, .byte 0x7E] rest).completed .ok 0)) ∧
    (s.rx.answers = .byte 0x7E :: .byte 0x1F :: .byte 0x7E :: rest →
      ∃ m, PayloadStored s.mem m [0x1F] ∧ exec .decode s =
        .next ((({ s with mem := m } : State).received [.byte 0x7E, .byte 0x1F, .byte 0x7E] rest).completed .ok 1)) ∧
    (s.rx.answers = .byte 0x3F :: .byte 0x7E :: rest →
      exec .decode s = .next ((s.received [.byte 0x3F, .byte 0x7E] rest).completed .frameError 0))

/-! ### The whole machine -/

/-- Every step keeps the invariant. (Its clause that E_BIT is 7 where no payload byte is held is the model's choice after the
last payload bit, log entry 22.) -/
def Obligations.StepKeepsInvariant : Prop := ∀ s t : State, s.Inv → step s = .next t → t.Inv

/-- The invariant holds at reset, and at the start of every run whose agenda gives the datapath nothing from outside. -/
def Obligations.InvariantAtReset : Prop :=
  State.reset.Inv ∧
  ∀ tx rx agenda, (∀ w, Turn.micro w ∉ agenda) → (State.start tx rx agenda).Inv

/-- From a state that meets the invariant a step stops only as R244 says: at a buffer byte without a value, or refused. -/
def Obligations.StopsAreTheRulesStops : Prop :=
  ∀ s : State, s.Inv →
    (∀ g, step s = .fault g →
      (∃ i, g = .uninitialisedPayload i ∧ i < 256 ∧ bufByte s.mem .tx i = none) ∨
      (∃ buf i, g = .uninitialisedRead buf i ∧ i < 256 ∧ bufByte s.mem buf i = none)) ∧
    (∀ r, step s = .refused r →
      (r = .commandWhileBusy ∧ s.unit ≠ .idle) ∨ (r = .hostAccessWhileBusy ∧ s.unit ≠ .idle) ∨ r = .illegalHostAccess)

/-- R66, R25: while a command is in progress the host reads STATUS = 0x0000_0001. -/
def Obligations.BusyStatus : Prop :=
  ∀ s : State, s.Inv → s.unit ≠ .idle → s.status.word = 0x0000_0001#32

/-- R52, R54, R66, R134, R234: no instruction but WR8 TX changes a TX_BUF byte; RX_BUF changes only by PACK and by a DECODE
that has completed with KIND = OK. -/
def Obligations.WhoWritesTheBuffers : Prop :=
  ∀ (i : Instr) (s t : State), exec i s = .next t →
    ((∀ j v, i ≠ .wr8Tx j v) → ∀ k, bufByte t.mem .tx k = bufByte s.mem .tx k) ∧
    (i = .pack ∨ i = .decode → ¬(t.unit = .idle ∧ t.status.done = true ∧ t.status.kind = .ok) → t.mem = s.mem) ∧
    (i ≠ .pack → i ≠ .decode → ∀ k, bufByte t.mem .rx k = bufByte s.mem .rx k)

/-- R57, R161: ENCODE and its micro-operations use only the transmit port, DECODE and its micro-operations only the
receive port, and a host access neither. -/
def Obligations.PortsAreKeptApart : Prop :=
  ∀ (i : Instr) (s t : State), exec i s = .next t →
    ((∃ n, i = .encode n) ∨ (∃ b, i = .writeBit b) ∨ i = .writeFlag ∨ i = .padOnes ∨ (∃ b, i = .encPayloadBit b) →
      t.rx = s.rx) ∧
    (i ∈ [Instr.decode, .readBit, .seekStep, .captureStep, .destuffStep, .validate, .pack] → t.tx = s.tx) ∧
    ((∃ j v, i = .wr8Tx j v) ∨ (∃ j, i = .rd8Tx j) ∨ (∃ j, i = .rd8Rx j) ∨ (∃ w, i = .wr16Cmd w) ∨ i = .rd32Status →
      t.rx = s.rx ∧ t.tx = s.tx ∧ t.agenda = s.agenda)

/-- R39: the sequencer changes STATUS only at completion. -/
def Obligations.StatusChangesOnlyAtCompletion : Prop :=
  ∀ s t : State, sequencerStep s = .next t →
    t.status = s.status ∨
    (s.unit ≠ .idle ∧ t.unit = .idle ∧ t.status.done = true ∧ t.status.busy = false ∧
      (t.status.kind ≠ .ok → t.status.count = 0))

/-- R236: a command in progress comes to an end only by its completion or by RESET. -/
def Obligations.OnlyCompletionOrResetEndsACommand : Prop :=
  ∀ s t : State, step s = .next t → s.unit ≠ .idle → t.unit = .idle →
    (∃ rest, s.agenda = .reset :: rest) ∨ (t.status.done = true ∧ t.status.busy = false)

/-- R263: the command as one step and the command in the sequencer's steps come to the same state. -/
def Obligations.CommandAsOneStepOrMany : Prop :=
  ∀ (s : State), s.unit = .idle → s.agenda = [] →
    (∀ n, n < 512 → ∃ s1, exec (.wr16Cmd (BitVec.ofNat 16 (0x1000 + n))) s = .next s1 ∧
      (∀ t, exec (.encode n) s = .next t → ∃ k, Host.Core.run Sys2Proof.core k s1 = .next t) ∧
      (∀ g, exec (.encode n) s = .fault g → ∃ k, Host.Core.run Sys2Proof.core k s1 = .fault g)) ∧
    (∃ s1, exec (.wr16Cmd 0x2000) s = .next s1 ∧
      ∀ t, exec .decode s = .next t → ∃ k, Host.Core.run Sys2Proof.core k s1 = .next t)

/-- R132, R262: every command has completed, or waits for the channel. -/
def Obligations.CommandsCompleteOrWait : Prop :=
  ∀ s t : State,
    (∀ n, exec (.encode n) s = .next t → t.unit = .idle ∨ ∃ b, t.outstanding = some (.write b)) ∧
    (exec .decode s = .next t → t.unit = .idle ∨ (t.outstanding = some .read ∧ t.rx.answers = []))

/-- R210, R262: an accepted ENCODE N whose payload is written and whose requests are all answered OK is done within
9N + 4 sequencer steps. (The number is the model's granularity, log entry 7.) -/
def Obligations.EncodeIsDoneInBoundedSteps : Prop :=
  ∀ (s : State) (P : List Byte) (rest : List TxAnswer),
    s.unit = .idle → s.agenda = [] → P.length ≤ 256 →
    (∀ i, i < P.length → bufByte s.mem .tx i = some (P.getD i 0)) →
    s.tx.answers = List.replicate (wireBytes P).length .ok ++ rest →
    ∃ s1 k, exec (.wr16Cmd (BitVec.ofNat 16 (0x1000 + P.length))) s = .next s1 ∧ k ≤ 9 * P.length + 4 ∧
      Host.Core.run Sys2Proof.core k s1 =
        .next ((s.sent ((wireBytes P).map fun v => (v, TxAnswer.ok)) rest).completed .ok P.length)

/-- R239, R259: where the agents do nothing more and the channel does not answer, the unit waits for ever. (The model's
choices: a micro-operation that waits leaves the unit as it was and is taken up again from its start, log entry 5; the
channel's answers are a list that ends, log entry 4.) -/
def Obligations.UnansweredRequestIsStuck : Prop :=
  ∀ s t : State, s.agenda = [] → s.outstanding = none → step s = .next t → t.outstanding ≠ none →
    t.unit = s.unit ∧ t.status = s.status ∧ ∀ k, Host.Core.run Sys2Proof.core k t = .next t

/-- R58, R59: a micro-operation that comes to a channel request with no answer leaves the request outstanding and changes
nothing else. (That it is taken up again from its start is the model's choice, log entry 5, as is the list of answers, log
entry 4.) -/
def Obligations.ChannelWaits : Prop :=
  (∀ (s : State) (e : EncCall) (b : Bit), s.unit = .encoding e → s.tx.answers = [] →
    (e.wPos = 0 → exec (.writeBit b) s = .next (s.waiting (.write (setBit e.wByte 0 b)))) ∧
    exec .writeFlag s = .next (s.waiting (.write
      ((e.wByte &&& (0xFF#8 <<< (e.wPos.toNat + 1))) ||| (0x7E#8 >>> (7 - e.wPos.toNat))))) ∧
    (e.wPos ≠ 7 → exec .padOnes s = .next (s.waiting (.write
      ((e.wByte &&& (0xFF#8 <<< (e.wPos.toNat + 1))) ||| (0xFF#8 >>> (7 - e.wPos.toNat)))))) ∧
    (e.wPos = 0 → exec (.encPayloadBit b) s = .next (s.waiting (.write (setBit e.wByte 0 b)))) ∧
    (b = true → e.eOnes = 4 → e.wPos = 1 → exec (.encPayloadBit b) s =
      .next (s.waiting (.write (setBit (setBit e.wByte 1 true) 0 false))))) ∧
  (∀ (s : State) (d : DecCall), s.unit = .decoding d → d.rAvail = 0 → s.rx.answers = [] →
    exec .readBit s = .next (s.waiting .read) ∧ exec .seekStep s = .next (s.waiting .read) ∧
    exec .captureStep s = .next (s.waiting .read))
end

