-- ==== Sys2Proof/Laws/State.lean ====
section
/-! SUPPORT. What each named update of the state does to each field. -/

namespace Sys2Proof.Machine

@[simp] theorem State.finish_unit (s : State) (k : Kind) (c : BitVec 9) : (s.finish k c).unit = .idle := rfl
@[simp] theorem State.finish_status (s : State) (k : Kind) (c : BitVec 9) : (s.finish k c).status = { busy := false, done := true, kind := k, count := c } := rfl
@[simp] theorem State.finish_curCmd (s : State) (k : Kind) (c : BitVec 9) : (s.finish k c).curCmd = none := rfl
@[simp] theorem State.finish_mem (s : State) (k : Kind) (c : BitVec 9) : (s.finish k c).mem = s.mem := rfl
@[simp] theorem State.finish_tx (s : State) (k : Kind) (c : BitVec 9) : (s.finish k c).tx = s.tx := rfl
@[simp] theorem State.finish_rx (s : State) (k : Kind) (c : BitVec 9) : (s.finish k c).rx = s.rx := rfl
@[simp] theorem State.finish_outstanding (s : State) (k : Kind) (c : BitVec 9) : (s.finish k c).outstanding = none := rfl
@[simp] theorem State.finish_hostReads (s : State) (k : Kind) (c : BitVec 9) : (s.finish k c).hostReads = s.hostReads := rfl
@[simp] theorem State.finish_agenda (s : State) (k : Kind) (c : BitVec 9) : (s.finish k c).agenda = s.agenda := rfl

@[simp] theorem State.abort_unit (s : State) (k : Kind) : (s.abort k).unit = .idle := rfl
@[simp] theorem State.abort_status (s : State) (k : Kind) : (s.abort k).status = { busy := false, done := true, kind := k, count := 0 } := rfl
@[simp] theorem State.abort_curCmd (s : State) (k : Kind) : (s.abort k).curCmd = none := rfl
@[simp] theorem State.abort_mem (s : State) (k : Kind) : (s.abort k).mem = s.mem := rfl
@[simp] theorem State.abort_tx (s : State) (k : Kind) : (s.abort k).tx = s.tx := rfl
@[simp] theorem State.abort_rx (s : State) (k : Kind) : (s.abort k).rx = s.rx := rfl
@[simp] theorem State.abort_outstanding (s : State) (k : Kind) : (s.abort k).outstanding = none := rfl
@[simp] theorem State.abort_hostReads (s : State) (k : Kind) : (s.abort k).hostReads = s.hostReads := rfl
@[simp] theorem State.abort_agenda (s : State) (k : Kind) : (s.abort k).agenda = s.agenda := rfl

@[simp] theorem State.accept_unit (s : State) (w : CmdWord) : (s.accept w).unit = s.unit := rfl
@[simp] theorem State.accept_status (s : State) (w : CmdWord) : (s.accept w).status = { s.status with done := false, kind := .ok, count := 0 } := rfl
@[simp] theorem State.accept_curCmd (s : State) (w : CmdWord) : (s.accept w).curCmd = some w := rfl
@[simp] theorem State.accept_mem (s : State) (w : CmdWord) : (s.accept w).mem = s.mem := rfl
@[simp] theorem State.accept_tx (s : State) (w : CmdWord) : (s.accept w).tx = s.tx := rfl
@[simp] theorem State.accept_rx (s : State) (w : CmdWord) : (s.accept w).rx = s.rx := rfl
@[simp] theorem State.accept_outstanding (s : State) (w : CmdWord) : (s.accept w).outstanding = s.outstanding := rfl
@[simp] theorem State.accept_hostReads (s : State) (w : CmdWord) : (s.accept w).hostReads = s.hostReads := rfl
@[simp] theorem State.accept_agenda (s : State) (w : CmdWord) : (s.accept w).agenda = s.agenda := rfl

@[simp] theorem State.enter_unit (s : State) (u : UnitState) : (s.enter u).unit = u := rfl
@[simp] theorem State.enter_status (s : State) (u : UnitState) : (s.enter u).status = { s.status with busy := true } := rfl
@[simp] theorem State.enter_curCmd (s : State) (u : UnitState) : (s.enter u).curCmd = s.curCmd := rfl
@[simp] theorem State.enter_mem (s : State) (u : UnitState) : (s.enter u).mem = s.mem := rfl
@[simp] theorem State.enter_tx (s : State) (u : UnitState) : (s.enter u).tx = s.tx := rfl
@[simp] theorem State.enter_rx (s : State) (u : UnitState) : (s.enter u).rx = s.rx := rfl
@[simp] theorem State.enter_outstanding (s : State) (u : UnitState) : (s.enter u).outstanding = s.outstanding := rfl
@[simp] theorem State.enter_hostReads (s : State) (u : UnitState) : (s.enter u).hostReads = s.hostReads := rfl
@[simp] theorem State.enter_agenda (s : State) (u : UnitState) : (s.enter u).agenda = s.agenda := rfl

@[simp] theorem State.hardReset_unit (s : State) : (s.hardReset).unit = .idle := rfl
@[simp] theorem State.hardReset_status (s : State) : (s.hardReset).status = .zero := rfl
@[simp] theorem State.hardReset_curCmd (s : State) : (s.hardReset).curCmd = none := rfl
@[simp] theorem State.hardReset_mem (s : State) : (s.hardReset).mem = [] := rfl
@[simp] theorem State.hardReset_tx (s : State) : (s.hardReset).tx = s.tx := rfl
@[simp] theorem State.hardReset_rx (s : State) : (s.hardReset).rx = s.rx := rfl
@[simp] theorem State.hardReset_outstanding (s : State) : (s.hardReset).outstanding = none := rfl
@[simp] theorem State.hardReset_hostReads (s : State) : (s.hardReset).hostReads = s.hostReads := rfl
@[simp] theorem State.hardReset_agenda (s : State) : (s.hardReset).agenda = s.agenda := rfl

@[simp] theorem State.hostReturn_unit (s : State) (v : BusValue) : (s.hostReturn v).unit = s.unit := rfl
@[simp] theorem State.hostReturn_status (s : State) (v : BusValue) : (s.hostReturn v).status = s.status := rfl
@[simp] theorem State.hostReturn_curCmd (s : State) (v : BusValue) : (s.hostReturn v).curCmd = s.curCmd := rfl
@[simp] theorem State.hostReturn_mem (s : State) (v : BusValue) : (s.hostReturn v).mem = s.mem := rfl
@[simp] theorem State.hostReturn_tx (s : State) (v : BusValue) : (s.hostReturn v).tx = s.tx := rfl
@[simp] theorem State.hostReturn_rx (s : State) (v : BusValue) : (s.hostReturn v).rx = s.rx := rfl
@[simp] theorem State.hostReturn_outstanding (s : State) (v : BusValue) : (s.hostReturn v).outstanding = s.outstanding := rfl
@[simp] theorem State.hostReturn_hostReads (s : State) (v : BusValue) : (s.hostReturn v).hostReads = v :: s.hostReads := rfl
@[simp] theorem State.hostReturn_agenda (s : State) (v : BusValue) : (s.hostReturn v).agenda = s.agenda := rfl

@[simp] theorem State.withEnc_unit (s : State) (e : EncCall) (p : TxPort) : (s.withEnc e p).unit = .encoding e := rfl
@[simp] theorem State.withEnc_status (s : State) (e : EncCall) (p : TxPort) : (s.withEnc e p).status = s.status := rfl
@[simp] theorem State.withEnc_curCmd (s : State) (e : EncCall) (p : TxPort) : (s.withEnc e p).curCmd = s.curCmd := rfl
@[simp] theorem State.withEnc_mem (s : State) (e : EncCall) (p : TxPort) : (s.withEnc e p).mem = s.mem := rfl
@[simp] theorem State.withEnc_tx (s : State) (e : EncCall) (p : TxPort) : (s.withEnc e p).tx = p := rfl
@[simp] theorem State.withEnc_rx (s : State) (e : EncCall) (p : TxPort) : (s.withEnc e p).rx = s.rx := rfl
@[simp] theorem State.withEnc_outstanding (s : State) (e : EncCall) (p : TxPort) : (s.withEnc e p).outstanding = none := rfl
@[simp] theorem State.withEnc_hostReads (s : State) (e : EncCall) (p : TxPort) : (s.withEnc e p).hostReads = s.hostReads := rfl
@[simp] theorem State.withEnc_agenda (s : State) (e : EncCall) (p : TxPort) : (s.withEnc e p).agenda = s.agenda := rfl

@[simp] theorem State.withDec_unit (s : State) (d : DecCall) (p : RxPort) : (s.withDec d p).unit = .decoding d := rfl
@[simp] theorem State.withDec_status (s : State) (d : DecCall) (p : RxPort) : (s.withDec d p).status = s.status := rfl
@[simp] theorem State.withDec_curCmd (s : State) (d : DecCall) (p : RxPort) : (s.withDec d p).curCmd = s.curCmd := rfl
@[simp] theorem State.withDec_mem (s : State) (d : DecCall) (p : RxPort) : (s.withDec d p).mem = s.mem := rfl
@[simp] theorem State.withDec_tx (s : State) (d : DecCall) (p : RxPort) : (s.withDec d p).tx = s.tx := rfl
@[simp] theorem State.withDec_rx (s : State) (d : DecCall) (p : RxPort) : (s.withDec d p).rx = p := rfl
@[simp] theorem State.withDec_outstanding (s : State) (d : DecCall) (p : RxPort) : (s.withDec d p).outstanding = none := rfl
@[simp] theorem State.withDec_hostReads (s : State) (d : DecCall) (p : RxPort) : (s.withDec d p).hostReads = s.hostReads := rfl
@[simp] theorem State.withDec_agenda (s : State) (d : DecCall) (p : RxPort) : (s.withDec d p).agenda = s.agenda := rfl

@[simp] theorem State.waiting_unit (s : State) (r : ChanReq) : (s.waiting r).unit = s.unit := rfl
@[simp] theorem State.waiting_status (s : State) (r : ChanReq) : (s.waiting r).status = s.status := rfl
@[simp] theorem State.waiting_curCmd (s : State) (r : ChanReq) : (s.waiting r).curCmd = s.curCmd := rfl
@[simp] theorem State.waiting_mem (s : State) (r : ChanReq) : (s.waiting r).mem = s.mem := rfl
@[simp] theorem State.waiting_tx (s : State) (r : ChanReq) : (s.waiting r).tx = s.tx := rfl
@[simp] theorem State.waiting_rx (s : State) (r : ChanReq) : (s.waiting r).rx = s.rx := rfl
@[simp] theorem State.waiting_outstanding (s : State) (r : ChanReq) : (s.waiting r).outstanding = some r := rfl
@[simp] theorem State.waiting_hostReads (s : State) (r : ChanReq) : (s.waiting r).hostReads = s.hostReads := rfl
@[simp] theorem State.waiting_agenda (s : State) (r : ChanReq) : (s.waiting r).agenda = s.agenda := rfl

@[simp] theorem State.sent_unit (s : State) (l : List (Byte × TxAnswer)) (rest : List TxAnswer) : (s.sent l rest).unit = s.unit := rfl
@[simp] theorem State.sent_status (s : State) (l : List (Byte × TxAnswer)) (rest : List TxAnswer) : (s.sent l rest).status = s.status := rfl
@[simp] theorem State.sent_curCmd (s : State) (l : List (Byte × TxAnswer)) (rest : List TxAnswer) : (s.sent l rest).curCmd = s.curCmd := rfl
@[simp] theorem State.sent_mem (s : State) (l : List (Byte × TxAnswer)) (rest : List TxAnswer) : (s.sent l rest).mem = s.mem := rfl
@[simp] theorem State.sent_tx (s : State) (l : List (Byte × TxAnswer)) (rest : List TxAnswer) : (s.sent l rest).tx = { answers := rest, log := s.tx.log ++ l } := rfl
@[simp] theorem State.sent_rx (s : State) (l : List (Byte × TxAnswer)) (rest : List TxAnswer) : (s.sent l rest).rx = s.rx := rfl
@[simp] theorem State.sent_outstanding (s : State) (l : List (Byte × TxAnswer)) (rest : List TxAnswer) : (s.sent l rest).outstanding = s.outstanding := rfl
@[simp] theorem State.sent_hostReads (s : State) (l : List (Byte × TxAnswer)) (rest : List TxAnswer) : (s.sent l rest).hostReads = s.hostReads := rfl
@[simp] theorem State.sent_agenda (s : State) (l : List (Byte × TxAnswer)) (rest : List TxAnswer) : (s.sent l rest).agenda = s.agenda := rfl

@[simp] theorem State.received_unit (s : State) (l rest : List RxAnswer) : (s.received l rest).unit = s.unit := rfl
@[simp] theorem State.received_status (s : State) (l rest : List RxAnswer) : (s.received l rest).status = s.status := rfl
@[simp] theorem State.received_curCmd (s : State) (l rest : List RxAnswer) : (s.received l rest).curCmd = s.curCmd := rfl
@[simp] theorem State.received_mem (s : State) (l rest : List RxAnswer) : (s.received l rest).mem = s.mem := rfl
@[simp] theorem State.received_tx (s : State) (l rest : List RxAnswer) : (s.received l rest).tx = s.tx := rfl
@[simp] theorem State.received_rx (s : State) (l rest : List RxAnswer) : (s.received l rest).rx = { answers := rest, log := s.rx.log ++ l } := rfl
@[simp] theorem State.received_outstanding (s : State) (l rest : List RxAnswer) : (s.received l rest).outstanding = s.outstanding := rfl
@[simp] theorem State.received_hostReads (s : State) (l rest : List RxAnswer) : (s.received l rest).hostReads = s.hostReads := rfl
@[simp] theorem State.received_agenda (s : State) (l rest : List RxAnswer) : (s.received l rest).agenda = s.agenda := rfl

@[simp] theorem State.completed_unit (s : State) (k : Kind) (c : Nat) : (s.completed k c).unit = .idle := rfl
@[simp] theorem State.completed_status (s : State) (k : Kind) (c : Nat) : (s.completed k c).status = { busy := false, done := true, kind := k, count := BitVec.ofNat 9 c } := rfl
@[simp] theorem State.completed_curCmd (s : State) (k : Kind) (c : Nat) : (s.completed k c).curCmd = none := rfl
@[simp] theorem State.completed_mem (s : State) (k : Kind) (c : Nat) : (s.completed k c).mem = s.mem := rfl
@[simp] theorem State.completed_tx (s : State) (k : Kind) (c : Nat) : (s.completed k c).tx = s.tx := rfl
@[simp] theorem State.completed_rx (s : State) (k : Kind) (c : Nat) : (s.completed k c).rx = s.rx := rfl
@[simp] theorem State.completed_outstanding (s : State) (k : Kind) (c : Nat) : (s.completed k c).outstanding = none := rfl
@[simp] theorem State.completed_hostReads (s : State) (k : Kind) (c : Nat) : (s.completed k c).hostReads = s.hostReads := rfl
@[simp] theorem State.completed_agenda (s : State) (k : Kind) (c : Nat) : (s.completed k c).agenda = s.agenda := rfl

/-- Completion by `finish` is the statements' `completed`. -/
theorem State.finish_eq_completed (s : State) (k : Kind) (c : Nat) :
    s.finish k (BitVec.ofNat 9 c) = s.completed k c := rfl

/-- An abort is a completion with count 0, whatever the call's state was. -/
theorem State.abort_eq_completed (s : State) (k : Kind) : s.abort k = s.completed k 0 := rfl

@[simp] theorem UnitState.isIdle_idle : UnitState.idle.isIdle = true := rfl
@[simp] theorem UnitState.isIdle_encoding (e : EncCall) : (UnitState.encoding e).isIdle = false := rfl
@[simp] theorem UnitState.isIdle_decoding (d : DecCall) : (UnitState.decoding d).isIdle = false := rfl

theorem UnitState.isIdle_iff (u : UnitState) : u.isIdle = true ↔ u = .idle := by
  cases u <;> simp [UnitState.isIdle]

end Sys2Proof.Machine
end

