-- ==== Sys2Proof/Laws/Memory.lean ====
section
/-! SUPPORT. The laws of the buffers: a read after a write, a write's frame, and that every memory operation keeps the
canonical form. -/

namespace Sys2Proof.Machine

theorem memRead_memWrite_same (m : List Host.Cell) (a : Nat) (v : Byte) : memRead (memWrite m a v) a = some v := by
  induction m with
  | nil => simp [memWrite, memRead]
  | cons c m ih =>
    obtain ⟨b, w⟩ := c
    simp only [memWrite]
    split
    · simp [memRead]
    · split
      · simp [memRead]
      · rename_i _ hne
        simp [memRead, Ne.symm hne, ih]

theorem memRead_memWrite_other (m : List Host.Cell) {a b : Nat} (v : Byte) (h : b ≠ a) :
    memRead (memWrite m a v) b = memRead m b := by
  induction m with
  | nil => simp [memWrite, memRead, Ne.symm h]
  | cons c m ih =>
    obtain ⟨d, w⟩ := c
    simp only [memWrite]
    split
    · simp [memRead, Ne.symm h]
    · split
      · rename_i _ hd
        simp [memRead, ← hd, Ne.symm h]
      · simp [memRead, ih]

theorem mem_memWrite {m : List Host.Cell} {a : Nat} {v : Byte} {c : Host.Cell} (h : c ∈ memWrite m a v) :
    c = (a, v) ∨ c ∈ m := by
  induction m with
  | nil => simpa [memWrite] using h
  | cons d m ih =>
    obtain ⟨b, w⟩ := d
    simp only [memWrite] at h
    split at h
    · simpa using h
    · split at h
      · rcases List.mem_cons.mp h with h | h
        · exact .inl h
        · exact .inr (List.mem_cons_of_mem _ h)
      · rcases List.mem_cons.mp h with h | h
        · exact .inr (h ▸ List.mem_cons_self ..)
        · exact (ih h).imp id (List.mem_cons_of_mem _)

/-- A write keeps the canonical form. -/
theorem memWrite_wf {m : List Host.Cell} {a : Nat} (v : Byte) (h : Memory.wf m)
    (ha : a < Config.rxBase + Config.bufBytes) : Memory.wf (memWrite m a v) := by
  refine ⟨?_, fun c hc => ?_⟩
  · have hp := h.1
    clear h
    induction m with
    | nil => simp [memWrite]
    | cons c m ih =>
      obtain ⟨b, w⟩ := c
      obtain ⟨hb, hm⟩ := List.pairwise_cons.mp hp
      simp only [memWrite]
      split
      · rename_i hlt
        refine List.pairwise_cons.mpr ⟨fun c' hc' => ?_, hp⟩
        rcases List.mem_cons.mp hc' with h' | h'
        · simpa [h'] using hlt
        · exact Nat.lt_trans hlt (hb c' h')
      · split
        · rename_i _ heq
          exact List.pairwise_cons.mpr ⟨fun c' hc' => by simpa [heq] using hb c' hc', hm⟩
        · rename_i hnlt hne
          refine List.pairwise_cons.mpr ⟨fun c' hc' => ?_, ih hm⟩
          rcases mem_memWrite hc' with h' | h'
          · simp only [h']; omega
          · exact hb c' h'
  · rcases mem_memWrite hc with h' | h'
    · simpa [h'] using ha
    · exact h.2 c h'

theorem Buf.base_add_lt (buf : Buf) {i : Nat} (h : i < Config.bufBytes) :
    buf.base + i < Config.rxBase + Config.bufBytes := by
  cases buf <;> simp [Buf.base, Config.txBase, Config.rxBase, Config.bufBytes] at * <;> omega

/-- Everything a buffer write can do: it is to a byte of the buffer, that byte gets the value, every other address reads
as before, and the canonical form is kept. -/
theorem bufWrite_some {m m' : List Host.Cell} {buf : Buf} {i : Nat} {v : Byte} (h : bufWrite m buf i v = some m') :
    i < Config.bufBytes ∧ m' = memWrite m (buf.base + i) v ∧ memRead m' (buf.base + i) = some v ∧
      (∀ a, a ≠ buf.base + i → memRead m' a = memRead m a) ∧ (Memory.wf m → Memory.wf m') := by
  unfold bufWrite at h
  split at h
  · rename_i hi
    obtain rfl := Option.some.inj h
    exact ⟨hi, rfl, memRead_memWrite_same .., fun a ha => memRead_memWrite_other _ _ ha,
      fun hm => memWrite_wf v hm (buf.base_add_lt hi)⟩
  · cases h

theorem bufWrite_of_lt (m : List Host.Cell) (buf : Buf) {i : Nat} (v : Byte) (h : i < Config.bufBytes) :
    bufWrite m buf i v = some (memWrite m (buf.base + i) v) := by simp [bufWrite, h]

/-- A row of buffer writes has its place exactly where its last byte has. -/
theorem bufWriteAll_of_le (m : List Host.Cell) (buf : Buf) (i : Nat) (vs : List Byte)
    (h : i + vs.length ≤ Config.bufBytes) : ∃ m', bufWriteAll m buf i vs = some m' := by
  induction vs generalizing m i with
  | nil => exact ⟨m, rfl⟩
  | cons v vs ih =>
    simp only [List.length_cons] at h
    simp only [bufWriteAll, bufWrite_of_lt m buf v (show i < Config.bufBytes by omega)]
    exact ih _ _ (by omega)

/-- Everything a row of buffer writes can do. -/
theorem bufWriteAll_some {m m' : List Host.Cell} {buf : Buf} {i : Nat} {vs : List Byte}
    (h : bufWriteAll m buf i vs = some m') :
    (∀ j, j < vs.length → memRead m' (buf.base + i + j) = some (vs.getD j 0)) ∧
      (∀ a, a < buf.base + i ∨ buf.base + i + vs.length ≤ a → memRead m' a = memRead m a) ∧
      (Memory.wf m → Memory.wf m') := by
  induction vs generalizing m i with
  | nil =>
    obtain rfl := Option.some.inj h
    exact ⟨fun j hj => by simp at hj, fun _ _ => rfl, id⟩
  | cons v vs ih =>
    simp only [bufWriteAll] at h
    split at h
    · rename_i m1 h1
      obtain ⟨-, -, hv, hf, hw⟩ := bufWrite_some h1
      obtain ⟨hj, hr, hw'⟩ := ih h
      refine ⟨fun j hjl => ?_, fun a ha => ?_, fun hm => hw' (hw hm)⟩
      · cases j with
        | zero =>
          rw [hr _ (by omega)]
          simpa using hv
        | succ j =>
          have := hj j (by simpa using hjl)
          simpa [Nat.add_assoc, Nat.add_comm 1 j] using this
      · simp only [List.length_cons] at ha
        rw [hr a (by omega), hf a (by omega)]
    · cases h

theorem bufByte_of_lt (m : List Host.Cell) (buf : Buf) {i : Nat} (h : i < Config.bufBytes) :
    bufByte m buf i = memRead m (buf.base + i) := by simp [bufByte, h]

/-! ### Cells -/

theorem cellRead_cellPut (c : Cells) (i j : Nat) (b : Bit) :
    cellRead (cellPut c i b) j = if j = i then some b else cellRead c j := by
  induction i generalizing c j with
  | zero => cases c <;> cases j <;> simp [cellPut, cellRead]
  | succ i ih => cases c <;> cases j <;> simp [cellPut, cellRead, ih]

/-- The first `n` cells are read as a bit string exactly where each has its value. -/
theorem cellPrefix_some_iff (c : Cells) (bits : List Bit) :
    cellPrefix c bits.length = some bits ↔ ∀ i, i < bits.length → cellRead c i = some (bits.getD i false) := by
  induction bits generalizing c with
  | nil => cases c <;> simp [cellPrefix]
  | cons b bits ih =>
    cases c with
    | nil =>
      simp only [List.length_cons, cellPrefix, reduceCtorEq, false_iff]
      intro h
      have := h 0 (by simp)
      simp [cellRead] at this
    | cons x c =>
      constructor
      · intro h i hi
        cases x with
        | none => simp [cellPrefix] at h
        | some y =>
          simp only [List.length_cons, cellPrefix, Option.map_eq_some_iff] at h
          obtain ⟨r, hr, he⟩ := h
          obtain ⟨rfl, rfl⟩ := List.cons.inj he
          cases i with
          | zero => simp [cellRead]
          | succ i =>
            have := (ih c).mp hr i (by simpa using hi)
            simpa [cellRead] using this
      · intro h
        have h0 := h 0 (by simp)
        simp only [cellRead, List.getD_cons_zero] at h0
        subst h0
        have := (ih c).mpr fun i hi => by
          have := h (i + 1) (by simpa using hi)
          simpa [cellRead] using this
        simp [cellPrefix, this]

/-- Where each of the first `n` cells has a value there is a prefix of that length. -/
theorem cellPrefix_of_cells (c : Cells) (n : Nat) (h : ∀ i, i < n → cellRead c i ≠ none) :
    ∃ bits, cellPrefix c n = some bits ∧ bits.length = n := by
  induction n generalizing c with
  | zero => exact ⟨[], by cases c <;> rfl, rfl⟩
  | succ n ih =>
    cases c with
    | nil => exact absurd rfl (h 0 (by omega))
    | cons x c =>
      cases x with
      | none => exact absurd rfl (h 0 (by omega))
      | some b =>
        obtain ⟨bits, hb, hl⟩ := ih c fun i hi => h (i + 1) (by omega)
        exact ⟨b :: bits, by simp [cellPrefix, hb], by simp [hl]⟩

end Sys2Proof.Machine
end

