-- ==== Sys2Proof/Laws/Writer.lean ====
section
/-! SUPPORT. What the Bit Writer's and the Frame Encoder's operations can do, each said once. -/

namespace Sys2Proof.Machine

/-! ### Ports and flows -/

theorem chanWrite_nil {p : TxPort} (b : Byte) (h : p.answers = []) : chanWrite b p = none := by simp [chanWrite, h]

theorem chanWrite_cons {p : TxPort} (b : Byte) {a : TxAnswer} {rest : List TxAnswer} (h : p.answers = a :: rest) :
    chanWrite b p = some (a, ⟨rest, p.log ++ [(b, a)]⟩) := by simp [chanWrite, h]

theorem chanRead_nil {p : RxPort} (h : p.answers = []) : chanRead p = none := by simp [chanRead, h]

theorem chanRead_cons {p : RxPort} {a : RxAnswer} {rest : List RxAnswer} (h : p.answers = a :: rest) :
    chanRead p = some (a, ⟨rest, p.log ++ [a]⟩) := by simp [chanRead, h]

section
variable {α : Type} (f : α → Flow α)

@[simp] theorem Flow.andThen_done (x : α) : (Flow.done x).andThen f = f x := rfl
@[simp] theorem Flow.andThen_wait (r : ChanReq) : (Flow.wait r : Flow α).andThen f = .wait r := rfl
@[simp] theorem Flow.andThen_abort (k : Kind) (x : α) : (Flow.abort k x).andThen f = .abort k x := rfl
@[simp] theorem Flow.andThen_fault (g : Fault) : (Flow.fault g : Flow α).andThen f = .fault g := rfl
end

/-! ### Running a micro-operation on the state -/

theorem State.onEncoder_done {s : State} {f : EncCall → TxPort → Flow (EncCall × TxPort)} {e e' : EncCall} {p : TxPort}
    (hu : s.unit = .encoding e) (hf : f e s.tx = .done (e', p)) : s.onEncoder f = .next (s.withEnc e' p) := by
  simp [State.onEncoder, hu, hf, State.withEnc]

theorem State.onEncoder_wait {s : State} {f : EncCall → TxPort → Flow (EncCall × TxPort)} {e : EncCall} {r : ChanReq}
    (hu : s.unit = .encoding e) (hf : f e s.tx = .wait r) : s.onEncoder f = .next (s.waiting r) := by
  simp [State.onEncoder, hu, hf, State.waiting]

theorem State.onEncoder_abort {s : State} {f : EncCall → TxPort → Flow (EncCall × TxPort)} {e e' : EncCall} {p : TxPort}
    {k : Kind} (hu : s.unit = .encoding e) (hf : f e s.tx = .abort k (e', p)) :
    s.onEncoder f = .next (({ s with tx := p } : State).completed k 0) := by
  simp [State.onEncoder, hu, hf, State.abort, State.finish, State.completed]

/-- Everything a micro-operation of the writer or encoder can do to the state. -/
theorem State.onEncoder_next {s t : State} {f : EncCall → TxPort → Flow (EncCall × TxPort)}
    (h : s.onEncoder f = .next t) :
    ∃ e, s.unit = .encoding e ∧
      ((∃ e' p, f e s.tx = .done (e', p) ∧ t = s.withEnc e' p) ∨
       (∃ r, f e s.tx = .wait r ∧ t = s.waiting r) ∨
       (∃ k e' p, f e s.tx = .abort k (e', p) ∧ t = ({ s with tx := p } : State).completed k 0)) := by
  cases hu : s.unit with
  | idle => simp [State.onEncoder, hu] at h
  | decoding d => simp [State.onEncoder, hu] at h
  | encoding e =>
    refine ⟨e, rfl, ?_⟩
    cases hf : f e s.tx with
    | done x =>
      obtain ⟨e', p⟩ := x
      rw [State.onEncoder_done hu hf] at h
      exact .inl ⟨e', p, rfl, (Host.Outcome.next.inj h).symm⟩
    | wait r =>
      rw [State.onEncoder_wait hu hf] at h
      exact .inr (.inl ⟨r, rfl, (Host.Outcome.next.inj h).symm⟩)
    | abort k x =>
      obtain ⟨e', p⟩ := x
      rw [State.onEncoder_abort hu hf] at h
      exact .inr (.inr ⟨k, e', p, rfl, (Host.Outcome.next.inj h).symm⟩)
    | fault g => simp [State.onEncoder, hu, hf] at h

/-- A micro-operation of the writer or encoder stops where there is no ENCODE in progress, or where it stops itself. -/
theorem State.onEncoder_fault {s : State} {f : EncCall → TxPort → Flow (EncCall × TxPort)} {g : Fault}
    (h : s.onEncoder f = .fault g) : (∀ e, s.unit ≠ .encoding e) ∨ ∃ e, s.unit = .encoding e ∧ f e s.tx = .fault g := by
  cases hu : s.unit with
  | idle => exact .inl fun e => by simp
  | decoding d => exact .inl fun e => by simp
  | encoding e =>
    refine .inr ⟨e, rfl, ?_⟩
    cases hf : f e s.tx <;> simp [State.onEncoder, hu, hf] at h
    rw [h]

theorem State.onEncoder_ne_refused {s : State} {f : EncCall → TxPort → Flow (EncCall × TxPort)} {r : Refusal} :
    s.onEncoder f ≠ .refused r := by
  cases hu : s.unit with
  | idle => simp [State.onEncoder, hu]
  | decoding d => simp [State.onEncoder, hu]
  | encoding e => cases hf : f e s.tx <;> simp [State.onEncoder, hu, hf]

/-! ### WRITE_BIT -/

/-- `setBit` sets the bit it names and no other. -/
theorem getLsbD_setBit (v : Byte) {i j : Nat} (b : Bit) (hi : i < 8) (hj : j < 8) :
    (setBit v i b).getLsbD j = if j = i then b else v.getLsbD j := by
  have h1 : ((1#8 <<< i).getLsbD j) = decide (j = i) := by
    rw [BitVec.getLsbD_shiftLeft, BitVec.getLsbD_one]
    by_cases h : j = i
    · simp [h, hi]
    · simp only [h, decide_false, Bool.and_eq_false_imp, Bool.and_eq_true, decide_eq_true_eq, Bool.not_eq_true',
        decide_eq_false_iff_not, and_imp]
      intro _ _ _
      omega
  unfold setBit
  split
  · rw [BitVec.getLsbD_or, h1]
    by_cases h : j = i <;> simp_all
  · rw [BitVec.getLsbD_and, BitVec.getLsbD_not, h1]
    by_cases h : j = i <;> simp_all

theorem writeBitOn_mid {e : EncCall} (b : Bit) (p : TxPort) (h : e.wPos ≠ 0) :
    writeBitOn b e p = .done ({ e with wByte := setBit e.wByte e.wPos.toNat b, wPos := e.wPos - 1 }, p) := by
  simp only [writeBitOn, if_neg h]

theorem writeBitOn_ok {e : EncCall} (b : Bit) {p : TxPort} {rest : List TxAnswer} (h : e.wPos = 0)
    (hp : p.answers = .ok :: rest) :
    writeBitOn b e p =
      .done ({ e with wByte := 0x00, wPos := 7 }, ⟨rest, p.log ++ [(setBit e.wByte 0 b, .ok)]⟩) := by
  simp [writeBitOn, h, chanWrite_cons _ hp]

theorem writeBitOn_err {e : EncCall} (b : Bit) {p : TxPort} {rest : List TxAnswer} (h : e.wPos = 0)
    (hp : p.answers = .err :: rest) :
    writeBitOn b e p =
      .abort .ioError ({ e with wByte := setBit e.wByte 0 b }, ⟨rest, p.log ++ [(setBit e.wByte 0 b, .err)]⟩) := by
  simp [writeBitOn, h, chanWrite_cons _ hp]

theorem writeBitOn_wait {e : EncCall} (b : Bit) {p : TxPort} (h : e.wPos = 0) (hp : p.answers = []) :
    writeBitOn b e p = .wait (.write (setBit e.wByte 0 b)) := by
  simp [writeBitOn, h, chanWrite_nil _ hp]

/-- What the writer's operations keep of an ENCODE's state: all but W_BYTE and W_POS. -/
def EncCall.SameCall (e e' : EncCall) : Prop := e' = { e with wByte := e'.wByte, wPos := e'.wPos }

theorem EncCall.SameCall.refl (e : EncCall) : e.SameCall e := rfl

theorem EncCall.SameCall.trans {a b c : EncCall} (h : a.SameCall b) (h' : b.SameCall c) : a.SameCall c := by
  unfold EncCall.SameCall at *
  rw [h'] ; rw [h]

/-- The bits not yet written of the pending byte are 0 (R113). -/
def EncCall.Pending (e : EncCall) : Prop := ∀ i, i ≤ e.wPos.toNat → e.wByte.getLsbD i = false

/-- Everything a writer operation can come to, said of the whole operation: it is done with the call's other state kept, it
waits on a write with no answer left, or it aborts with IOError; it never stops. -/
inductive WriterResult (e : EncCall) : Flow (EncCall × TxPort) → Prop where
  | done (e' : EncCall) (p : TxPort) (same : e.SameCall e') (pending : e.Pending → e'.Pending) :
      WriterResult e (.done (e', p))
  | wait (b : Byte) : WriterResult e (.wait (.write b))
  | abort (x : EncCall × TxPort) : WriterResult e (.abort .ioError x)

theorem writeBitOn_result (b : Bit) (e : EncCall) (p : TxPort) : WriterResult e (writeBitOn b e p) := by
  by_cases h : e.wPos = 0
  · cases hp : p.answers with
    | nil =>
      rw [writeBitOn_wait b h hp]
      exact .wait _
    | cons a rest =>
      cases a with
      | ok =>
        rw [writeBitOn_ok b h hp]
        exact .done _ _ rfl fun _ i hi => by simp
      | err =>
        rw [writeBitOn_err b h hp]
        exact .abort _
  · rw [writeBitOn_mid b p h]
    refine .done _ _ rfl fun hpend i hi => ?_
    have hpos : 0 < e.wPos.toNat := by
      rcases Nat.eq_zero_or_pos e.wPos.toNat with h0 | h0
      · exact absurd (BitVec.eq_of_toNat_eq (by simpa using h0)) h
      · exact h0
    have hsub : (e.wPos - 1).toNat = e.wPos.toNat - 1 := by
      have := e.wPos.isLt
      rw [BitVec.toNat_sub]
      simp
      omega
    simp only [hsub] at hi
    have := e.wPos.isLt
    rw [getLsbD_setBit _ _ (by omega) (by omega), if_neg (by omega)]
    exact hpend i (by omega)

/-- A wait is on a write, and only where the channel has no answer left. -/
theorem writeBitOn_waits {b : Bit} {e : EncCall} {p : TxPort} {r : ChanReq} (h : writeBitOn b e p = .wait r) :
    p.answers = [] := by
  cases hp : p.answers with
  | nil => rfl
  | cons a rest =>
    by_cases h0 : e.wPos = 0
    · cases a
      · rw [writeBitOn_ok b h0 hp] at h
        cases h
      · rw [writeBitOn_err b h0 hp] at h
        cases h
    · rw [writeBitOn_mid b p h0] at h
      cases h

/-- Writer operations one after the other. -/
theorem WriterResult.andThen {e : EncCall} {x : Flow (EncCall × TxPort)} {f : EncCall × TxPort → Flow (EncCall × TxPort)}
    (hx : WriterResult e x) (hf : ∀ y, WriterResult y.1 (f y)) : WriterResult e (x.andThen f) := by
  cases hx with
  | done e' p same pending =>
    have h := hf (e', p)
    rw [Flow.andThen_done]
    generalize f (e', p) = z at h
    cases h with
    | done e'' p' same' pending' => exact .done _ _ (same.trans same') fun h => pending' (pending h)
    | wait b => exact .wait _
    | abort x => exact .abort _
  | wait b => exact .wait _
  | abort y => exact .abort _

theorem writeBitsOn_result (bs : List Bit) (e : EncCall) (p : TxPort) : WriterResult e (writeBitsOn bs e p) := by
  induction bs generalizing e p with
  | nil => exact .done _ _ rfl id
  | cons b bs ih => exact (writeBitOn_result b e p).andThen fun y => ih y.1 y.2

theorem writeFlagOn_result (e : EncCall) (p : TxPort) : WriterResult e (writeFlagOn e p) := writeBitsOn_result _ e p

theorem padOnesLoop_result (n : Nat) (e : EncCall) (p : TxPort) : WriterResult e (padOnesLoop n e p) := by
  induction n generalizing e p with
  | zero => exact .done _ _ rfl id
  | succ n ih =>
    unfold padOnesLoop
    split
    · exact .done _ _ rfl id
    · exact (writeBitOn_result true e p).andThen fun y => ih y.1 y.2

theorem padOnesOn_result (e : EncCall) (p : TxPort) : WriterResult e (padOnesOn e p) := padOnesLoop_result 7 e p

theorem toNat_wPos_sub {e : EncCall} (h0 : e.wPos ≠ 0) : (e.wPos - 1).toNat + 1 = e.wPos.toNat := by
  have hlt := e.wPos.isLt
  have hpos : e.wPos.toNat ≠ 0 := fun h => h0 (BitVec.eq_of_toNat_eq (by simpa using h))
  rw [BitVec.toNat_sub]
  simp
  omega

end Sys2Proof.Machine
end

