-- ==== Sys2Proof/Laws/Reader.lean ====
section
/-! SUPPORT. What the Bit Reader's and the Frame Decoder's operations can do, each said once. -/

namespace Sys2Proof.Machine

/-! ### Running a micro-operation on the state -/

theorem State.onDecoder_done {s : State} {f : DecCall → RxPort → Flow (DecCall × RxPort)} {d d' : DecCall} {p : RxPort}
    (hu : s.unit = .decoding d) (hf : f d s.rx = .done (d', p)) : s.onDecoder f = .next (s.withDec d' p) := by
  simp [State.onDecoder, hu, hf, State.withDec]

theorem State.onDecoder_wait {s : State} {f : DecCall → RxPort → Flow (DecCall × RxPort)} {d : DecCall} {r : ChanReq}
    (hu : s.unit = .decoding d) (hf : f d s.rx = .wait r) : s.onDecoder f = .next (s.waiting r) := by
  simp [State.onDecoder, hu, hf, State.waiting]

theorem State.onDecoder_abort {s : State} {f : DecCall → RxPort → Flow (DecCall × RxPort)} {d d' : DecCall} {p : RxPort}
    {k : Kind} (hu : s.unit = .decoding d) (hf : f d s.rx = .abort k (d', p)) :
    s.onDecoder f = .next (({ s with rx := p } : State).completed k 0) := by
  simp [State.onDecoder, hu, hf, State.abort, State.finish, State.completed]

/-- Everything a micro-operation of the reader or decoder can do to the state. -/
theorem State.onDecoder_next {s t : State} {f : DecCall → RxPort → Flow (DecCall × RxPort)}
    (h : s.onDecoder f = .next t) :
    ∃ d, s.unit = .decoding d ∧
      ((∃ d' p, f d s.rx = .done (d', p) ∧ t = s.withDec d' p) ∨
       (∃ r, f d s.rx = .wait r ∧ t = s.waiting r) ∨
       (∃ k d' p, f d s.rx = .abort k (d', p) ∧ t = ({ s with rx := p } : State).completed k 0)) := by
  cases hu : s.unit with
  | idle => simp [State.onDecoder, hu] at h
  | encoding e => simp [State.onDecoder, hu] at h
  | decoding d =>
    refine ⟨d, rfl, ?_⟩
    cases hf : f d s.rx with
    | done x =>
      obtain ⟨d', p⟩ := x
      rw [State.onDecoder_done hu hf] at h
      exact .inl ⟨d', p, rfl, (Host.Outcome.next.inj h).symm⟩
    | wait r =>
      rw [State.onDecoder_wait hu hf] at h
      exact .inr (.inl ⟨r, rfl, (Host.Outcome.next.inj h).symm⟩)
    | abort k x =>
      obtain ⟨d', p⟩ := x
      rw [State.onDecoder_abort hu hf] at h
      exact .inr (.inr ⟨k, d', p, rfl, (Host.Outcome.next.inj h).symm⟩)
    | fault g => simp [State.onDecoder, hu, hf] at h

/-- A micro-operation of the reader or decoder stops where there is no DECODE in progress, or where it stops itself. -/
theorem State.onDecoder_fault {s : State} {f : DecCall → RxPort → Flow (DecCall × RxPort)} {g : Fault}
    (h : s.onDecoder f = .fault g) : (∀ d, s.unit ≠ .decoding d) ∨ ∃ d, s.unit = .decoding d ∧ f d s.rx = .fault g := by
  cases hu : s.unit with
  | idle => exact .inl fun d => by simp
  | encoding e => exact .inl fun d => by simp
  | decoding d =>
    refine .inr ⟨d, rfl, ?_⟩
    cases hf : f d s.rx <;> simp [State.onDecoder, hu, hf] at h
    rw [h]

theorem State.onDecoder_ne_refused {s : State} {f : DecCall → RxPort → Flow (DecCall × RxPort)} {r : Refusal} :
    s.onDecoder f ≠ .refused r := by
  cases hu : s.unit with
  | idle => simp [State.onDecoder, hu]
  | encoding e => simp [State.onDecoder, hu]
  | decoding d => cases hf : f d s.rx <;> simp [State.onDecoder, hu, hf]

/-! ### READ_BIT -/

/-- What the reader's operations keep of a DECODE's state: all but R_BYTE, R_AVAIL and the result latch. -/
def DecCall.SameFrame (d d' : DecCall) : Prop :=
  d' = { d with rByte := d'.rByte, rAvail := d'.rAvail, rResult := d'.rResult }

/-- The reader can go on: R_AVAIL is in its range, and where bits are left there is a byte they are bits of (R34). -/
structure DecCall.Readable (d : DecCall) : Prop where
  avail : d.rAvail.toNat ≤ 8
  byte : d.rAvail ≠ 0 → d.rByte ≠ none

theorem takeBit_eq {d : DecCall} {v : Byte} (p : RxPort) (hv : d.rByte = some v) (ha : d.rAvail.toNat ≤ 8) :
    takeBit d p =
      .done ({ d with rAvail := d.rAvail - 1, rResult := some (.bit (v.getLsbD (d.rAvail.toNat - 1))) }, p) := by
  simp [takeBit, hv, Nat.not_lt.mpr ha]

theorem readBitOn_held {d : DecCall} {v : Byte} (p : RxPort) (h0 : d.rAvail ≠ 0) (hv : d.rByte = some v)
    (ha : d.rAvail.toNat ≤ 8) :
    readBitOn d p =
      .done ({ d with rAvail := d.rAvail - 1, rResult := some (.bit (v.getLsbD (d.rAvail.toNat - 1))) }, p) := by
  simp only [readBitOn, if_neg h0]
  exact takeBit_eq p hv ha

theorem readBitOn_byte {d : DecCall} {p : RxPort} {v : Byte} {rest : List RxAnswer} (h0 : d.rAvail = 0)
    (hp : p.answers = .byte v :: rest) :
    readBitOn d p =
      .done ({ d with rByte := some v, rAvail := 7, rResult := some (.bit (v.getLsbD 7)) },
        ⟨rest, p.log ++ [.byte v]⟩) := by
  simp only [readBitOn, if_pos h0, chanRead_cons hp]
  simp [takeBit]

theorem readBitOn_eos {d : DecCall} {p : RxPort} {rest : List RxAnswer} (h0 : d.rAvail = 0)
    (hp : p.answers = .eos :: rest) :
    readBitOn d p = .done ({ d with rResult := some .eos }, ⟨rest, p.log ++ [.eos]⟩) := by
  simp only [readBitOn, if_pos h0, chanRead_cons hp]

theorem readBitOn_err {d : DecCall} {p : RxPort} {rest : List RxAnswer} (h0 : d.rAvail = 0)
    (hp : p.answers = .err :: rest) :
    readBitOn d p = .done ({ d with rResult := some .err }, ⟨rest, p.log ++ [.err]⟩) := by
  simp only [readBitOn, if_pos h0, chanRead_cons hp]

theorem readBitOn_wait {d : DecCall} {p : RxPort} (h0 : d.rAvail = 0) (hp : p.answers = []) :
    readBitOn d p = .wait .read := by
  simp only [readBitOn, if_pos h0, chanRead_nil hp]

theorem DecCall.toNat_avail_sub {d : DecCall} (h0 : d.rAvail ≠ 0) : (d.rAvail - 1).toNat = d.rAvail.toNat - 1 := by
  have hlt := d.rAvail.isLt
  have hpos : d.rAvail.toNat ≠ 0 := fun h => h0 (BitVec.eq_of_toNat_eq (by simpa using h))
  rw [BitVec.toNat_sub]
  simp
  omega

/-- Everything READ_BIT can come to from a state the reader can go on from: it waits, with no answer left, or it is done,
with a result, and the reader can go on. -/
theorem readBitOn_cases {d : DecCall} (p : RxPort) (hd : d.Readable) :
    (readBitOn d p = .wait .read ∧ p.answers = []) ∨
      ∃ d' p' r, readBitOn d p = .done (d', p') ∧ d.SameFrame d' ∧ d'.Readable ∧ d'.rResult = some r := by
  by_cases h0 : d.rAvail = 0
  · cases hp : p.answers with
    | nil => exact .inl ⟨readBitOn_wait h0 hp, rfl⟩
    | cons a rest =>
      refine .inr ?_
      cases a with
      | byte v => exact ⟨_, _, _, readBitOn_byte h0 hp, rfl, ⟨by simp, fun _ => by simp⟩, rfl⟩
      | eos => exact ⟨_, _, _, readBitOn_eos h0 hp, rfl, ⟨by simp [h0], fun h => absurd h0 h⟩, rfl⟩
      | err => exact ⟨_, _, _, readBitOn_err h0 hp, rfl, ⟨by simp [h0], fun h => absurd h0 h⟩, rfl⟩
  · obtain ⟨v, hv⟩ := Option.ne_none_iff_exists'.mp (hd.byte h0)
    refine .inr ⟨_, _, _, readBitOn_held p h0 hv hd.avail, rfl, ⟨?_, fun _ => ?_⟩, rfl⟩
    · have := hd.avail
      simp only [DecCall.toNat_avail_sub h0]
      omega
    · simp [hv]

end Sys2Proof.Machine
end

