-- ==== Sys2Proof/Laws/Decoder.lean ====
section
/-! SUPPORT. The Frame Decoder's micro-operations keep the values the rules allow: each, from a state of its own D_STATE that
meets them, is done in one that does, or waits on a read with no answer left, or aborts with an error kind; none stops. -/

namespace Sys2Proof.Machine

/-- What a decoder micro-operation comes to from an allowed state. -/
inductive DecoderResult (p : RxPort) : Flow (DecCall × RxPort) → Prop where
  | done (d : DecCall) (p' : RxPort) (ok : d.Ok) : DecoderResult p (.done (d, p'))
  | wait (none : p.answers = []) : DecoderResult p (.wait .read)
  | abort (k : Kind) (x : DecCall × RxPort) (error : k ≠ .ok) : DecoderResult p (.abort k x)

theorem DecCall.Ok.readable {d : DecCall} (h : d.Ok) : d.Readable := ⟨h.avail, h.byte⟩

/-- The allowed values do not depend on what the reader's operations change, but for the reader's own. -/
theorem DecCall.Ok.of_sameFrame {d d' : DecCall} (h : d.Ok) (hs : d.SameFrame d') (hr : d'.Readable) : d'.Ok := by
  unfold DecCall.SameFrame at hs
  rw [hs]
  exact { h with avail := hr.avail, byte := hr.byte }

theorem toNat_add_one_of_lt {x : BitVec 12} {n : Nat} (h : x.toNat < n) (hn : n ≤ 4095) : (x + 1).toNat = x.toNat + 1 := by
  rw [BitVec.toNat_add]
  simp
  omega

theorem capacity_le : Config.frameBitCapacity ≤ 4095 := by decide

theorem seekBit_ok {d : DecCall} (b : Bit) (h : d.Ok) (hs : d.dState = .seekingFlag) : (seekBit b d).Ok := by
  unfold seekBit
  split
  · refine { h with
      live := by simp
      count := by simp
      cells := fun i hi => by simp at hi
      seeking := by simp
      early := fun _ => h.early (.inl hs)
      walk := by simp
      walked := by simp
      valid := by simp }
  · exact { h with }

theorem seekStepOn_result {d : DecCall} (p : RxPort) (h : d.Ok) (hs : d.dState = .seekingFlag) :
    DecoderResult p (seekStepOn d p) := by
  rcases readBitOn_cases p h.readable with ⟨hw, hp⟩ | ⟨d', p', r, hd, hsame, hr, hres⟩
  · simp only [seekStepOn, hw, Flow.andThen_wait]
    exact .wait hp
  · have hok := h.of_sameFrame hsame hr
    have hst : d'.dState = .seekingFlag := by rw [hsame]; exact hs
    simp only [seekStepOn, hd, Flow.andThen_done, hres]
    cases r with
    | bit b => exact .done _ _ (seekBit_ok b hok hst)
    | eos => exact .abort _ _ (by simp)
    | err => exact .abort _ _ (by simp)

/-- Entry to DESTUFFING meets the allowed values (R38). -/
theorem Destuff.entry_ok (n : Nat) : Destuff.entry.Ok n :=
  ⟨by simp [Destuff.entry], by simp [Destuff.entry], fun i hi => by simp [Destuff.entry] at hi⟩

theorem captureBit_result {d : DecCall} (b : Bit) (p : RxPort) (h : d.Ok) (hs : d.dState = .inFrame) :
    DecoderResult p (captureBit b d p) := by
  unfold captureBit
  split
  · exact .abort _ _ (by simp)
  · rename_i hne
    have hlt : d.fCnt.toNat < Config.frameBitCapacity := Nat.lt_of_le_of_ne h.count hne
    have hsucc := toNat_add_one_of_lt hlt capacity_le
    have hcells : ∀ i, i < d.fCnt.toNat + 1 → cellRead (cellPut d.fBuf d.fCnt.toNat b) i ≠ none := fun i hi => by
      rw [cellRead_cellPut]
      split
      · simp
      · exact h.cells i (by omega)
    simp only [cellWrite, if_pos hlt, endFlagTest]
    split
    · split
      · exact .abort _ _ (by simp)
      · rename_i h8
        have h8' : 8 ≤ d.fCnt.toNat + 1 := by simpa only [hsucc, Nat.not_lt] using h8
        have hsub : (d.fCnt + 1 - 8).toNat = d.fCnt.toNat + 1 - 8 := by
          have := d.fCnt.isLt
          rw [BitVec.toNat_sub, hsucc]
          simp
          omega
        refine .done _ _ { h with
          live := by simp
          count := by simp only [hsub]; omega
          cells := fun i hi => hcells i (by simp only [hsub] at hi; omega)
          seeking := by simp
          early := by simp
          walk := fun _ => ⟨_, rfl, Destuff.entry_ok _⟩
          walked := by simp
          valid := by simp }
    · refine .done _ _ { h with
        count := by simp only [hsucc]; omega
        cells := fun i hi => hcells i (by simpa only [hsucc] using hi)
        seeking := by simp [hs]
        walk := by simp [hs]
        walked := by simp [hs] }

theorem captureStepOn_result {d : DecCall} (p : RxPort) (h : d.Ok) (hs : d.dState = .inFrame) :
    DecoderResult p (captureStepOn d p) := by
  rcases readBitOn_cases p h.readable with ⟨hw, hp⟩ | ⟨d', p', r, hd, hsame, hr, hres⟩
  · simp only [captureStepOn, hw, Flow.andThen_wait]
    exact .wait hp
  · have hok := h.of_sameFrame hsame hr
    have hst : d'.dState = .inFrame := by rw [hsame]; exact hs
    simp only [captureStepOn, hd, Flow.andThen_done, hres]
    cases r with
    | bit b =>
      have hc := captureBit_result b p' hok hst
      simp only
      generalize hz : captureBit b d' p' = z at hc
      cases hc with
      | done e q ok => exact .done _ _ ok
      | wait none =>
        exfalso
        revert hz
        unfold captureBit endFlagTest
        repeat' split
        all_goals simp
      | abort k x error => exact .abort _ _ error
    | eos => exact .abort _ _ (by simp)
    | err => exact .abort _ _ (by simp)

/-- What the walk of one frame bit comes to, `n` bits having been walked before it. -/
theorem destuffBit_result {x : Destuff} (b : Bit) {n : Nat} (hn : n ≤ Config.frameBitCapacity)
    (order : x.dCnt.toNat < x.dIdx.toNat ∧ x.dIdx.toNat ≤ n) (ones : x.dOnes.toNat ≤ 5)
    (cells : ∀ i, i < x.dCnt.toNat → cellRead x.dBuf i ≠ none) :
    (∃ y, destuffBit b x = .done y ∧ y.Ok n) ∨ ∃ y, destuffBit b x = .abort .protocolError y := by
  have hlt : x.dCnt.toNat < Config.frameBitCapacity := by omega
  have hsucc := toNat_add_one_of_lt hlt capacity_le
  have happ : ∀ c, x.append c = some { x with dBuf := cellPut x.dBuf x.dCnt.toNat c, dCnt := x.dCnt + 1 } := fun c => by
    simp [Destuff.append, cellWrite, hlt]
  have hput : ∀ c i, i < (x.dCnt + 1).toNat → cellRead (cellPut x.dBuf x.dCnt.toNat c) i ≠ none := fun c i hi => by
    rw [cellRead_cellPut]
    split
    · simp
    · exact cells i (by rw [hsucc] at hi; omega)
  unfold destuffBit
  cases b with
  | true =>
    simp only [happ, if_true]
    by_cases h5 : 5 < x.dOnes.toNat + 1
    · exact .inr ⟨_, by rw [if_pos h5]⟩
    · have hones : (x.dOnes + 1).toNat = x.dOnes.toNat + 1 := by
        rw [BitVec.toNat_add]
        simp
        omega
      refine .inl ⟨⟨cellPut x.dBuf x.dCnt.toNat true, x.dCnt + 1, x.dIdx, x.dOnes + 1⟩, by rw [if_neg h5], ⟨⟨?_, order.2⟩, ?_, hput true⟩⟩
      · show (x.dCnt + 1).toNat ≤ x.dIdx.toNat
        omega
      · show (x.dOnes + 1).toNat ≤ 5
        omega
  | false =>
    refine .inl ?_
    simp only [happ, Bool.false_eq_true, if_false]
    split
    · exact ⟨⟨x.dBuf, x.dCnt, x.dIdx, 0⟩, rfl, ⟨⟨Nat.le_of_lt order.1, order.2⟩, by simp, cells⟩⟩
    · refine ⟨⟨cellPut x.dBuf x.dCnt.toNat false, x.dCnt + 1, x.dIdx, 0⟩, rfl, ⟨⟨?_, order.2⟩, by simp, hput false⟩⟩
      show (x.dCnt + 1).toNat ≤ x.dIdx.toNat
      omega

theorem destuffStepOn_result {d : DecCall} (p : RxPort) (h : d.Ok) (hs : d.dState = .destuffing) :
    DecoderResult p (destuffStepOn d p) := by
  obtain ⟨x, hx, hok⟩ := h.walk (.inl hs)
  simp only [destuffStepOn, hx]
  split
  · rename_i heq
    exact .done _ _ { h with
      live := by simp
      seeking := by simp
      early := by simp
      walk := fun _ => ⟨x, rfl, hok⟩
      walked := fun _ y hy => by obtain rfl := Option.some.inj hy; exact heq
      valid := by simp }
  · rename_i hne
    have hlt : x.dIdx.toNat < d.fCnt.toNat :=
      Nat.lt_of_le_of_ne hok.order.2 fun he => hne (BitVec.eq_of_toNat_eq he)
    obtain ⟨b, hb⟩ := Option.ne_none_iff_exists'.mp (h.cells _ hlt)
    have hsucc := toNat_add_one_of_lt (Nat.lt_of_lt_of_le hlt h.count) capacity_le
    have hle := hok.order.1
    simp only [hb]
    rcases destuffBit_result (x := { x with dIdx := x.dIdx + 1 }) b h.count ⟨by simp only [hsucc]; omega, by
      simp only [hsucc]; omega⟩ hok.ones hok.cells with ⟨y, hy, hyok⟩ | ⟨y, hy⟩
    · simp only [hy]
      exact .done _ _ { h with
        early := by simp [hs]
        walk := fun _ => ⟨y, rfl, hyok⟩
        walked := by simp [hs]
        valid := by simp [hs] }
    · simp only [hy]
      exact .abort _ _ (by simp)

theorem validateOn_result {d : DecCall} (p : RxPort) (h : d.Ok) (hs : d.dState = .validating) :
    DecoderResult p (validateOn d p) := by
  obtain ⟨x, hx, hok⟩ := h.walk (.inr (.inl hs))
  simp only [validateOn, hx]
  split
  · exact .abort _ _ (by simp)
  · rename_i h8
    split
    · exact .abort _ _ (by simp)
    · rename_i h256
      have hw := h.walked (.inl hs)
      exact .done _ _ { h with
        live := by simp
        seeking := by simp
        early := by simp
        walk := fun _ => ⟨x, rfl, hok⟩
        walked := fun _ y hy => by obtain rfl := Option.some.inj hy; exact hw _ hx
        valid := fun _ y hy => by obtain rfl := Option.some.inj hy; exact ⟨by omega, by omega⟩ }

end Sys2Proof.Machine
end

