-- ==== Sys2Proof/Laws/Encoder.lean ====
section
/-! SUPPORT. The Frame Encoder's micro-operations on its own state: ENC_PAYLOAD_BIT's result, and that each micro-operation
makes at most one write, so that one which waits has found no answer. -/

namespace Sys2Proof.Machine

/-- What ENC_PAYLOAD_BIT keeps of an ENCODE's state: all but W_BYTE, W_POS and E_ONES. -/
def EncCall.SamePayload (e e' : EncCall) : Prop :=
  e' = { e with wByte := e'.wByte, wPos := e'.wPos, eOnes := e'.eOnes }

/-- Everything a micro-operation of the writer or encoder can come to. -/
inductive EncoderResult (e : EncCall) : Flow (EncCall × TxPort) → Prop where
  | done (e' : EncCall) (p : TxPort) (same : e.SamePayload e') (pending : e.Pending → e'.Pending)
      (ones : e.eOnes.toNat ≤ 4 → e'.eOnes.toNat ≤ 4) : EncoderResult e (.done (e', p))
  | wait (b : Byte) : EncoderResult e (.wait (.write b))
  | abort (x : EncCall × TxPort) : EncoderResult e (.abort .ioError x)

theorem EncCall.SameCall.samePayload {e e' : EncCall} (h : e.SameCall e') : e.SamePayload e' := by
  unfold EncCall.SameCall at h
  unfold EncCall.SamePayload
  rw [h]

theorem EncCall.SameCall.eOnes {e e' : EncCall} (h : e.SameCall e') : e'.eOnes = e.eOnes := by
  rw [h]

theorem WriterResult.encoderResult {e : EncCall} {x : Flow (EncCall × TxPort)} (h : WriterResult e x) :
    EncoderResult e x := by
  cases h with
  | done e' p same pending => exact .done e' p same.samePayload pending fun h => by rw [same.eOnes]; exact h
  | wait b => exact .wait b
  | abort x => exact .abort x

theorem encPayloadBitOn_result (b : Bit) (e : EncCall) (p : TxPort) : EncoderResult e (encPayloadBitOn b e p) := by
  have hw := writeBitOn_result b e p
  unfold encPayloadBitOn
  generalize writeBitOn b e p = z at hw
  cases hw with
  | wait b' => exact .wait b'
  | abort x => exact .abort x
  | done e' p' same pending =>
    rw [Flow.andThen_done]
    cases b with
    | false =>
      refine .done _ _ ?_ pending fun _ => by simp
      rw [same]
      rfl
    | true =>
      simp only [if_true]
      split
      · have hw' := writeBitOn_result false e' p'
        generalize writeBitOn false e' p' = y at hw'
        cases hw' with
        | wait b' => exact .wait b'
        | abort x => exact .abort x
        | done e'' p'' same' pending' =>
          refine .done _ _ ?_ (fun h => pending' (pending h)) fun _ => by simp
          simp only
          rw [same.trans same']
          rfl
      · rename_i h5
        refine .done _ _ ?_ pending fun h4 => ?_
        · rw [same]
          rfl
        · have ho := same.eOnes
          have h5' : e.eOnes ≠ 4 := fun h => h5 (by rw [ho, h]; rfl)
          have : e.eOnes.toNat ≠ 4 := fun h => h5' (BitVec.eq_of_toNat_eq (by simpa using h))
          show (e'.eOnes + 1).toNat ≤ 4
          rw [BitVec.toNat_add, ho]
          simp
          omega

/-! ### One write a micro-operation -/

/-- No byte becomes full while the bits fit the pending byte. -/
theorem writeBitsOn_fits (bs : List Bit) (e : EncCall) (p : TxPort) (h : bs.length ≤ e.wPos.toNat) :
    ∃ e', writeBitsOn bs e p = .done (e', p) := by
  induction bs generalizing e with
  | nil => exact ⟨e, rfl⟩
  | cons b bs ih =>
    simp only [List.length_cons] at h
    have h0 : e.wPos ≠ 0 := fun hz => by rw [hz] at h; simp at h
    simp only [writeBitsOn, writeBitOn_mid b p h0, Flow.andThen_done]
    refine ih _ ?_
    have := toNat_wPos_sub h0
    simp only at this ⊢
    omega

/-- At most one byte becomes full in a row of `W_POS + 8` bits: where the channel has an answer, the row does not wait. -/
theorem writeBitsOn_answered (bs : List Bit) (e : EncCall) (p : TxPort) (h : bs.length ≤ e.wPos.toNat + 8)
    (hp : p.answers ≠ []) (r : ChanReq) : writeBitsOn bs e p ≠ .wait r := by
  induction bs generalizing e with
  | nil => simp [writeBitsOn]
  | cons b bs ih =>
    simp only [List.length_cons] at h
    by_cases h0 : e.wPos = 0
    · obtain ⟨a, rest, ha⟩ := List.exists_cons_of_ne_nil hp
      cases a with
      | err => simp [writeBitsOn, writeBitOn_err b h0 ha]
      | ok =>
        simp only [writeBitsOn, writeBitOn_ok b h0 ha, Flow.andThen_done]
        obtain ⟨e', he'⟩ := writeBitsOn_fits bs { e with wByte := 0x00, wPos := 7 } ⟨rest, p.log ++ [(setBit e.wByte 0 b, .ok)]⟩
          (by rw [h0] at h; exact Nat.le_of_lt_succ (by simpa using h))
        rw [he']
        simp
    · simp only [writeBitsOn, writeBitOn_mid b p h0, Flow.andThen_done]
      refine ih _ ?_
      have := toNat_wPos_sub h0
      simp only at this ⊢
      omega

theorem writeFlagOn_waits {e : EncCall} {p : TxPort} {r : ChanReq} (h : writeFlagOn e p = .wait r) : p.answers = [] := by
  by_contra hp
  exact writeBitsOn_answered _ e p (by simp [byteBits]) hp r h

theorem padOnesLoop_waits (n : Nat) {e : EncCall} {p : TxPort} {r : ChanReq} (h : padOnesLoop n e p = .wait r) :
    p.answers = [] := by
  induction n generalizing e with
  | zero => simp [padOnesLoop] at h
  | succ n ih =>
    unfold padOnesLoop at h
    split at h
    · cases h
    · by_cases h0 : e.wPos = 0
      · by_contra hp
        obtain ⟨a, rest, ha⟩ := List.exists_cons_of_ne_nil hp
        cases a with
        | err => simp [writeBitOn_err true h0 ha] at h
        | ok =>
          rw [writeBitOn_ok true h0 ha, Flow.andThen_done] at h
          cases n <;> simp [padOnesLoop] at h
      · rw [writeBitOn_mid true p h0, Flow.andThen_done] at h
        exact ih h

theorem padOnesOn_waits {e : EncCall} {p : TxPort} {r : ChanReq} (h : padOnesOn e p = .wait r) : p.answers = [] :=
  padOnesLoop_waits 7 h

theorem encPayloadBitOn_waits {b : Bit} {e : EncCall} {p : TxPort} {r : ChanReq} (h : encPayloadBitOn b e p = .wait r) :
    p.answers = [] := by
  by_contra hp
  have hw : ∀ bs : List Bit, bs.length ≤ 2 → writeBitsOn bs e p ≠ .wait r := fun bs hbs =>
    writeBitsOn_answered bs e p (by omega) hp r
  have h1 := hw [b] (by simp)
  have h2 := hw [b, false] (by simp)
  unfold encPayloadBitOn at h
  simp only [writeBitsOn] at h1 h2
  generalize writeBitOn b e p = z at h h1 h2
  cases z with
  | done x =>
    rw [Flow.andThen_done] at h h2
    generalize writeBitOn false x.1 x.2 = y at h h2
    cases b <;> simp only [Bool.false_eq_true, if_false, if_true] at h
    · cases h
    · split at h
      · cases y <;> simp_all
      · cases h
  | wait r' => simp_all
  | abort k x => simp at h
  | fault g => simp at h

end Sys2Proof.Machine
end

