-- ==== Sys2Proof/Laws/Sequencer.lean ====
section
/-! SUPPORT. The sequencer: its micro-operations are the instructions' meanings, and each of its steps keeps the values the
rules allow and stops only at a payload byte without a value. -/

namespace Sys2Proof.Machine

/-- The rows of the U8 format. -/
def MicroInstr : Instr → Prop
  | .writeBit _ => True
  | .writeFlag => True
  | .padOnes => True
  | .encPayloadBit _ => True
  | .readBit => True
  | .seekStep => True
  | .captureStep => True
  | .destuffStep => True
  | .validate => True
  | .pack => True
  | .encode _ => False
  | .decode => False
  | .wr8Tx _ _ => False
  | .rd8Tx _ => False
  | .rd8Rx _ => False
  | .wr16Cmd _ => False
  | .rd32Status => False

/-- A U8 word names a row of the U8 format. -/
theorem decodeU8_micro {w : UopWord} {i : Instr} (h : decodeU8 w = .ok i) : MicroInstr i := by
  have hite : ∀ {c : Prop} [Decidable c] {x y : Except Reject Instr}, (∀ j, x = .ok j → MicroInstr j) →
      (∀ j, y = .ok j → MicroInstr j) → ∀ j, (if c then x else y) = .ok j → MicroInstr j := by
    intro c _ x y hx hy j hj
    by_cases hc : c
    · exact hx j (by rwa [if_pos hc] at hj)
    · exact hy j (by rwa [if_neg hc] at hj)
  have herr : ∀ j, (Except.error Reject.unknownMicroOp : Except Reject Instr) = .ok j → MicroInstr j :=
    fun j hj => nomatch hj
  have hok : ∀ {k : Instr}, MicroInstr k → ∀ j, (Except.ok k : Except Reject Instr) = .ok j → MicroInstr j :=
    fun hk j hj => Except.ok.inj hj ▸ hk
  refine hite herr (hite (hok ?_) (hite (hok ?_) (hite herr (hite (hok ?_) (hite (hok ?_)
    (hite (hok ?_) (hite (hok ?_) (hite (hok ?_) (hite (hok ?_) (hite (hok ?_)
    (hite (hok ?_) herr))))))))))) i h <;> trivial

/-- The sequencer runs a micro-operation by the meaning that `exec` gives the instruction. -/
theorem execMicro_eq_exec {w : UopWord} {i : Instr} (h : decodeU8 w = .ok i) (s : State) : execMicro i s = exec i s := by
  have hd := decodeU8_micro h
  cases i <;> first | rfl | exact hd.elim

/-! ### SEQ moves on -/

theorem EncCall.advance_eLen (e : EncCall) : e.advance.eLen = e.eLen := by
  unfold EncCall.advance
  split
  · rfl
  · split <;> rfl
  · rfl
  · rfl

/-- After a micro-operation issued at SEQ's position, the position R132 moves on to is an allowed one. -/
theorem EncCall.Ok.advance {e e' : EncCall} (h : e.Ok) (hs : e.SamePayload e') (hp : e'.Pending)
    (ho : e'.eOnes.toNat ≤ 4) (hb : e.ePhase = .payload → e.eByte ≠ none) (hpad : e.ePhase ≠ .pad) : e'.advance.Ok := by
  have hph : e'.ePhase = e.ePhase := by rw [hs]
  have hl : e'.eLen = e.eLen := by rw [hs]
  have hi : e'.eIdx = e.eIdx := by rw [hs]
  have hbit : e'.eBit = e.eBit := by rw [hs]
  have hby : e'.eByte = e.eByte := by rw [hs]
  have hlen := h.len
  have hidx := h.idx
  cases hc : e.ePhase with
  | startFlag =>
    have hn : e.eByte = none := by
      by_contra hne
      have := (h.loaded hne).1
      simp [hc] at this
    have he : e'.advance = { e' with ePhase := .payload } := by unfold EncCall.advance; rw [hph, hc]
    rw [he]
    exact ⟨by simpa [hl] using hlen, by simpa [hl, hi] using hidx, ho, hp, by simp, by simp [hby, hn],
      fun _ => by simpa [hbit] using h.unloaded hn, by simp⟩
  | payload =>
    obtain ⟨-, hlt⟩ := h.loaded (hb hc)
    have hadd : (e.eIdx + 1).toNat = e.eIdx.toNat + 1 := by
      rw [BitVec.toNat_add]
      simp [Config.maxMessageLen] at *
      omega
    by_cases h0 : e'.eBit = 0
    · have he : e'.advance = { e' with eIdx := e'.eIdx + 1, eBit := 7, eByte := none } := by
        unfold EncCall.advance; rw [hph, hc]; simp only [if_pos h0]
      rw [he]
      refine ⟨by simpa [hl] using hlen, ?_, ho, hp, by simp [hph, hc], by simp, by simp, by simp [hph, hc]⟩
      simp only [hl, hi, hadd]
      omega
    · have he : e'.advance = { e' with eBit := e'.eBit - 1 } := by
        unfold EncCall.advance; rw [hph, hc]; simp only [if_neg h0]
      rw [he]
      refine ⟨by simpa [hl] using hlen, by simpa [hl, hi] using hidx, ho, hp, by simp [hph, hc], fun _ => ?_, fun hn => ?_,
        by simp [hph, hc]⟩
      · exact ⟨by simp [hph, hc], by simpa [hl, hi] using hlt⟩
      · exact absurd (hby ▸ hn) (hb hc)
  | endFlag =>
    have hn : e.eByte = none := by
      by_contra hne
      have := (h.loaded hne).1
      simp [hc] at this
    have he : e'.advance = { e' with ePhase := .pad } := by unfold EncCall.advance; rw [hph, hc]
    rw [he]
    exact ⟨by simpa [hl] using hlen, by simpa [hl, hi] using hidx, ho, hp, by simp, by simp [hby, hn],
      fun _ => by simpa [hbit] using h.unloaded hn, fun _ => by simpa [hl, hi] using h.ended (.inl hc)⟩
  | pad => exact absurd hc hpad

/-! ### The invariant -/

theorem Status.Ok.ended (k : Kind) {c : BitVec 9} (hc : k ≠ .ok → c = 0) (hr : c.toNat ≤ Config.maxMessageLen) :
    Status.Ok { busy := false, done := true, kind := k, count := c } .idle :=
  ⟨rfl, by simp, by simp, hc, hr⟩

/-- A completion leaves a state the invariant allows, where the memory is in form. -/
theorem State.Inv.finish {s t : State} (h : s.Inv) (k : Kind) {c : BitVec 9} (hm : Memory.wf t.mem)
    (ha : t.agenda = s.agenda) (hc : k ≠ .ok → c = 0) (hr : c.toNat ≤ Config.maxMessageLen) : (t.finish k c).Inv where
  mem := hm
  call := trivial
  status := .ended k hc hr
  curCmd := rfl
  outstanding := trivial
  noMicro := fun w => by
    rw [State.finish_agenda, ha]
    exact h.noMicro w

theorem State.Inv.completed {s t : State} (h : s.Inv) {k : Kind} (hm : t.mem = s.mem)
    (ha : t.agenda = s.agenda) : (t.completed k 0).Inv :=
  h.finish (t := t) k (c := 0) (hm ▸ h.mem) ha (fun _ => rfl) (by simp)

/-- An ENCODE's call may be replaced by another allowed one with the same length. -/
theorem State.Inv.withEnc {s : State} {e e' : EncCall} (h : s.Inv) (hu : s.unit = .encoding e) (hok : e'.Ok)
    (hl : e'.eLen = e.eLen) (p : TxPort) : (s.withEnc e' p).Inv where
  mem := h.mem
  call := hok
  status := by
    have := h.status
    rw [hu] at this
    exact { this with busy := this.busy }
  curCmd := by
    have := h.curCmd
    rw [hu] at this
    simpa [UnitState.word, hl] using this
  outstanding := trivial
  noMicro := h.noMicro

/-- The same with the port, and a request that is outstanding, as they are. -/
theorem State.Inv.setEnc {s : State} {e e' : EncCall} (h : s.Inv) (hu : s.unit = .encoding e) (hok : e'.Ok)
    (hl : e'.eLen = e.eLen) : ({ s with unit := .encoding e' } : State).Inv :=
  { h.withEnc hu hok hl s.tx with
    outstanding := by
      have := h.outstanding
      simp only [State.OutstandingOk, hu] at this ⊢
      cases ho : s.outstanding with
      | none => trivial
      | some r => cases r <;> simp_all }

theorem State.Inv.withDec {s : State} {d d' : DecCall} (h : s.Inv) (hu : s.unit = .decoding d) (hok : d'.Ok) (p : RxPort) :
    (s.withDec d' p).Inv where
  mem := h.mem
  call := hok
  status := by
    have := h.status
    rw [hu] at this
    exact { this with busy := this.busy }
  curCmd := by
    have := h.curCmd
    rw [hu] at this
    simpa [UnitState.word] using this
  outstanding := trivial
  noMicro := h.noMicro

theorem State.Inv.waiting {s : State} {r : ChanReq} (h : s.Inv) (hr : (s.waiting r).OutstandingOk) : (s.waiting r).Inv :=
  { h with outstanding := hr }

theorem State.Inv.encOk {s : State} {e : EncCall} (h : s.Inv) (hu : s.unit = .encoding e) : e.Ok := by
  have := h.call
  rwa [hu] at this

theorem State.Inv.decOk {s : State} {d : DecCall} (h : s.Inv) (hu : s.unit = .decoding d) : d.Ok := by
  have := h.call
  rwa [hu] at this

/-- SEQ moves on after a micro-operation of the writer or encoder, issued where it stands. -/
theorem encoderMicro_inv {s t : State} {e : EncCall} {f : EncCall → TxPort → Flow (EncCall × TxPort)} (h : s.Inv)
    (hu : s.unit = .encoding e) (hb : e.ePhase = .payload → e.eByte ≠ none) (hf : ∀ p, EncoderResult e (f e p))
    (hw : ∀ r, f e s.tx = .wait r → s.tx.answers = []) (ht : s.onEncoder f = .next t) : t.advance.Inv := by
  have hok := h.encOk hu
  obtain ⟨e0, hu0, hcase⟩ := State.onEncoder_next ht
  obtain rfl : e0 = e := by rw [hu] at hu0; exact (UnitState.encoding.inj hu0).symm
  have hres := hf s.tx
  rcases hcase with ⟨e', p, hd, rfl⟩ | ⟨r, hd, rfl⟩ | ⟨k, e', p, hd, rfl⟩
  · rw [hd] at hres
    cases hres with
    | done _ _ same pending ones =>
      have hph : e'.ePhase = e0.ePhase := by rw [same]
      have hl : e'.eLen = e0.eLen := by rw [same]
      by_cases hpad : e0.ePhase = .pad
      · have he : (s.withEnc e' p).advance = (s.withEnc e' p).finish .ok e'.eLen := by
          simp [State.advance, State.withEnc, hph, hpad]
        rw [he]
        exact h.finish .ok h.mem rfl (by simp) (hl ▸ hok.len)
      · have he : (s.withEnc e' p).advance = s.withEnc e'.advance p := by
          simp [State.advance, State.withEnc, hph, hpad]
        rw [he]
        exact h.withEnc hu (hok.advance same (pending hok.pending) (ones hok.ones) hb hpad)
          (by rw [EncCall.advance_eLen, hl]) p
  · rw [hd] at hres
    cases hres with
    | wait b =>
      have he : (s.waiting (.write b)).advance = s.waiting (.write b) := rfl
      rw [he]
      refine h.waiting ?_
      simp only [State.OutstandingOk, State.waiting, hu]
      exact hw _ hd
  · rw [hd] at hres
    cases hres with
    | abort x => exact h.completed (t := { s with tx := p }) rfl rfl

/-- A micro-operation of the reader or decoder, issued where SEQ stands. -/
theorem decoderMicro_inv {s t : State} {d : DecCall} {f : DecCall → RxPort → Flow (DecCall × RxPort)} (h : s.Inv)
    (hu : s.unit = .decoding d) (hf : ∀ p, DecoderResult p (f d p)) (ht : s.onDecoder f = .next t) : t.advance.Inv := by
  obtain ⟨d0, hu0, hcase⟩ := State.onDecoder_next ht
  obtain rfl : d0 = d := by rw [hu] at hu0; exact (UnitState.decoding.inj hu0).symm
  have hres := hf s.rx
  rcases hcase with ⟨d', p, hd, rfl⟩ | ⟨r, hd, rfl⟩ | ⟨k, d', p, hd, rfl⟩
  · rw [hd] at hres
    cases hres with
    | done _ _ ok => exact h.withDec hu ok p
  · rw [hd] at hres
    cases hres with
    | wait none =>
      refine h.waiting ?_
      simp only [State.OutstandingOk, State.waiting, hu]
      exact none
  · rw [hd] at hres
    cases hres with
    | abort _ _ error => exact h.completed (t := { s with rx := p }) rfl rfl

/-- A DECODE in PACKING has its payload's bits, and they fit RX_BUF. -/
theorem DecCall.Ok.packs {d : DecCall} (h : d.Ok) (hs : d.dState = .packing) :
    ∃ x bits, d.destuff = some x ∧ cellPrefix x.dBuf (8 * (x.dCnt.toNat / 8)) = some bits ∧
      bits.length = 8 * (x.dCnt.toNat / 8) ∧ x.dCnt.toNat / 8 ≤ Config.maxMessageLen := by
  obtain ⟨x, hx, hok⟩ := h.walk (.inr (.inr hs))
  obtain ⟨bits, hb, hl⟩ := cellPrefix_of_cells x.dBuf (8 * (x.dCnt.toNat / 8)) fun i hi => hok.cells i (by omega)
  exact ⟨x, bits, hx, hb, hl, (h.valid hs x hx).2⟩

theorem groupBytes_length (n : Nat) (bits : List Bit) (h : bits.length = 8 * n) : (groupBytes bits).length = n := by
  induction n generalizing bits with
  | zero =>
    obtain rfl := List.length_eq_zero_iff.mp (by simpa using h)
    rfl
  | succ n ih =>
    match bits, h with
    | b7 :: b6 :: b5 :: b4 :: b3 :: b2 :: b1 :: b0 :: rest, h =>
      simp only [groupBytes, List.length_cons]
      rw [ih rest (by simp only [List.length_cons] at h; omega)]

/-- PACK, from the state PACKING stands in: it completes, with the count in range. -/
theorem execPack_next {s : State} {d : DecCall} (hu : s.unit = .decoding d) (hok : d.Ok) (hs : d.dState = .packing) :
    ∃ m n, execPack s = .next (({ s with mem := m, unit := .decoding { d with dState := .done } } : State).finish .ok
        (BitVec.ofNat 9 n)) ∧ n ≤ Config.maxMessageLen ∧ (Memory.wf s.mem → Memory.wf m) := by
  obtain ⟨x, bits, hx, hb, hl, hn⟩ := hok.packs hs
  obtain ⟨m, hm⟩ := bufWriteAll_of_le s.mem .rx 0 (groupBytes bits) (by
    rw [groupBytes_length _ bits hl]
    show 0 + x.dCnt.toNat / 8 ≤ 256
    rw [Nat.zero_add]
    exact hn)
  exact ⟨m, _, by simp only [execPack, hu, hx, hb, hm], hn, (bufWriteAll_some hm).2.2⟩

/-! ### One step of the sequencer -/

theorem issueMicro_next {w : UopWord} {i : Instr} {s t : State} (hd : decodeU8 w = .ok i) (h : issueMicro w s = .next t) :
    ∃ t', execMicro i s = .next t' ∧ t = t'.advance := by
  simp only [issueMicro, hd] at h
  generalize execMicro i s = o at h
  cases o with
  | next t' => exact ⟨t', rfl, (Host.Outcome.next.inj h).symm⟩
  | fault g => cases h
  | refused r => cases h

theorem decodeU8_encPayloadBit (b : Bit) : decodeU8 (uopWord 0x4 b) = .ok (.encPayloadBit b) := by cases b <;> rfl

/-- One step of an ENCODE keeps the invariant. -/
theorem encoderStep_inv {s t : State} {e : EncCall} (h : s.Inv) (hu : s.unit = .encoding e) (ht : sequencerStep s = .next t) :
    t.Inv := by
  have hok := h.encOk hu
  have hflag : ∀ {t' : State}, execMicro .writeFlag s = .next t' → e.ePhase ≠ .payload → t'.advance.Inv := fun hx hp =>
    encoderMicro_inv h hu (fun hc => absurd hc hp) (fun p => (writeFlagOn_result e p).encoderResult)
      (fun r hr => writeFlagOn_waits hr) hx
  have hact : seqAction s = encoderAction e := by simp [seqAction, hu]
  simp only [sequencerStep, hact, encoderAction] at ht
  cases hc : e.ePhase with
  | startFlag =>
    simp only [hc] at ht
    obtain ⟨t', hx, rfl⟩ := issueMicro_next (i := .writeFlag) rfl ht
    exact hflag hx (by simp [hc])
  | endFlag =>
    simp only [hc] at ht
    obtain ⟨t', hx, rfl⟩ := issueMicro_next (i := .writeFlag) rfl ht
    exact hflag hx (by simp [hc])
  | pad =>
    simp only [hc] at ht
    obtain ⟨t', hx, rfl⟩ := issueMicro_next (i := .padOnes) rfl ht
    exact encoderMicro_inv h hu (fun hc' => by simp [hc] at hc') (fun p => (padOnesOn_result e p).encoderResult)
      (fun r hr => padOnesOn_waits hr) hx
  | payload =>
    simp only [hc] at ht
    by_cases hlt : e.eIdx.toNat < e.eLen.toNat
    · simp only [if_pos hlt] at ht
      cases hb : e.eByte with
      | some v =>
        simp only [hb] at ht
        obtain ⟨t', hx, rfl⟩ := issueMicro_next (decodeU8_encPayloadBit _) ht
        exact encoderMicro_inv h hu (fun _ => by simp [hb]) (fun p => encPayloadBitOn_result _ e p)
          (fun r hr => encPayloadBitOn_waits hr) hx
      | none =>
        simp only [hb] at ht
        split at ht
        · split at ht
          · cases ht
          · obtain rfl := Host.Outcome.next.inj ht
            exact h.setEnc (e' := { e with eByte := _ }) hu
              { hok with start := by simp [hc], loaded := fun _ => ⟨hc, hlt⟩, unloaded := by simp } rfl
        · cases ht
    · simp only [if_neg hlt] at ht
      obtain rfl := Host.Outcome.next.inj ht
      have hn : e.eByte = none := by
        by_contra hne
        exact hlt (hok.loaded hne).2
      exact h.setEnc (e' := { e with ePhase := .endFlag }) hu
        { hok with
          start := by simp
          loaded := by simp [hn]
          ended := fun _ => BitVec.eq_of_toNat_eq (Nat.le_antisymm hok.idx (Nat.not_lt.mp hlt)) } rfl

/-- One step of a DECODE keeps the invariant. -/
theorem decoderStep_inv {s t : State} {d : DecCall} (h : s.Inv) (hu : s.unit = .decoding d) (ht : sequencerStep s = .next t) :
    t.Inv := by
  have hok := h.decOk hu
  have hact : seqAction s = decoderAction d := by simp [seqAction, hu]
  simp only [sequencerStep, hact, decoderAction] at ht
  cases hc : d.dState with
  | seekingFlag =>
    simp only [hc] at ht
    obtain ⟨t', hx, rfl⟩ := issueMicro_next (i := .seekStep) rfl ht
    exact decoderMicro_inv h hu (fun p => seekStepOn_result p hok hc) hx
  | inFrame =>
    simp only [hc] at ht
    obtain ⟨t', hx, rfl⟩ := issueMicro_next (i := .captureStep) rfl ht
    exact decoderMicro_inv h hu (fun p => captureStepOn_result p hok hc) hx
  | destuffing =>
    simp only [hc] at ht
    obtain ⟨t', hx, rfl⟩ := issueMicro_next (i := .destuffStep) rfl ht
    exact decoderMicro_inv h hu (fun p => destuffStepOn_result p hok hc) hx
  | validating =>
    simp only [hc] at ht
    obtain ⟨t', hx, rfl⟩ := issueMicro_next (i := .validate) rfl ht
    exact decoderMicro_inv h hu (fun p => validateOn_result p hok hc) hx
  | packing =>
    simp only [hc] at ht
    obtain ⟨t', hx, rfl⟩ := issueMicro_next (i := .pack) rfl ht
    obtain ⟨m, n, hp, hn, hm⟩ := execPack_next hu hok hc
    obtain rfl := Host.Outcome.next.inj (hp.symm.trans hx)
    refine h.finish .ok (hm h.mem) rfl (by simp) ?_
    have : n < 2 ^ 9 := Nat.lt_of_le_of_lt hn (by decide)
    rw [BitVec.toNat_ofNat, Nat.mod_eq_of_lt this]
    exact hn
  | done => exact absurd hc hok.live.1
  | error => exact absurd hc hok.live.2

/-- One step of the sequencer keeps the invariant. -/
theorem sequencerStep_inv {s t : State} (h : s.Inv) (ht : sequencerStep s = .next t) : t.Inv := by
  cases hu : s.unit with
  | idle =>
    simp only [sequencerStep, seqAction, hu] at ht
    exact Host.Outcome.next.inj ht ▸ h
  | encoding e => exact encoderStep_inv h hu ht
  | decoding d => exact decoderStep_inv h hu ht

theorem issueMicro_stops {w : UopWord} {i : Instr} {s : State} (hd : decodeU8 w = .ok i)
    (h : (∀ g, execMicro i s ≠ .fault g) ∧ ∀ r, execMicro i s ≠ .refused r) :
    (∀ g, issueMicro w s ≠ .fault g) ∧ ∀ r, issueMicro w s ≠ .refused r := by
  simp only [issueMicro, hd]
  generalize execMicro i s = o at h
  cases o with
  | next t => exact ⟨fun g => by simp, fun r => by simp⟩
  | fault g => exact absurd rfl (h.1 g)
  | refused r => exact absurd rfl (h.2 r)

theorem onEncoder_runs {s : State} {e : EncCall} {f : EncCall → TxPort → Flow (EncCall × TxPort)}
    (hu : s.unit = .encoding e) (hf : EncoderResult e (f e s.tx)) :
    (∀ g, s.onEncoder f ≠ .fault g) ∧ ∀ r, s.onEncoder f ≠ .refused r := by
  refine ⟨fun g hg => ?_, fun r => State.onEncoder_ne_refused⟩
  rcases State.onEncoder_fault hg with hn | ⟨e', hu', hx⟩
  · exact hn e hu
  · obtain rfl : e' = e := by rw [hu] at hu'; exact (UnitState.encoding.inj hu').symm
    rw [hx] at hf
    cases hf

theorem onDecoder_runs {s : State} {d : DecCall} {f : DecCall → RxPort → Flow (DecCall × RxPort)}
    (hu : s.unit = .decoding d) (hf : DecoderResult s.rx (f d s.rx)) :
    (∀ g, s.onDecoder f ≠ .fault g) ∧ ∀ r, s.onDecoder f ≠ .refused r := by
  refine ⟨fun g hg => ?_, fun r => State.onDecoder_ne_refused⟩
  rcases State.onDecoder_fault hg with hn | ⟨d', hu', hx⟩
  · exact hn d hu
  · obtain rfl : d' = d := by rw [hu] at hu'; exact (UnitState.decoding.inj hu').symm
    rw [hx] at hf
    cases hf

/-- From a state that meets the invariant, a step of the sequencer stops only at a payload byte without a value. -/
theorem sequencerStep_stops {s : State} (h : s.Inv) :
    (∀ g, sequencerStep s = .fault g → ∃ i, g = .uninitialisedPayload i ∧ i < 256 ∧ bufByte s.mem .tx i = none) ∧
      ∀ r, sequencerStep s ≠ .refused r := by
  have hruns : ∀ {o : Result}, ((∀ g, o ≠ .fault g) ∧ ∀ r, o ≠ .refused r) →
      (∀ g, o = .fault g → ∃ i, g = .uninitialisedPayload i ∧ i < 256 ∧ bufByte s.mem .tx i = none) ∧
        ∀ r, o ≠ .refused r := fun ho => ⟨fun g hg => absurd hg (ho.1 g), ho.2⟩
  cases hu : s.unit with
  | idle =>
    simp only [sequencerStep, seqAction, hu]
    exact hruns ⟨fun g => by simp, fun r => by simp⟩
  | encoding e =>
    have hok := h.encOk hu
    simp only [sequencerStep, seqAction, hu, encoderAction]
    cases hc : e.ePhase with
    | startFlag => exact hruns (issueMicro_stops (i := .writeFlag) rfl (onEncoder_runs hu (writeFlagOn_result e _).encoderResult))
    | endFlag => exact hruns (issueMicro_stops (i := .writeFlag) rfl (onEncoder_runs hu (writeFlagOn_result e _).encoderResult))
    | pad => exact hruns (issueMicro_stops (i := .padOnes) rfl (onEncoder_runs hu (padOnesOn_result e _).encoderResult))
    | payload =>
      by_cases hlt : e.eIdx.toNat < e.eLen.toNat
      · simp only [if_pos hlt]
        cases hb : e.eByte with
        | some v =>
          exact hruns (issueMicro_stops (decodeU8_encPayloadBit _) (onEncoder_runs hu (encPayloadBitOn_result _ e _)))
        | none =>
          have h256 : e.eIdx.toNat < Config.bufBytes := Nat.lt_of_lt_of_le hlt hok.len
          simp only [if_pos h256]
          cases hm : bufByte s.mem .tx e.eIdx.toNat with
          | some v => exact hruns ⟨fun g => by simp, fun r => by simp⟩
          | none => exact ⟨fun g hg => ⟨_, (Host.Outcome.fault.inj hg).symm, h256, hm⟩, fun r => by simp⟩
      · simp only [if_neg hlt]
        exact hruns ⟨fun g => by simp, fun r => by simp⟩
  | decoding d =>
    have hok := h.decOk hu
    simp only [sequencerStep, seqAction, hu, decoderAction]
    cases hc : d.dState with
    | seekingFlag => exact hruns (issueMicro_stops (i := .seekStep) rfl (onDecoder_runs hu (seekStepOn_result _ hok hc)))
    | inFrame => exact hruns (issueMicro_stops (i := .captureStep) rfl (onDecoder_runs hu (captureStepOn_result _ hok hc)))
    | destuffing => exact hruns (issueMicro_stops (i := .destuffStep) rfl (onDecoder_runs hu (destuffStepOn_result _ hok hc)))
    | validating => exact hruns (issueMicro_stops (i := .validate) rfl (onDecoder_runs hu (validateOn_result _ hok hc)))
    | packing =>
      obtain ⟨m, n, hp, -, -⟩ := execPack_next hu hok hc
      refine hruns (issueMicro_stops (i := .pack) rfl ?_)
      simp only [execMicro, hp]
      exact ⟨fun g => by simp, fun r => by simp⟩
    | done => exact absurd hc hok.live.1
    | error => exact absurd hc hok.live.2

end Sys2Proof.Machine
end

