-- ==== Sys2Proof/Laws/Commands.lean ====
section
/-! SUPPORT. The commands as one step: their runs keep the invariant, and only an ENCODE stops, at a payload byte without a
value. -/

namespace Sys2Proof.Machine

/-- What holds of one step of the sequencer and is kept by going on holds of the whole run. -/
theorem runSequencer_inv {n : Nat} {s t : State} (h : s.Inv) (ht : runSequencer n s = .next t) : t.Inv := by
  induction n generalizing s with
  | zero => exact Host.Outcome.next.inj ht ▸ h
  | succ n ih =>
    unfold runSequencer at ht
    split at ht
    · exact Host.Outcome.next.inj ht ▸ h
    · split at ht
      · rename_i t' hs
        have h' := sequencerStep_inv h hs
        split at ht
        · exact Host.Outcome.next.inj ht ▸ h'
        · exact ih h' ht
      · cases ht
      · cases ht

/-! ### Acceptance -/

theorem State.Inv.idle {s : State} (h : s.Inv) (hu : s.unit = .idle) : s.status.busy = false ∧ s.outstanding = none := by
  have hb := h.status.busy
  have ho := h.outstanding
  simp only [State.OutstandingOk, hu] at hb ho
  refine ⟨hb, ?_⟩
  cases hx : s.outstanding with
  | none => rfl
  | some r => cases r <;> simp [hx] at ho

theorem EncCall.entry_ok {len : BitVec 9} (h : len.toNat ≤ Config.maxMessageLen) : (EncCall.entry len).Ok :=
  ⟨h, by simp [EncCall.entry], by simp [EncCall.entry], fun i _ => by simp [EncCall.entry], fun _ => ⟨rfl, rfl, rfl⟩,
    by simp [EncCall.entry], fun _ => rfl, by simp [EncCall.entry]⟩

theorem DecCall.entry_ok : DecCall.entry.Ok :=
  ⟨by decide, by decide, by decide, by decide, fun i hi => absurd hi (Nat.not_lt_zero i), fun _ => rfl, fun _ => rfl,
    fun h => absurd h (by decide), fun h => absurd h (by decide), fun h => absurd h (by decide)⟩

/-- A command has begun: its call's state is an allowed one, and CUR_CMD holds its word. -/
theorem State.Inv.begun {s : State} (h : s.Inv) (hu : s.unit = .idle) {w : CmdWord} {u : UnitState} (hok : u.Ok)
    (hb : u.isIdle = false) (hw : u.word = some w) : ((s.accept w).enter u).Inv where
  mem := h.mem
  call := hok
  status := ⟨by simp [hb], by simp, by simp, by simp, by simp⟩
  curCmd := by simp [hw]
  outstanding := by simp [State.OutstandingOk, (h.idle hu).2]
  noMicro := h.noMicro

theorem cmdLen_cmdWord (op : BitVec 4) {len : Nat} (h : len < 512) : (cmdLen (cmdWord op len)).toNat = len := by
  have : cmdLen (cmdWord op len) = BitVec.ofNat 9 len := by
    ext i hi
    simp only [cmdLen, cmdWord, BitVec.getElem_extractLsb', BitVec.getLsbD_append]
    rw [Nat.zero_add, if_pos hi, BitVec.getLsbD_eq_getElem hi]
  rw [this, BitVec.toNat_ofNat, Nat.mod_eq_of_lt h]

/-- A command word is made of its three fields (R86). -/
theorem cmdWord_fields (w : CmdWord) : (cmdOp w ++ cmdRsvd w) ++ cmdLen w = w := by
  ext i hi
  simp only [cmdOp, cmdRsvd, cmdLen, BitVec.getElem_append, BitVec.getElem_extractLsb']
  interval_cases i <;> rfl

theorem decodeCmd16_encode {w : CmdWord} {n : Nat} (h : decodeCmd16 w = .ok (.encode n)) : w = cmdWord 0x1 n := by
  unfold decodeCmd16 at h
  split at h
  · cases h
  · rename_i hr
    split at h
    · rename_i ho
      obtain rfl := Instr.encode.inj (Except.ok.inj h)
      conv_lhs => rw [← cmdWord_fields w, ho, not_not.mp hr]
      simp [cmdWord]
    · split at h
      · split at h <;> cases h
      · cases h

theorem decodeCmd16_decode {w : CmdWord} (h : decodeCmd16 w = .ok .decode) : w = cmdWord 0x2 0 := by
  unfold decodeCmd16 at h
  split at h
  · cases h
  · rename_i hr
    split at h
    · cases h
    · split at h
      · rename_i ho
        split at h
        · rename_i hl
          rw [← cmdWord_fields w, ho, not_not.mp hr, hl]
          rfl
        · cases h
      · cases h

theorem State.Inv.startEncode {s : State} (h : s.Inv) (hu : s.unit = .idle) {w : CmdWord} {len : Nat}
    (hw : w = cmdWord 0x1 len) : ((s.accept w).startEncode len).Inv := by
  unfold State.startEncode
  split
  · exact h.finish (t := s.accept w) .preconditionViolation h.mem rfl (fun _ => rfl) (by simp)
  · rename_i hlen
    have hle : len ≤ 256 := Nat.not_lt.mp hlen
    have hlen' : (cmdLen w).toNat = len := by
      rw [hw]
      exact cmdLen_cmdWord _ (by omega)
    refine h.begun hu (EncCall.entry_ok ?_) rfl ?_
    · rw [hlen']
      exact hle
    · simp only [UnitState.word, EncCall.entry]
      rw [hlen', ← hw]

theorem State.Inv.startDecode {s : State} (h : s.Inv) (hu : s.unit = .idle) :
    ((s.accept (cmdWord 0x2 0)).startDecode).Inv := h.begun hu DecCall.entry_ok rfl rfl

theorem State.Inv.rejectCommand {s : State} (h : s.Inv) (w : CmdWord) : (s.accept w).rejectCommand.Inv :=
  h.finish (t := s.accept w) .illegalCommand h.mem rfl (fun _ => rfl) (by simp)

theorem execEncode_inv {s t : State} {len : Nat} (h : s.Inv) (ht : execEncode len s = .next t) : t.Inv := by
  unfold execEncode at ht
  split at ht
  · rename_i hu
    exact runSequencer_inv (h.startEncode hu rfl) ht
  · cases ht
  · cases ht

theorem execDecode_inv {s t : State} (h : s.Inv) (ht : execDecode s = .next t) : t.Inv := by
  unfold execDecode at ht
  split at ht
  · rename_i hu
    exact runSequencer_inv (h.startDecode hu) ht
  · cases ht
  · cases ht

end Sys2Proof.Machine
end

