-- ==== Sys2Proof/Laws/HostBus.lean ====
section
/-! SUPPORT. The host bus accesses: everything each shared operation can do. -/

namespace Sys2Proof.Machine

/-- A buffer access that answers a next state has run in IDLE. -/
theorem State.whenIdle_next {s t : State} {go : Result} (h : s.whenIdle go = .next t) : s.unit = .idle ∧ go = .next t := by
  unfold State.whenIdle at h
  split at h
  · rename_i hu
    exact ⟨hu, h⟩
  · cases h
  · cases h

theorem State.whenIdle_idle {s : State} (go : Result) (h : s.unit = .idle) : s.whenIdle go = go := by
  simp [State.whenIdle, h]

theorem State.whenIdle_busy {s : State} (go : Result) (h : s.unit ≠ .idle) :
    s.whenIdle go = .refused .hostAccessWhileBusy := by
  cases hu : s.unit <;> simp_all [State.whenIdle]

/-- A host read of a buffer byte returns the byte's value and changes nothing else (R201, R202). -/
theorem State.readBuf_next {s t : State} {buf : Buf} {i : Nat} (h : s.readBuf buf i = .next t) :
    ∃ v, bufByte s.mem buf i = some v ∧ t = s.hostReturn (.byte v) := by
  unfold State.readBuf at h
  split at h
  · split at h
    · cases h
    · rename_i v hv
      exact ⟨v, hv, (Host.Outcome.next.inj h).symm⟩
  · cases h

theorem State.readBuf_some {s : State} {buf : Buf} {i : Nat} {v : Byte} (h : bufByte s.mem buf i = some v) :
    s.readBuf buf i = .next (s.hostReturn (.byte v)) := by
  have hi : i < Config.bufBytes := by
    by_contra hn
    simp [bufByte, hn] at h
  simp [State.readBuf, hi, h]

theorem State.readBuf_none {s : State} {buf : Buf} {i : Nat} (hi : i < Config.bufBytes) (h : bufByte s.mem buf i = none) :
    s.readBuf buf i = .fault (.uninitialisedRead buf i) := by
  simp [State.readBuf, hi, h]

/-- WR8 TX (R200): everything it can do. -/
theorem execWr8Tx_next {i : Nat} {v : Byte} {s t : State} (h : execWr8Tx i v s = .next t) :
    s.unit = .idle ∧ ∃ m, bufWrite s.mem .tx i v = some m ∧ t = { s with mem := m } := by
  obtain ⟨hu, hgo⟩ := State.whenIdle_next h
  cases hm : bufWrite s.mem .tx i v with
  | none => simp [hm] at hgo
  | some m =>
    simp only [hm] at hgo
    exact ⟨hu, m, rfl, (Host.Outcome.next.inj hgo).symm⟩

/-- WR16 CMD (R204): it runs in IDLE, and is the acceptance and the dispatch. -/
theorem execWr16Cmd_next {w : CmdWord} {s t : State} (h : execWr16Cmd w s = .next t) :
    s.unit = .idle ∧ t = (s.accept w).dispatch w := by
  unfold execWr16Cmd at h
  split at h
  · rename_i hu
    exact ⟨hu, (Host.Outcome.next.inj h).symm⟩
  · cases h
  · cases h

end Sys2Proof.Machine
end

