-- ==== Sys2Proof/Laws/PerInstr.lean ====
section
/-! SUPPORT. Facts about every instruction as syntax, one lemma per constructor. -/

namespace Sys2Proof.Laws

/-- The word the encoder writes for a well-formed instruction has the fixed bits of the instruction's row in
spec/opcode_table.json (for a BUS row, of its address). -/
def EncodingRow.Statement (i : Instr) : Prop :=
  i.wellFormed = true → rawBits (encode i) &&& (opRow i).mask = (opRow i).fixedBits

/-- The address of a buffer byte keeps its buffer's two top bits. -/
theorem bufAddr_bits : ∀ i < 256, (BitVec.ofNat 10 i).toNat &&& 0x300 = 0 ∧
    (BitVec.ofNat 10 (0x100 + i)).toNat &&& 0x300 = 0x100 := by decide +kernel

/-- OP and RSVD of an ENCODE word do not depend on its payload length. -/
theorem encodeWord_bits (len : Nat) : (cmdWord 0x1 len).toNat &&& 0xFE00 = 0x1000 := by
  have h : cmdWord 0x1 len &&& 0xFE00#16 = 0x1000#16 := by
    ext i hi
    simp only [cmdWord, BitVec.getElem_and, BitVec.getElem_append]
    interval_cases i <;> simp
  simpa using congrArg BitVec.toNat h

theorem EncodingRow.encode (len : Nat) : EncodingRow.Statement (.encode len) := fun _ => encodeWord_bits len

theorem EncodingRow.decode : EncodingRow.Statement .decode := fun _ => by decide

theorem EncodingRow.writeBit (b : Bit) : EncodingRow.Statement (.writeBit b) := fun _ => by cases b <;> decide

theorem EncodingRow.writeFlag : EncodingRow.Statement .writeFlag := fun _ => by decide

theorem EncodingRow.padOnes : EncodingRow.Statement .padOnes := fun _ => by decide

theorem EncodingRow.encPayloadBit (b : Bit) : EncodingRow.Statement (.encPayloadBit b) := fun _ => by cases b <;> decide

theorem EncodingRow.readBit : EncodingRow.Statement .readBit := fun _ => by decide

theorem EncodingRow.seekStep : EncodingRow.Statement .seekStep := fun _ => by decide

theorem EncodingRow.captureStep : EncodingRow.Statement .captureStep := fun _ => by decide

theorem EncodingRow.destuffStep : EncodingRow.Statement .destuffStep := fun _ => by decide

theorem EncodingRow.validate : EncodingRow.Statement .validate := fun _ => by decide

theorem EncodingRow.pack : EncodingRow.Statement .pack := fun _ => by decide

theorem EncodingRow.wr8Tx (i : Nat) (v : Byte) : EncodingRow.Statement (.wr8Tx i v) := fun h => (bufAddr_bits i (of_decide_eq_true h)).1

theorem EncodingRow.rd8Tx (i : Nat) : EncodingRow.Statement (.rd8Tx i) := fun h => (bufAddr_bits i (of_decide_eq_true h)).1

theorem EncodingRow.rd8Rx (i : Nat) : EncodingRow.Statement (.rd8Rx i) := fun h => (bufAddr_bits i (of_decide_eq_true h)).2

theorem EncodingRow.wr16Cmd (w : CmdWord) : EncodingRow.Statement (.wr16Cmd w) :=
  fun _ => (by decide : (0x200#10).toNat &&& 0x3FF = 0x200)

theorem EncodingRow.rd32Status : EncodingRow.Statement .rd32Status := fun _ => by decide

end Sys2Proof.Laws
end

