-- ==== Sys2Proof/Tests/Slice0.lean ====
section
/-! SUPPORT. Tests: the vectors of spec/95_test_vectors.md and words written out from 30_encoding.md, each by one step; and
for every statement of Certificates/Slice0/Obligations.lean that has hypotheses, a witness that meets them together. -/

namespace Sys2Proof.Tests

open Sys2Proof.Machine

/-! ### Helpers -/

/-- The outcome is a next state that passes the check. -/
def goes (r : Result) (p : State → Bool) : Bool :=
  match r with
  | .next t => p t
  | .fault _ => false
  | .refused _ => false

/-- The outcome is this fault. -/
def faults (r : Result) (g : Fault) : Bool :=
  match r with
  | .next _ => false
  | .fault h => h == g
  | .refused _ => false

/-- The outcome is this refusal. -/
def refuses (r : Result) (x : Refusal) : Bool :=
  match r with
  | .next _ => false
  | .fault _ => false
  | .refused y => y == x

/-- The decoder reads this instruction. -/
def reads (r : Raw) (i : Instr) : Bool :=
  match decode r with
  | .ok j => j == i
  | .error _ => false

/-- The decoder rejects the word for this reason. -/
def rejects (r : Raw) (x : Reject) : Bool :=
  match decode r with
  | .ok _ => false
  | .error y => y == x

/-- STATUS reads as 0x0000_0001. -/
def busy : Status := { busy := true, done := false, kind := .ok, count := 0 }

/-- An ENCODE in progress, and what the transmit channel will answer. -/
def enc (e : EncCall) (answers : List TxAnswer) : State :=
  { State.reset with unit := .encoding e, status := busy, curCmd := some 0x1000, tx := ⟨answers, []⟩ }

/-- A DECODE in progress, and what the receive channel will answer. -/
def dec (d : DecCall) (answers : List RxAnswer) : State :=
  { State.reset with unit := .decoding d, status := busy, curCmd := some 0x2000, rx := ⟨answers, []⟩ }

/-- IDLE, with TX_BUF holding the bytes from index 0 on, and what the channel will answer. -/
def idle (P : List Byte) (tx : List TxAnswer) (rx : List RxAnswer) : State :=
  { State.reset with
    mem := (List.range P.length).map fun i => (i, P.getD i 0)
    tx := ⟨tx, []⟩
    rx := ⟨rx, []⟩ }

/-- The writer's cursor of an ENCODE. -/
def cursor (wByte : Byte) (wPos : BitVec 3) : EncCall := { EncCall.entry 0 with wByte := wByte, wPos := wPos }

/-- The cursor a state is left with. -/
def cursorIs (t : State) (wByte : Byte) (wPos : BitVec 3) : Bool :=
  match t.unit with
  | .encoding e => e.wByte == wByte && e.wPos == wPos
  | .idle => false
  | .decoding _ => false

/-- The DECODE a state is left in passes the check. -/
def decoding (t : State) (p : DecCall → Bool) : Bool :=
  match t.unit with
  | .decoding d => p d
  | .idle => false
  | .encoding _ => false

/-- Cells that hold these bits. -/
def cells (bits : List Bit) : Cells := bits.map some

/-- A DECODE that has captured the frame bits and stands at the entry to DESTUFFING. -/
def captured (f : List Bit) : DecCall :=
  { DecCall.entry with
    dState := .destuffing
    fBuf := cells f
    fCnt := BitVec.ofNat 12 f.length
    destuff := some .entry }

/-- A DECODE with the destuffed bits, all frame bits walked. -/
def walked (s : DState) (out : List Bit) : DecCall :=
  { captured out with
    dState := s
    destuff := some { dBuf := cells out, dCnt := BitVec.ofNat 12 out.length, dIdx := BitVec.ofNat 12 out.length, dOnes := 0 } }

/-! ### Well-formedness, an ill-formed term for each check -/

theorem test_wellFormed_encode : (Instr.encode 511).wellFormed = true ∧ (Instr.encode 512).wellFormed = false := by decide

theorem test_wellFormed_wr8Tx : (Instr.wr8Tx 255 0).wellFormed = true ∧ (Instr.wr8Tx 256 0).wellFormed = false := by decide

theorem test_wellFormed_rd8Tx : (Instr.rd8Tx 255).wellFormed = true ∧ (Instr.rd8Tx 256).wellFormed = false := by decide

theorem test_wellFormed_rd8Rx : (Instr.rd8Rx 255).wellFormed = true ∧ (Instr.rd8Rx 256).wellFormed = false := by decide

/-! ### Decoding: words written out from R86 to R94 -/

theorem test_word_encode :
    reads (.cmd16 0b0001000000000011#16) (.encode 3) = true ∧ reads (.cmd16 0b0001000111111111#16) (.encode 511) = true := by
  decide

theorem test_word_decode :
    reads (.cmd16 0b0010000000000000#16) .decode = true ∧
    rejects (.cmd16 0b0010000000000001#16) .reservedCommand = true := by decide

theorem test_word_rsvd : rejects (.cmd16 0b0001001000000000#16) .reservedCommand = true := by decide

theorem test_word_writer :
    reads (.u8 0b00010000#8) (.writeBit false) = true ∧ reads (.u8 0b00010001#8) (.writeBit true) = true ∧
    reads (.u8 0b00100000#8) .writeFlag = true ∧ reads (.u8 0b00110000#8) .padOnes = true := by decide

theorem test_word_encPayloadBit :
    reads (.u8 0b01000000#8) (.encPayloadBit false) = true ∧ reads (.u8 0b01000001#8) (.encPayloadBit true) = true := by
  decide

theorem test_word_readBit : reads (.u8 0b01010000#8) .readBit = true := by decide

theorem test_word_decoder :
    reads (.u8 0b01100000#8) .seekStep = true ∧ reads (.u8 0b01110000#8) .captureStep = true ∧
    reads (.u8 0b10000000#8) .destuffStep = true ∧ reads (.u8 0b10010000#8) .validate = true ∧
    reads (.u8 0b10100000#8) .pack = true := by decide

theorem test_word_unknown :
    rejects (.u8 0b00000000#8) .unknownMicroOp = true ∧ rejects (.u8 0b10110000#8) .unknownMicroOp = true ∧
    rejects (.u8 0b00100001#8) .unknownMicroOp = true ∧ rejects (.u8 0b00010010#8) .unknownMicroOp = true := by decide

theorem test_word_bus :
    reads (.bus (.wr8 0b0000000101#10 0x99)) (.wr8Tx 5 0x99) = true ∧
    reads (.bus (.rd .w8 0b0011111111#10)) (.rd8Tx 255) = true ∧
    reads (.bus (.rd .w8 0b0111111111#10)) (.rd8Rx 255) = true ∧
    reads (.bus (.wr16 0b1000000000#10 0x1001)) (.wr16Cmd 0x1001) = true ∧
    reads (.bus (.rd .w32 0b1000000100#10)) .rd32Status = true := by decide

/-- H14 to H18. -/
theorem test_word_illegalAccess :
    rejects (.bus (.rd .w16 0x200)) .illegalHostAccess = true ∧ rejects (.bus (.wr32 0x204 0)) .illegalHostAccess = true ∧
    rejects (.bus (.wr8 0x100 0)) .illegalHostAccess = true ∧ rejects (.bus (.rd .w8 0x204)) .illegalHostAccess = true ∧
    rejects (.bus (.rd .w32 0x208)) .illegalHostAccess = true := by decide

/-- The table's words, placed, run as the first step after reset. -/
theorem test_fetchWord :
    (([(16, 0x1000), (16, 0x2000), (8, 0x10), (8, 0x20), (8, 0x30), (8, 0x41), (8, 0x50), (8, 0x60), (8, 0x70), (8, 0x80),
      (8, 0x90), (8, 0xA0), (16, 0x000), (16, 0x200), (16, 0x204)] : List (Nat × Nat)).all
        fun x => goes (step (State.reset.withFetchWord x.1 x.2)) fun _ => true) = true := by decide +kernel

/-! ### Bit Writer: W1, W9, W4, W5, W6, W7 -/

theorem test_writeBit_w1 : goes (exec (.writeBit true) (enc (cursor 0xFE 0) [.ok]))
    (fun t => cursorIs t 0x00 7 && t.tx.log == [(0xFF, .ok)]) = true := by decide

theorem test_writeBit_w9 : goes (exec (.writeBit true) (enc (cursor 0x7E 0) [.err]))
    (fun t => t.unit.isIdle && t.status.word == 0x0000_0012#32 && t.tx.delivered == []) = true := by decide

theorem test_writeFlag_w5 : goes (exec .writeFlag (enc (cursor 0xA0 4) [.ok]))
    (fun t => cursorIs t 0xC0 4 && t.tx.log == [(0xAF, .ok)]) = true := by decide

theorem test_padOnes_w6 : goes (exec .padOnes (enc (cursor 0x78 2) [.ok]))
    (fun t => cursorIs t 0x00 7 && t.tx.log == [(0x7F, .ok)]) = true := by decide

theorem test_padOnes_w7 : goes (exec .padOnes (enc (cursor 0x00 7) []))
    (fun t => cursorIs t 0x00 7 && t.tx.log == []) = true := by decide

/-! ### Frame Encoder -/

/-- E10: the fifth 1 of FF, with a stuffed 0 after it. -/
theorem test_encPayloadBit_stuffs :
    goes (exec (.encPayloadBit true) (enc { cursor 0xF0 3 with eOnes := 4 } []))
      (fun t => t.unit == .encoding { cursor 0xF8 1 with eOnes := 0 }) = true := by decide

/-- E5: four 1s and a 0. -/
theorem test_encPayloadBit_zero :
    goes (exec (.encPayloadBit false) (enc { cursor 0x78 2 with eOnes := 4 } []))
      (fun t => t.unit == .encoding { cursor 0x78 1 with eOnes := 0 }) = true := by decide

/-- E15 (S3). -/
theorem test_encode_e15 : goes (exec (.encode 2) (idle [0xFF, 0xFF] (List.replicate 5 .ok) []))
    (fun t => t.tx.delivered == [0x7E, 0xFB, 0xEF, 0xAF, 0xDF] && t.status.word == 0x0002_0002#32) = true := by
  decide +kernel

/-- E20: the second write fails. -/
theorem test_encode_e20 : goes (exec (.encode 1) (idle [0x41] [.ok, .err] []))
    (fun t => t.tx.delivered == [0x7E] && t.status.word == 0x0000_0012#32) = true := by decide +kernel

/-- R-c. -/
theorem test_encode_unwritten : faults (exec (.encode 1) (idle [] [.ok] [])) (.uninitialisedPayload 0) = true := by
  decide +kernel

/-! ### Bit Reader: B1, B4 -/

theorem test_readBit_b1 : goes (exec .readBit (dec .entry [.byte 0xA5]))
    (fun t => decoding t fun d => d.rByte == some 0xA5 && d.rAvail == 7 && d.rResult == some (.bit true)) = true := by decide

theorem test_readBit_b4 : goes (exec .readBit (dec { DecCall.entry with rByte := some 0x80, rAvail := 1 } []))
    (fun t => decoding t fun d => d.rAvail == 0 && d.rResult == some (.bit false)) = true := by decide

/-! ### Frame Decoder -/

/-- The last bit of the start flag 7E. -/
theorem test_seekStep_match :
    goes (exec .seekStep (dec { DecCall.entry with rByte := some 0x7E, rAvail := 1, dWin := 0x3F } []))
      (fun t => decoding t fun d => d.dState == .inFrame && d.dWin == 0x00 && d.fCnt == 0) = true := by decide

/-- D11. -/
theorem test_seekStep_d11 : goes (exec .seekStep (dec .entry [.eos])) (fun t => t.status.word == 0x0000_0022#32) = true := by
  decide

/-- D16: the seventh captured bit of FC ends an end flag. -/
theorem test_captureStep_d16 :
    goes (exec .captureStep (dec { DecCall.entry with
      rByte := some 0xFC, rAvail := 2, dState := .inFrame, dWin := 0x3F, fBuf := cells (List.replicate 6 true), fCnt := 6 } []))
      (fun t => t.status.word == 0x0000_0052#32) = true := by decide

/-- D2: the eighth captured bit of 7E ends the empty frame. -/
theorem test_captureStep_empty :
    goes (exec .captureStep (dec { DecCall.entry with
      rByte := some 0x7E, rAvail := 1, dState := .inFrame, dWin := 0x3F, fCnt := 7,
      fBuf := cells [false, true, true, true, true, true, true] } []))
      (fun t => decoding t fun d => d.dState == .destuffing && d.fCnt == 0 && d.destuff == some .entry) = true := by decide

/-- D20: the sixth 1 of a run. -/
theorem test_destuffStep_sixOnes :
    goes (exec .destuffStep (dec { captured (List.replicate 6 true) with
      destuff := some { dBuf := cells (List.replicate 5 true), dCnt := 5, dIdx := 5, dOnes := 5 } } []))
      (fun t => t.status.word == 0x0000_0062#32) = true := by decide

/-- D4: the 0 after five 1s is dropped. -/
theorem test_destuffStep_drops :
    goes (exec .destuffStep (dec { captured (List.replicate 5 true ++ [false, true]) with
      destuff := some { dBuf := cells (List.replicate 5 true), dCnt := 5, dIdx := 5, dOnes := 5 } } []))
      (fun t => decoding t fun d => d.destuff ==
        some { dBuf := cells (List.replicate 5 true), dCnt := 5, dIdx := 6, dOnes := 0 }) = true := by decide

/-- D23: ten destuffed bits. -/
theorem test_validate_alignment :
    goes (exec .validate (dec (walked .validating (List.replicate 10 false)) []))
      (fun t => t.status.word == 0x0000_0072#32) = true := by decide

/-- D26: 2056 destuffed bits, 257 bytes. -/
theorem test_validate_oversize :
    goes (exec .validate (dec { walked .validating [] with
      destuff := some { dBuf := [], dCnt := 2056, dIdx := 2056, dOnes := 0 } } []))
      (fun t => t.status.word == 0x0000_0082#32) = true := by decide

/-- D1: the byte 41. -/
theorem test_pack_d1 :
    goes (exec .pack (dec (walked .packing [false, true, false, false, false, false, false, true]) []))
      (fun t => t.status.word == 0x0001_0002#32 && t.mem == [(0x100, 0x41)] && t.unit.isIdle) = true := by decide

/-- D4. -/
theorem test_decode_d4 :
    goes (exec .decode (idle [] [] [.byte 0x7E, .byte 0xFB, .byte 0xEF, .byte 0xAF, .byte 0xDF]))
      (fun t => t.status.word == 0x0002_0002#32 && t.mem == [(0x100, 0xFF), (0x101, 0xFF)] &&
        t.rx.consumed.length == 5) = true := by decide +kernel

/-- D18: garbage that hides the flag. -/
theorem test_decode_d18 :
    goes (exec .decode (idle [] [] [.byte 0x3F, .byte 0x7E, .byte 0x41, .byte 0x7E]))
      (fun t => t.status.word == 0x0000_0052#32 && t.rx.consumed.length == 2) = true := by decide +kernel

/-! ### Host accesses -/

/-- H2, H13. -/
theorem test_wr8Tx :
    goes (exec (.wr8Tx 5 0x99) State.reset) (fun t => bufByte t.mem .tx 5 == some 0x99) = true ∧
    refuses (exec (.wr8Tx 0 0) (dec .entry [])) .hostAccessWhileBusy = true := by decide

/-- H3. -/
theorem test_rd8Tx : goes (exec (.rd8Tx 0) (idle [0x99] [] [])) (fun t => t.hostReads == [.byte 0x99]) = true := by decide

/-- H4. -/
theorem test_rd8Rx : faults (exec (.rd8Rx 0) State.reset) (.uninitialisedRead .rx 0) = true := by decide

/-- H9, H20. -/
theorem test_wr16Cmd :
    goes (exec (.wr16Cmd 0x1301) State.reset) (fun t => t.status.word == 0x0000_00A2#32) = true ∧
    goes (exec (.wr16Cmd 0x2000) { State.reset with status := ⟨false, true, .ok, 2⟩ })
      (fun t => t.status.word == 0x0000_0001#32) = true := by decide

/-- H12. -/
theorem test_wr16Cmd_busy : refuses (exec (.wr16Cmd 0x2000) (dec .entry [])) .commandWhileBusy = true := by decide

/-- H11, H19. -/
theorem test_rd32Status :
    goes (exec .rd32Status (dec .entry [])) (fun t => t.hostReads == [.word 0x0000_0001]) = true ∧
    goes (exec .rd32Status { State.reset with status := ⟨false, true, .protocolError, 0⟩ })
      (fun t => t.hostReads == [.word 0x0000_0062] && t.status == ⟨false, true, .protocolError, 0⟩) = true := by decide

/-- R-b. -/
theorem test_reset_while_busy :
    goes (step { dec .entry [.byte 1] with agenda := [.reset] })
      (fun t => t == { State.reset with rx := ⟨[.byte 1], []⟩ }) = true := by decide

/-! ### Witnesses: for each statement with hypotheses, a state and operands that meet them together -/

theorem witness_commandWordExamples : State.reset.unit = .idle := by decide

theorem witness_microOpCodes :
    0x12#8 ∉ [0x10#8, 0x11#8, 0x20#8, 0x30#8, 0x40#8, 0x41#8, 0x50#8, 0x60#8, 0x70#8, 0x80#8, 0x90#8, 0xA0#8] ∧
    ({ State.reset with agenda := [.micro 0x12] } : State).agenda = .micro 0x12 :: [] := by decide

theorem witness_decodeOfEncode :
    ([.encode 511, .wr8Tx 255 0, .rd8Tx 255, .rd8Rx 255, .writeBit true, .wr16Cmd 0xFFFF] : List Instr).all
      Instr.wellFormed = true := by decide

theorem witness_encodeOfDecode : decode (.bus (.rd .w8 0x1FF)) = .ok (.rd8Rx 255) := by rfl

theorem witness_illegalCommandWords :
    ([0x0FFF, 0x3000, 0x1200, 0x2001] : List CmdWord).all (fun w => rejects (.cmd16 w) .reservedCommand) = true ∧
    State.reset.unit = .idle := by decide

theorem witness_illegalHostAccess :
    ∃ s : State, s.agenda = .host (.wr8 0x100 0) :: [] ∧
      (∀ i v, i < 0x100 → BusAccess.wr8 0x100 0 ≠ .wr8 (BitVec.ofNat 10 i) v) ∧
      (∀ i, i < 0x200 → BusAccess.wr8 0x100 0 ≠ .rd .w8 (BitVec.ofNat 10 i)) ∧
      (∀ w, BusAccess.wr8 0x100 0 ≠ .wr16 0x200 w) ∧ BusAccess.wr8 0x100 0 ≠ .rd .w32 0x204 := by
  refine ⟨{ State.reset with agenda := [.host (.wr8 0x100 0)] }, rfl, ?_, ?_, ?_, ?_⟩
  · intro i v hi h
    have := congrArg BitVec.toNat (BusAccess.wr8.inj h).1
    simp at this
    omega
  all_goals simp

/-- One turn of each of the three kinds that bring a word. -/
theorem witness_stepRunsDecodedInstruction :
    (∃ s : State, s.agenda = .host (.rd .w32 0x204) :: [] ∧ decode (.bus (.rd .w32 0x204)) = .ok .rd32Status) ∧
    (∃ s : State, s.agenda = .micro 0x50 :: [] ∧ decode (.u8 0x50) = .ok .readBit) ∧
    (∃ s : State, s.agenda = .command 0x1002 :: [] ∧ s.unit = .idle ∧ decode (.cmd16 0x1002) = .ok (.encode 2)) :=
  ⟨⟨{ State.reset with agenda := [.host (.rd .w32 0x204)] }, rfl, rfl⟩,
    ⟨{ State.reset with agenda := [.micro 0x50] }, rfl, rfl⟩,
    ⟨{ State.reset with agenda := [.command 0x1002] }, rfl, rfl, rfl⟩⟩

/-- An ENCODE in each phase, a DECODE in each D_STATE, and the turn `unit`; the first issues a word that runs. -/
theorem witness_sequencerIssuesAtSeq :
    (enc (.entry 1) [.ok]).agenda = [] ∧ seqAction (enc (.entry 1) [.ok]) = .issue 0x20 ∧
    reads (.u8 0x20) .writeFlag = true ∧ goes (exec .writeFlag (enc (.entry 1) [.ok])) (fun _ => true) = true ∧
    ({ State.reset with agenda := [.unit] } : State).agenda = .unit :: [] ∧
    (let e := { EncCall.entry 1 with ePhase := .payload, eByte := some 0x41 }
     (enc e []).unit = .encoding e ∧ e.ePhase = .payload ∧ e.eIdx.toNat < e.eLen.toNat ∧ e.eByte = some 0x41) := by decide

/-- The exec of SEQ's micro-operation can fault in a state no run reaches: DESTUFFING without a destuffing pass. -/
theorem witness_sequencerIssuesAtSeq_fault :
    let s := dec { DecCall.entry with dState := .destuffing } []
    s.agenda = [] ∧ seqAction s = .issue 0x80 ∧ reads (.u8 0x80) .destuffStep = true ∧
      faults (exec .destuffStep s) .noValue = true := by decide

/-- The last bit of the last payload byte, the load of a byte, and the end of the payload. -/
theorem witness_encoderPhaseOrder :
    let e := { EncCall.entry 1 with ePhase := .payload, eByte := some 0x41, eBit := 0, wPos := 0 }
    (enc e [.ok]).unit = .encoding e ∧
    goes (sequencerStep (enc e [.ok])) (fun t => t.unit ==
      .encoding { e with eIdx := 1, eBit := 7, eByte := none, wPos := 7, wByte := 0, eOnes := 1 }) = true ∧
    goes (sequencerStep (enc { e with eIdx := 1, eByte := none } []))
      (fun t => t.unit == .encoding { e with eIdx := 1, eByte := none, ePhase := .endFlag }) = true ∧
    goes (sequencerStep (enc e [])) (fun t => t.outstanding.isSome && t.unit == .encoding e) = true := by decide

/-- A step of a DECODE that goes on, and one that ends it. -/
theorem witness_decoderTransitions :
    goes (sequencerStep (dec .entry [.byte 0x7E])) (fun t => decoding t fun d => d.dState == .seekingFlag) = true ∧
    goes (sequencerStep (dec .entry [.eos])) (fun t => t.unit.isIdle && t.status.kind == .syncError) = true := by decide

theorem witness_resetState : ({ dec .entry [] with agenda := [.reset] } : State).agenda = .reset :: [] := by decide

/-- Every index up to the last; IDLE, and a command in progress. -/
theorem witness_hostWriteOfTxBuf :
    0 < 256 ∧ 255 < 256 ∧ State.reset.unit = .idle ∧ (dec .entry []).unit ≠ .idle := by decide

/-- A byte with a value and one without, in each buffer. -/
theorem witness_hostReadOfBuffers :
    let s := { idle [0x41] [] [] with mem := [(0, 0x41), (0x1FF, 0x42)] }
    s.unit = .idle ∧ bufByte s.mem .tx 0 = some 0x41 ∧ bufByte s.mem .tx 255 = none ∧
      bufByte s.mem .rx 255 = some 0x42 ∧ bufByte s.mem .rx 0 = none ∧ (dec .entry []).unit ≠ .idle := by decide

/-- Each clause at the bounds of LEN. -/
theorem witness_commandAcceptance :
    (2 : Nat) < 16 ∧ (0 : Nat) < 8 ∧ (511 : Nat) < 512 ∧ State.reset.unit = .idle ∧ 256 < (257 : Nat) ∧ (256 : Nat) ≤ 256 := by
  decide

theorem witness_commandWhileBusy :
    ({ dec .entry [] with agenda := [.command 0x2000] } : State).unit ≠ .idle ∧
    ({ dec .entry [] with agenda := [.command 0x2000] } : State).agenda = .command 0x2000 :: [] := by decide

theorem witness_overlongEncode : 256 < (257 : Nat) ∧ 511 < (512 : Nat) ∧ State.reset.unit = .idle := by decide

/-- The three clauses of WRITE_BIT. -/
theorem witness_writeBitEffect :
    (enc (cursor 0 7) []).unit = .encoding (cursor 0 7) ∧ (cursor 0 7).wPos ≠ 0 ∧ (cursor 0xFE 0).wPos = 0 ∧
    (enc (cursor 0xFE 0) [.ok]).tx.answers = .ok :: [] ∧ (enc (cursor 0xFE 0) [.err]).tx.answers = .err :: [] := by decide

theorem witness_writeFlagEffect :
    (enc (cursor 0xA0 4) [.ok]).unit = .encoding (cursor 0xA0 4) ∧ (enc (cursor 0xA0 4) [.ok]).tx.answers = .ok :: [] ∧
    (enc (cursor 0xA0 4) [.err]).tx.answers = .err :: [] := by decide

theorem witness_padOnesEffect :
    (enc (cursor 0 7) []).unit = .encoding (cursor 0 7) ∧ (cursor 0 7).wPos = 7 ∧ (cursor 0x78 2).wPos ≠ 7 ∧
    (enc (cursor 0x78 2) [.ok]).tx.answers = .ok :: [] ∧ (enc (cursor 0x78 2) [.err]).tx.answers = .err :: [] := by decide

theorem witness_writerSequence :
    let bs := List.replicate 11 true
    let s := enc (cursor 0x00 7) [.ok, .err]
    s.unit = .encoding (cursor 0x00 7) ∧ (cursor 0x00 7).wByte = 0x00 ∧ (cursor 0x00 7).wPos = 7 ∧ s.outstanding = none ∧
      s.tx.answers = List.replicate (bs.length / 8) .ok ++ [.err] := by decide

theorem witness_writerFrame :
    ([.writeBit true, .writeFlag, .padOnes, .encPayloadBit true] : List Instr).all
      (fun i => goes (exec i (enc (cursor 0x78 2) [.ok])) fun _ => true) = true := by decide

/-- The clauses of ENC_PAYLOAD_BIT at each W_POS where they meet. -/
theorem witness_encPayloadBitEffect :
    let e (p : BitVec 3) := { cursor 0x00 p with eOnes := 4 }
    (enc (e 0) [.ok]).unit = .encoding (e 0) ∧ (e 0).eOnes.toNat ≤ 4 ∧ (enc (e 0) [.ok]).tx.answers = .ok :: [] ∧
    (enc (e 0) [.err]).tx.answers = .err :: [] ∧ 2 ≤ (e 2).wPos.toNat ∧ (e 1).wPos = 1 ∧ (e 0).wPos = 0 ∧
    ¬(true = true ∧ (cursor 0x00 7).eOnes = 4) ∧ (cursor 0x00 7).wPos ≠ 0 := by decide

/-- TX_BUF[0] = FF, and a channel that takes all four bytes of the frame. -/
theorem witness_encodeSendsWireFormat :
    (idle [0xFF] (List.replicate 4 .ok) []).unit = .idle ∧ [0xFF#8].length ≤ 256 ∧
    bufByte (idle [0xFF] [] []).mem .tx 0 = some 0xFF ∧
    (idle [0xFF] (List.replicate 4 .ok) []).tx.answers = List.replicate (wireBytes [0xFF]).length .ok ++ [] := by decide

/-- The last of the four writes fails. -/
theorem witness_encodeWriteFailure :
    (idle [0xFF] [.ok, .ok, .ok, .err] []).unit = .idle ∧ [0xFF#8].length ≤ 256 ∧
    bufByte (idle [0xFF] [.ok, .ok, .ok, .err] []).mem .tx 0 = some 0xFF ∧ 3 < (wireBytes [0xFF]).length ∧
    (idle [0xFF] [.ok, .ok, .ok, .err] []).tx.answers = List.replicate 3 .ok ++ .err :: [] := by decide

theorem witness_encodeOfUnwrittenByte :
    (idle [0x41] (List.replicate 310 .ok) []).unit = .idle ∧ 1 < 2 ∧ bufByte (idle [0x41] [] []).mem .tx 0 ≠ none ∧
    bufByte (idle [0x41] [] []).mem .tx 1 = none ∧
    (idle [0x41] (List.replicate 310 .ok) []).tx.answers = List.replicate 310 .ok ++ [] := by decide +kernel

theorem witness_readBitEffect :
    (dec .entry [.byte 0xA5]).unit = .decoding .entry ∧ DecCall.entry.rAvail = 0 ∧
    (dec .entry [.byte 0xA5]).rx.answers = .byte 0xA5 :: [] ∧ (dec .entry [.eos]).rx.answers = .eos :: [] ∧
    (dec .entry [.err]).rx.answers = .err :: [] ∧
    (let d := { DecCall.entry with rByte := some 0x80, rAvail := 8 }
     0 < d.rAvail.toNat ∧ d.rAvail.toNat ≤ 8 ∧ d.rByte = some 0x80) := by decide

theorem witness_readerSequence :
    (dec .entry [.byte 0xA5, .byte 0x0F, .eos]).rx.answers = ([0xA5#8, 0x0F#8]).map .byte ++ [.eos] ∧
    0 < 16 ∧ 16 ≤ 8 * [0xA5#8, 0x0F#8].length := by decide

/-- SEEK_STEP reads a bit that ends a flag, one that does not, the end of the stream, an error. -/
theorem witness_seekStepEffect :
    let d := { DecCall.entry with rByte := some 0x02, rAvail := 1, dWin := 0x3F }
    let e := { DecCall.entry with rByte := some 0x03, rAvail := 1, dWin := 0x3F }
    (dec d []).unit = .decoding d ∧
    readBitOn d ⟨[], []⟩ = .done ({ d with rAvail := 0, rResult := some (.bit false) }, ⟨[], []⟩) ∧
    shiftIn d.dWin false = 0x7E ∧
    readBitOn e ⟨[], []⟩ = .done ({ e with rAvail := 0, rResult := some (.bit true) }, ⟨[], []⟩) ∧
    shiftIn e.dWin true ≠ 0x7E ∧
    readBitOn .entry ⟨[.eos], []⟩ = .done ({ DecCall.entry with rResult := some .eos }, ⟨[], [.eos]⟩) ∧
    readBitOn .entry ⟨[.err], []⟩ = .done ({ DecCall.entry with rResult := some .err }, ⟨[], [.err]⟩) := by decide

/-- CAPTURE_STEP reads a 0 bit in a window and with a count of each clause, at the bounds where the clauses meet. -/
theorem witness_captureStepEffect :
    let d (win : Byte) (n : BitVec 12) :=
      { DecCall.entry with dState := .inFrame, rByte := some 0x02, rAvail := 1, dWin := win, fCnt := n }
    ([(0x3F, 2576), (0x00, 2575), (0x3F, 6), (0x3F, 7), (0x3F, 2575)] : List (Byte × BitVec 12)).all (fun x =>
      readBitOn (d x.1 x.2) ⟨[], []⟩ ==
        .done ({ d x.1 x.2 with rAvail := 0, rResult := some (.bit false) }, ⟨[], []⟩)) = true ∧
    shiftIn 0x3F false = 0x7E ∧ shiftIn 0x00 false ≠ 0x7E ∧ (2576#12).toNat = 2576 ∧ (2575#12).toNat < 2576 ∧
    (6#12).toNat + 1 < 8 ∧ 8 ≤ (7#12).toNat + 1 := by decide

/-- A byte from the channel, and the internal byte's last bit; windows and counts as before. -/
theorem witness_decoderSteps :
    (let d := { DecCall.entry with dWin := 0x3F }
     let s := dec d [.byte 0x41]
     s.unit = .decoding d ∧ d.rAvail = 0 ∧ s.rx.answers = .byte 0x41 :: [] ∧ (0x41#8).getLsbD 7 = false ∧
       shiftIn d.dWin false = 0x7E) ∧
    (let d := { DecCall.entry with rByte := some 0x41, rAvail := 1, fCnt := 7 }
     (dec d []).unit = .decoding d ∧ 0 < d.rAvail.toNat ∧ d.rAvail.toNat ≤ 8 ∧ d.rByte = some 0x41 ∧
       (0x41#8).getLsbD (d.rAvail.toNat - 1) = true ∧ shiftIn d.dWin true ≠ 0x7E ∧ 7 ≤ d.fCnt.toNat) := by decide

/-- The five clauses of DESTUFF_STEP. -/
theorem witness_destuffStepEffect :
    let x (ones : BitVec 3) : Destuff := { dBuf := cells (List.replicate 5 true), dCnt := 5, dIdx := 5, dOnes := ones }
    let d (f : List Bit) (ones : BitVec 3) := { captured f with destuff := some (x ones) }
    (dec (d [] 5) []).unit = .decoding (d [] 5) ∧ (d [] 5).destuff = some (x 5) ∧ (x 5).dCnt.toNat < 2576 ∧
      (x 5).dOnes.toNat ≤ 5 ∧ (x 0).dOnes ≠ 5 ∧ (x 5).dIdx = (d (List.replicate 5 true) 5).fCnt ∧
      (x 5).dIdx ≠ (d (List.replicate 6 true) 5).fCnt ∧
      cellRead (d (List.replicate 6 true) 5).fBuf 5 = some true ∧
      cellRead (d (List.replicate 6 false) 5).fBuf 5 = some false := by decide

/-- A pass that succeeds and one that does not. -/
theorem witness_destuffPass :
    let f := [true, true, true, true, true, false, true]
    let d := captured f
    (dec d []).unit = .decoding d ∧ d.dState = .destuffing ∧ d.destuff = some .entry ∧ f.length ≤ 2576 ∧
      d.fCnt.toNat = f.length ∧ (∀ i, i < f.length → cellRead d.fBuf i = some (f.getD i false)) ∧
      destuff f = some [true, true, true, true, true, true] ∧ destuff (List.replicate 6 true) = none := by decide

theorem witness_earlyMatch :
    firstFlag 0x00 [true, true, true, true, true, true, false] = some 7 := by decide

theorem witness_validateEffect :
    let x (n : BitVec 12) : Destuff := { dBuf := [], dCnt := n, dIdx := n, dOnes := 0 }
    let d (n : BitVec 12) := { captured [] with destuff := some (x n) }
    (dec (d 1) []).unit = .decoding (d 1) ∧ (d 1).destuff = some (x 1) ∧ (x 1).dCnt.toNat % 8 ≠ 0 ∧
      (x 2056).dCnt.toNat % 8 = 0 ∧ 256 < (x 2056).dCnt.toNat / 8 ∧ (x 2048).dCnt.toNat / 8 ≤ 256 := by decide

/-- 11 destuffed bits: one byte, and three bits left out. -/
theorem witness_packEffect :
    let bits := List.replicate 11 true
    let d := walked .packing bits
    (dec d []).unit = .decoding d ∧ d.destuff.map (fun x => cellPrefix x.dBuf bits.length) = some (some bits) ∧
      d.destuff.map (fun x => x.dCnt.toNat) = some bits.length ∧ bits.length / 8 ≤ 256 := by decide

theorem witness_decoderFrame :
    goes (exec .readBit (dec .entry [.byte 1])) (fun _ => true) = true ∧
    goes (exec .seekStep (dec .entry [.byte 1])) (fun _ => true) = true ∧
    goes (exec .captureStep (dec .entry [.byte 1])) (fun _ => true) = true ∧
    goes (exec .destuffStep (dec (captured [true]) [])) (fun _ => true) = true ∧
    goes (exec .validate (dec (walked .validating []) [])) (fun _ => true) = true := by decide

theorem witness_decodeFollowsTheRules :
    (idle [] [] [.byte 0x7E, .eos]).unit = .idle ∧
    (idle [] [] [.byte 0x7E, .eos]).rx.answers = [0x7E#8].map .byte ++ .eos :: [] ∧
    (idle [] [] [.err]).rx.answers = ([] : List Byte).map .byte ++ .err :: [] := by decide

theorem witness_decodeOfWireFormat :
    (idle [] [] ((wireBytes [0xFF]).map .byte)).unit = .idle ∧ [0xFF#8].length ≤ 256 ∧
    (idle [] [] ((wireBytes [0xFF]).map .byte)).rx.answers = (wireBytes [0xFF]).map .byte ++ [] := by decide

/-- The garbage FB has a run of five 1s and a run of two. -/
theorem witness_decodeAfterGarbage :
    ¬SixOnes (bytesBits [0xFB]) ∧
    (idle [] [] (([0xFB] ++ wireBytes [0x41]).map .byte)).rx.answers = ([0xFB] ++ wireBytes [0x41]).map .byte ++ [] := by
  unfold SixOnes
  decide

theorem witness_decodeNamedStreams :
    (idle [] [] [.byte 0x7E, .byte 0x7E]).rx.answers = .byte 0x7E :: .byte 0x7E :: [] ∧
    (idle [] [] [.byte 0x7E, .byte 0x1F, .byte 0x7E]).rx.answers = .byte 0x7E :: .byte 0x1F :: .byte 0x7E :: [] ∧
    (idle [] [] [.byte 0x3F, .byte 0x7E]).rx.answers = .byte 0x3F :: .byte 0x7E :: [] := by decide

/-- A DECODE at its entry meets the invariant, and its next step is done. -/
theorem witness_inv : (dec .entry [.byte 0x7E]).Inv ∧
    goes (step (dec .entry [.byte 0x7E])) (fun _ => true) = true := by
  refine ⟨⟨?_, ?_, ?_, rfl, ?_, ?_⟩, by decide⟩
  · decide
  · refine ⟨by decide, by decide, by decide, by decide, fun i hi => absurd hi (Nat.not_lt_zero i), by decide, by decide,
      fun h => absurd h (by decide), fun h => absurd h (by decide), fun h => absurd h (by decide)⟩
  · exact ⟨rfl, by decide, by decide, by decide, by decide⟩
  · trivial
  · intro w h
    cases h

/-- Each stop that can be met: the payload byte of an ENCODE in progress has no value; a command while busy. -/
theorem witness_stops :
    faults (step (enc { EncCall.entry 1 with ePhase := .payload } [])) (.uninitialisedPayload 0) = true ∧
    refuses (step { dec .entry [] with agenda := [.command 0x2000] }) .commandWhileBusy = true ∧
    refuses (step { dec .entry [] with agenda := [.host (.wr8 0 0)] }) .hostAccessWhileBusy = true ∧
    refuses (step { dec .entry [] with agenda := [.host (.wr8 0x100 0)] }) .illegalHostAccess = true := by decide

theorem witness_startInv : ∀ w, Turn.micro w ∉ [Turn.host (.rd .w32 0x204), .unit, .reset, .command 0x2000] := by simp

theorem witness_whoWritesTheBuffers :
    goes (exec (.wr8Tx 0 1) State.reset) (fun _ => true) = true ∧
    goes (exec .decode (idle [] [] [.eos])) (fun t => t.unit.isIdle && t.status.kind == .syncError) = true := by
  decide +kernel

theorem witness_statusChanges :
    goes (sequencerStep (dec .entry [.eos])) (fun t => t.status != busy) = true ∧
    goes (sequencerStep (dec .entry [.byte 0])) (fun t => t.status == busy) = true := by decide

theorem witness_endOfCommand :
    goes (step (dec .entry [.eos])) (fun t => t.unit.isIdle) = true ∧ (dec .entry [.eos]).unit ≠ .idle ∧
    goes (step { dec .entry [] with agenda := [.reset] }) (fun t => t.unit.isIdle) = true := by decide

theorem witness_commandAsOneStepOrMany :
    (idle [] [] [.eos]).unit = .idle ∧ (idle [] [] [.eos]).agenda = [] ∧ 1 < 512 ∧
    goes (exec (.encode 1) (idle [0x41] [.ok] [])) (fun t => t.outstanding == some (.write 0x41)) = true ∧
    faults (exec (.encode 1) (idle [] [.ok] [])) (.uninitialisedPayload 0) = true ∧
    goes (exec .decode (idle [] [] [])) (fun t => t.outstanding == some .read) = true := by decide +kernel

theorem witness_encodeIsDone :
    (idle [0xFF] (List.replicate 4 .ok) []).agenda = [] ∧
    (idle [0xFF] (List.replicate 4 .ok) []).tx.answers = List.replicate (wireBytes [0xFF]).length .ok ++ [] := by decide

theorem witness_unansweredRequest :
    (dec .entry []).agenda = [] ∧ (dec .entry []).outstanding = none ∧
    goes (step (dec .entry [])) (fun t => t.outstanding != none) = true := by decide

/-- An ENCODE at each W_POS of the clauses, and a DECODE with no bit left; no answer from the channel. -/
theorem witness_channelWaits :
    let e (p : BitVec 3) := { cursor 0x00 p with eOnes := 4 }
    (enc (e 0) []).unit = .encoding (e 0) ∧ (enc (e 0) []).tx.answers = [] ∧ (e 0).wPos = 0 ∧ (e 1).wPos = 1 ∧
    (e 1).wPos ≠ 7 ∧ (e 1).eOnes = 4 ∧ (dec .entry []).unit = .decoding .entry ∧ DecCall.entry.rAvail = 0 ∧
    (dec .entry []).rx.answers = [] := by decide

end Sys2Proof.Tests
end

section
/-! PROOFS. One step of the machine: what each turn comes to, and where the sequencer's step runs a micro-operation. -/

namespace Sys2Proof.Machine

/-! ### What each turn comes to (R20, R263) -/

section
variable {s : State} {rest : List Turn} {i : Instr}

theorem step_nil (h : s.agenda = []) : step s = sequencerStep s := by simp [step, fetch, h]

theorem step_unit (h : s.agenda = .unit :: rest) : step s = sequencerStep { s with agenda := rest } := by
  simp [step, fetch, h, fetchTurn]

theorem step_reset (h : s.agenda = .reset :: rest) :
    step s = .next ({ s with agenda := rest } : State).hardReset := by
  simp [step, fetch, h, fetchTurn]

theorem step_host {a : BusAccess} (h : s.agenda = .host a :: rest) (hd : decodeBus a = .ok i) :
    step s = exec i { s with agenda := rest } := by
  simp [step, fetch, h, fetchTurn, hd]

theorem step_host_illegal {a : BusAccess} {x : Reject} (h : s.agenda = .host a :: rest) (hd : decodeBus a = .error x) :
    step s = .refused .illegalHostAccess := by
  simp [step, fetch, h, fetchTurn, hd]

theorem step_micro {w : UopWord} (h : s.agenda = .micro w :: rest) (hd : decodeU8 w = .ok i) :
    step s = exec i { s with agenda := rest } := by
  simp [step, fetch, h, fetchTurn, hd]

theorem step_command {w : CmdWord} (h : s.agenda = .command w :: rest) (hu : s.unit = .idle) (hd : decodeCmd16 w = .ok i) :
    step s = exec i { s with agenda := rest } := by
  simp [step, fetch, h, fetchTurn, fetchCommand, hu, hd]

theorem step_command_illegal {w : CmdWord} {x : Reject} (h : s.agenda = .command w :: rest) (hu : s.unit = .idle)
    (hd : decodeCmd16 w = .error x) :
    step s = .next (({ s with agenda := rest } : State).accept w).rejectCommand := by
  simp [step, fetch, h, fetchTurn, fetchCommand, hu, hd]

theorem step_command_busy {w : CmdWord} (h : s.agenda = .command w :: rest) (hu : s.unit ≠ .idle) :
    step s = .refused .commandWhileBusy := by
  cases hc : s.unit with
  | idle => exact absurd hc hu
  | encoding e => simp [step, fetch, h, fetchTurn, fetchCommand, hc]
  | decoding d => simp [step, fetch, h, fetchTurn, fetchCommand, hc]

end

/-- Settles O7: one equation of the step for each turn that brings a word. -/
theorem stepRunsDecodedInstruction : Obligations.StepRunsDecodedInstruction :=
  fun _ _ _ => ⟨fun _ h hd => step_host h hd, fun _ h hd => step_micro h hd, fun _ h hu hd => step_command h hu hd⟩

/-! ### The sequencer at SEQ (R130, R160) -/

section
variable {s : State} {w : UopWord} {i : Instr}

theorem seqAction_idle (hu : s.unit = .idle) : seqAction s = .rest := by simp [seqAction, hu]

theorem seqAction_encoding {e : EncCall} (hu : s.unit = .encoding e) : seqAction s = encoderAction e := by
  simp [seqAction, hu]

theorem seqAction_decoding {d : DecCall} (hu : s.unit = .decoding d) : seqAction s = decoderAction d := by
  simp [seqAction, hu]

theorem sequencerStep_idle (hu : s.unit = .idle) : sequencerStep s = .next s := by
  simp [sequencerStep, seqAction_idle hu]

theorem sequencerStep_issue (h : seqAction s = .issue w) : sequencerStep s = issueMicro w s := by
  simp [sequencerStep, h]

theorem issueMicro_of_exec_next {t : State} (hd : decodeU8 w = .ok i) (h : exec i s = .next t) :
    issueMicro w s = .next t.advance := by
  simp [issueMicro, hd, execMicro_eq_exec hd, h]

theorem issueMicro_of_exec_fault {g : Fault} (hd : decodeU8 w = .ok i) (h : exec i s = .fault g) :
    issueMicro w s = .fault g := by
  simp [issueMicro, hd, execMicro_eq_exec hd, h]

/-- Everything a step of the sequencer can do: rest in IDLE, run the micro-operation of SEQ's position and move SEQ on, take
the next payload byte, or leave PAYLOAD. -/
theorem sequencerStep_next {t : State} (h : sequencerStep s = .next t) :
    (seqAction s = .rest ∧ t = s) ∨
    (∃ w i t', seqAction s = .issue w ∧ decodeU8 w = .ok i ∧ exec i s = .next t' ∧ t = t'.advance) ∨
    (∃ e v, seqAction s = .load e ∧ bufByte s.mem .tx e.eIdx.toNat = some v ∧
      t = { s with unit := .encoding { e with eByte := some v } }) ∨
    (∃ e, seqAction s = .endPayload e ∧ t = { s with unit := .encoding { e with ePhase := .endFlag } }) := by
  cases ha : seqAction s with
  | rest =>
    simp only [sequencerStep, ha] at h
    exact .inl ⟨rfl, (Host.Outcome.next.inj h).symm⟩
  | issue w =>
    rw [sequencerStep_issue ha] at h
    cases hd : decodeU8 w with
    | error x => simp [issueMicro, hd] at h
    | ok i =>
      obtain ⟨t', hx, ht⟩ := issueMicro_next hd h
      exact .inr (.inl ⟨w, i, t', rfl, hd, execMicro_eq_exec hd s ▸ hx, ht⟩)
  | load e =>
    simp only [sequencerStep, ha] at h
    split at h
    · split at h
      · cases h
      · rename_i v hv
        exact .inr (.inr (.inl ⟨e, v, rfl, hv, (Host.Outcome.next.inj h).symm⟩))
    · cases h
  | endPayload e =>
    simp only [sequencerStep, ha] at h
    exact .inr (.inr (.inr ⟨e, rfl, (Host.Outcome.next.inj h).symm⟩))
  | halted => simp [sequencerStep, ha] at h

end

theorem uopWord_encPayloadBit (b : Bit) : uopWord 0x4 b = 0x40 ||| BitVec.zeroExtend 8 (BitVec.ofBool b) := by
  cases b <;> rfl

/-- Settles O8: the sequencer's step runs the word that SEQ's position issues, and the word at each position is read off
`encoderAction` and `decoderAction`. -/
theorem sequencerIssuesAtSeq : Obligations.SequencerIssuesAtSeq := by
  refine ⟨fun s w i ha hact hd => ?_, fun s rest ha => step_unit ha, fun s ha => step_nil ha, fun s e hu => ?_,
    fun s d hu => ?_⟩
  · rw [step_nil ha, sequencerStep_issue hact]
    exact ⟨fun t => issueMicro_of_exec_next hd, fun g => issueMicro_of_exec_fault hd⟩
  · rw [seqAction_encoding hu]
    refine ⟨fun hp => ?_, fun v hp hlt hv => ?_, fun hp => ?_, fun hp => ?_⟩
    · simp only [encoderAction, hp]; rfl
    · simp only [encoderAction, hp, if_pos hlt, hv, uopWord_encPayloadBit]
    · simp only [encoderAction, hp]; rfl
    · simp only [encoderAction, hp]; rfl
  · rw [seqAction_decoding hu]
    refine ⟨fun hs => ?_, fun hs => ?_, fun hs => ?_, fun hs => ?_, fun hs => ?_⟩ <;>
      simp only [decoderAction, hs] <;> rfl

/-! ### Reset (R42, R250) -/

theorem bufByte_nil (buf : Buf) (i : Nat) : bufByte [] buf i = none := by simp [bufByte, memRead]

/-- Settles O11: the reset state and `hardReset` have the same unit-level registers and the same empty buffers. -/
theorem resetState : Obligations.ResetState :=
  ⟨⟨rfl, rfl, by decide, rfl, bufByte_nil⟩, fun _ _ h =>
    ⟨_, step_reset h, rfl, rfl, (by decide : Status.zero.word = 0), rfl, bufByte_nil, rfl, rfl, rfl⟩⟩

end Sys2Proof.Machine
end

section
/-! PROOFS. The invariant of the machine: it holds at reset and at every launch, every turn's step keeps it, and it fixes the
STATUS word of a busy unit. -/

namespace Sys2Proof.Machine

/-! ### Reset and launch -/

theorem Status.zero_ok : Status.zero.Ok .idle :=
  ⟨rfl, by simp [Status.zero], fun _ => ⟨rfl, rfl⟩, fun _ => rfl, by simp [Status.zero]⟩

theorem State.start_inv (tx : List TxAnswer) (rx : List RxAnswer) {agenda : List Turn} (h : ∀ w, Turn.micro w ∉ agenda) :
    (State.start tx rx agenda).Inv where
  mem := by simp [State.start, State.reset, Memory.wf]
  call := trivial
  status := Status.zero_ok
  curCmd := rfl
  outstanding := trivial
  noMicro := h

/-- Settles O49: the reset state is the start with no answers and an empty agenda. -/
theorem invariantAtReset : Obligations.InvariantAtReset :=
  ⟨State.start_inv [] [] (agenda := []) (by simp), fun tx rx _ h => State.start_inv tx rx h⟩

/-! ### STATUS of a busy unit (R66) -/

theorem Status.Ok.eq_of_busy {t : Status} {u : UnitState} (h : t.Ok u) (hu : u.isIdle = false) :
    t = { busy := true, done := false, kind := .ok, count := 0 } := by
  have hb : t.busy = true := by rw [h.busy, hu]; rfl
  have hd := h.notBoth hb
  obtain ⟨hk, hc⟩ := h.noResult hd
  cases t
  simp_all

/-- Settles O51: the invariant fixes all four fields of STATUS while the unit is not IDLE. -/
theorem busyStatus : Obligations.BusyStatus := by
  intro s h hu
  have hb : s.unit.isIdle = false := by rwa [← Bool.not_eq_true, UnitState.isIdle_iff]
  rw [h.status.eq_of_busy hb]
  decide

/-! ### Host accesses and commands keep the invariant -/

section
variable {s : State} (h : s.Inv)
include h

theorem State.Inv.setMem {m : List Host.Cell} (hm : Memory.wf m) : ({ s with mem := m } : State).Inv :=
  { h with mem := hm }

theorem State.Inv.hostReturn (v : BusValue) : (s.hostReturn v).Inv := { h with }

theorem State.Inv.dispatch (hu : s.unit = .idle) (w : CmdWord) : ((s.accept w).dispatch w).Inv := by
  unfold State.dispatch
  split
  · rename_i hd
    exact h.startEncode hu (decodeCmd16_encode hd)
  · rename_i hd
    rw [decodeCmd16_decode hd]
    exact h.startDecode hu
  · exact h.rejectCommand w
  · exact h.rejectCommand w

theorem State.Inv.whenIdle_readBuf {t : State} {buf : Buf} {i : Nat} (ht : s.whenIdle (s.readBuf buf i) = .next t) :
    t.Inv := by
  obtain ⟨v, -, rfl⟩ := State.readBuf_next (State.whenIdle_next ht).2
  exact h.hostReturn _

/-- Every instruction that is no micro-operation keeps the invariant. -/
theorem exec_inv {t : State} {i : Instr} (hi : ¬MicroInstr i) (ht : exec i s = .next t) : t.Inv := by
  cases i with
  | encode len => exact execEncode_inv h ht
  | decode => exact execDecode_inv h ht
  | wr8Tx i v =>
    obtain ⟨-, m, hm, rfl⟩ := execWr8Tx_next ht
    obtain ⟨-, -, -, -, hwf⟩ := bufWrite_some hm
    exact h.setMem (hwf h.mem)
  | rd8Tx i => exact h.whenIdle_readBuf ht
  | rd8Rx i => exact h.whenIdle_readBuf ht
  | wr16Cmd w =>
    obtain ⟨hu, rfl⟩ := execWr16Cmd_next ht
    exact h.dispatch hu w
  | rd32Status => exact Host.Outcome.next.inj ht ▸ h.hostReturn _
  | _ => exact absurd trivial hi

/-! ### A turn of the agenda -/

theorem State.Inv.setAgenda {agenda : List Turn} (ha : ∀ w, Turn.micro w ∉ agenda) :
    ({ s with agenda := agenda } : State).Inv := { h with noMicro := ha }

theorem State.Inv.nextTurn {turn : Turn} {rest : List Turn} (ha : s.agenda = turn :: rest) :
    ({ s with agenda := rest } : State).Inv :=
  h.setAgenda fun w hw => h.noMicro w (ha ▸ List.mem_cons_of_mem _ hw)

theorem State.Inv.hardReset : s.hardReset.Inv where
  mem := by simp [Memory.wf]
  call := trivial
  status := Status.zero_ok
  curCmd := rfl
  outstanding := trivial
  noMicro := h.noMicro

end

/-- A host access is no micro-operation (R94). -/
theorem decodeBus_not_micro {a : BusAccess} {i : Instr} (h : decodeBus a = .ok i) : ¬MicroInstr i := by
  cases a with
  | rd w addr =>
    cases w with
    | w8 => simp only [decodeBus] at h; split_ifs at h <;> cases h <;> exact id
    | w16 => cases h
    | w32 => simp only [decodeBus] at h; split_ifs at h; cases h; exact id
  | wr8 addr v => simp only [decodeBus] at h; split_ifs at h; cases h; exact id
  | wr16 addr v => simp only [decodeBus] at h; split_ifs at h; cases h; exact id
  | wr32 addr v => cases h

/-- A command word is no micro-operation (R87). -/
theorem decodeCmd16_not_micro {w : CmdWord} {i : Instr} (h : decodeCmd16 w = .ok i) : ¬MicroInstr i := by
  unfold decodeCmd16 at h
  split_ifs at h <;> cases h <;> exact id

/-- Settles O48, by the turn that the step takes: a host access, a sequencer step, RESET or a command; the invariant
itself excludes a micro-operation from outside. -/
theorem stepKeepsInvariant : Obligations.StepKeepsInvariant := by
  intro s t h ht
  cases ha : s.agenda with
  | nil => exact sequencerStep_inv h (step_nil ha ▸ ht)
  | cons turn rest =>
    have h' := h.nextTurn ha
    cases turn with
    | unit => exact sequencerStep_inv h' (step_unit ha ▸ ht)
    | reset =>
      rw [step_reset ha] at ht
      exact Host.Outcome.next.inj ht ▸ h'.hardReset
    | host a =>
      cases hd : decodeBus a with
      | ok i => exact exec_inv h' (decodeBus_not_micro hd) (step_host ha hd ▸ ht)
      | error x => simp [step_host_illegal ha hd] at ht
    | command w =>
      by_cases hu : s.unit = .idle
      · cases hd : decodeCmd16 w with
        | ok i => exact exec_inv h' (decodeCmd16_not_micro hd) (step_command ha hu hd ▸ ht)
        | error x =>
          rw [step_command_illegal ha hu hd] at ht
          exact Host.Outcome.next.inj ht ▸ h'.rejectCommand w
      · simp [step_command_busy ha hu] at ht
    | micro w => exact absurd (ha ▸ List.mem_cons_self ..) (h.noMicro w)

end Sys2Proof.Machine
end

section
/-! PROOFS. STATUS in a step of the sequencer (R39): kept, or that of a completion. -/

namespace Sys2Proof.Machine

/-- A command has just ended (R220): IDLE, DONE = 1, BUSY = 0, and COUNT = 0 unless KIND = OK. -/
structure State.JustEnded (t : State) : Prop where
  unit : t.unit = .idle
  done : t.status.done = true
  busy : t.status.busy = false
  errorCount : t.status.kind ≠ .ok → t.status.count = 0

theorem State.completed_zero_justEnded (s : State) (k : Kind) : (s.completed k 0).JustEnded := ⟨rfl, rfl, rfl, fun _ => rfl⟩

theorem State.finish_ok_justEnded (s : State) (c : BitVec 9) : (s.finish .ok c).JustEnded :=
  ⟨rfl, rfl, rfl, fun hk => absurd rfl hk⟩

theorem State.onEncoder_status {s t : State} {f : EncCall → TxPort → Flow (EncCall × TxPort)}
    (h : s.onEncoder f = .next t) : t.status = s.status ∨ t.JustEnded := by
  obtain ⟨e, -, ⟨_, _, -, rfl⟩ | ⟨_, -, rfl⟩ | ⟨k, _, _, -, rfl⟩⟩ := State.onEncoder_next h
  · exact .inl rfl
  · exact .inl rfl
  · exact .inr (State.completed_zero_justEnded _ k)

theorem State.onDecoder_status {s t : State} {f : DecCall → RxPort → Flow (DecCall × RxPort)}
    (h : s.onDecoder f = .next t) : t.status = s.status ∨ t.JustEnded := by
  obtain ⟨d, -, ⟨_, _, -, rfl⟩ | ⟨_, -, rfl⟩ | ⟨k, _, _, -, rfl⟩⟩ := State.onDecoder_next h
  · exact .inl rfl
  · exact .inl rfl
  · exact .inr (State.completed_zero_justEnded _ k)

/-- PACK, where it goes on, completes with OK (R177). -/
theorem execPack_justEnded {s t : State} (h : execPack s = .next t) : t.JustEnded := by
  unfold execPack at h
  repeat' split at h
  all_goals cases h
  exact State.finish_ok_justEnded _ _

/-- A micro-operation keeps STATUS or ends the command. -/
theorem exec_micro_status {s t : State} {i : Instr} (hi : MicroInstr i) (h : exec i s = .next t) :
    t.status = s.status ∨ t.JustEnded := by
  cases i with
  | writeBit b => exact State.onEncoder_status h
  | writeFlag => exact State.onEncoder_status h
  | padOnes => exact State.onEncoder_status h
  | encPayloadBit b => exact State.onEncoder_status h
  | readBit => exact State.onDecoder_status h
  | seekStep => exact State.onDecoder_status h
  | captureStep => exact State.onDecoder_status h
  | destuffStep => exact State.onDecoder_status h
  | validate => exact State.onDecoder_status h
  | pack => exact .inr (execPack_justEnded h)
  | _ => exact hi.elim

theorem State.advance_of_idle {t : State} (hu : t.unit = .idle) : t.advance = t := by
  unfold State.advance
  rw [hu]
  split <;> rfl

/-- SEQ's move keeps STATUS, but for the completion after PAD (R130). -/
theorem State.advance_status (t : State) : t.advance.status = t.status ∨ t.advance.JustEnded := by
  unfold State.advance
  split
  · exact .inl rfl
  · split
    · exact .inl rfl
    · exact .inl rfl
    · split
      · exact .inr (State.finish_ok_justEnded _ _)
      · exact .inl rfl

/-- Settles O54: the micro-operation that SEQ issues keeps STATUS or ends the command, and so does SEQ's move after it; the
sequencer's other steps keep STATUS. -/
theorem statusChangesOnlyAtCompletion : Obligations.StatusChangesOnlyAtCompletion := by
  intro s t h
  by_cases hu : s.unit = .idle
  · rw [sequencerStep_idle hu] at h
    exact .inl (congrArg State.status (Host.Outcome.next.inj h).symm)
  suffices t.status = s.status ∨ t.JustEnded from
    this.imp_right fun he => ⟨hu, he.unit, he.done, he.busy, he.errorCount⟩
  rcases sequencerStep_next h with ⟨-, rfl⟩ | ⟨w, i, t', -, hd, hx, rfl⟩ | ⟨e, v, -, -, rfl⟩ | ⟨e, -, rfl⟩
  · exact .inl rfl
  · rcases exec_micro_status (decodeU8_micro hd) hx with hs | he
    · exact hs ▸ t'.advance_status
    · rw [State.advance_of_idle he.unit]
      exact .inr he
  · exact .inl rfl
  · exact .inl rfl

end Sys2Proof.Machine
end

section
/-! PROOFS. Which agent touches which buffer and which port (R52, R54, R57, R161): the frame of an ENCODE, of a DECODE and of a
host access. -/

namespace Sys2Proof.Machine

/-! ### The micro-operations by the port they run on -/

/-- Every micro-operation but PACK runs on the transmit port, with an ENCODE's state, or on the receive port, with a DECODE's. -/
theorem MicroInstr.runsOn {i : Instr} (hi : MicroInstr i) :
    (∃ f, ∀ s, exec i s = s.onEncoder f) ∨ (∃ f, ∀ s, exec i s = s.onDecoder f) ∨ i = .pack := by
  cases i with
  | writeBit b => exact .inl ⟨_, fun _ => rfl⟩
  | writeFlag => exact .inl ⟨_, fun _ => rfl⟩
  | padOnes => exact .inl ⟨_, fun _ => rfl⟩
  | encPayloadBit b => exact .inl ⟨_, fun _ => rfl⟩
  | readBit => exact .inr (.inl ⟨_, fun _ => rfl⟩)
  | seekStep => exact .inr (.inl ⟨_, fun _ => rfl⟩)
  | captureStep => exact .inr (.inl ⟨_, fun _ => rfl⟩)
  | destuffStep => exact .inr (.inl ⟨_, fun _ => rfl⟩)
  | validate => exact .inr (.inl ⟨_, fun _ => rfl⟩)
  | pack => exact .inr (.inr rfl)
  | _ => exact hi.elim

/-- Everything PACK can do: bytes of RX_BUF are written, from the first one on, and the command completes with OK. -/
theorem execPack_writes {s t : State} (h : execPack s = .next t) :
    ∃ d vs m n, s.unit = .decoding d ∧ bufWriteAll s.mem .rx 0 vs = some m ∧
      t = ({ s with mem := m } : State).completed .ok n := by
  unfold execPack at h
  repeat' split at h
  all_goals cases h
  exact ⟨_, _, _, _, ‹_›, ‹_›, rfl⟩

/-- A payload byte or the end of the payload is ENCODE's alone (R130). -/
theorem seqAction_ne_load_endPayload {s : State} (hu : ∀ e, s.unit ≠ .encoding e) (e : EncCall) :
    seqAction s ≠ .load e ∧ seqAction s ≠ .endPayload e := by
  cases hc : s.unit with
  | idle => simp [seqAction_idle hc]
  | encoding e' => exact absurd hc (hu e')
  | decoding d =>
    rw [seqAction_decoding hc, decoderAction]
    cases d.dState <;> simp

/-- Everything SEQ's move can do: it moves on in an ENCODE that does not wait, or completes it after PAD, and does nothing
else. -/
theorem State.advance_cases (t : State) :
    t.advance = t ∨ t.outstanding = none ∧ ∃ e, t.unit = .encoding e ∧
      (t.advance = t.finish .ok e.eLen ∨ t.advance = { t with unit := .encoding e.advance }) := by
  unfold State.advance
  split
  · exact .inl rfl
  · rename_i ho
    split
    · exact .inl rfl
    · exact .inl rfl
    · rename_i e hu
      refine .inr ⟨ho, e, hu, ?_⟩
      split
      · exact .inl rfl
      · exact .inr rfl

theorem State.advance_of_not_encoding {t : State} (hu : ∀ e, t.unit ≠ .encoding e) : t.advance = t := by
  rcases t.advance_cases with h | ⟨-, e, he, -⟩
  · exact h
  · exact absurd he (hu e)

/-- What is kept by every step of the sequencer is kept by a run of it. -/
theorem runSequencer_keeps {P : State → Prop} (hstep : ∀ {s t}, P s → sequencerStep s = .next t → P t) {n : Nat}
    {s t : State} (h : P s) (ht : runSequencer n s = .next t) : P t := by
  induction n generalizing s with
  | zero => exact Host.Outcome.next.inj ht ▸ h
  | succ n ih =>
    unfold runSequencer at ht
    split at ht
    · exact Host.Outcome.next.inj ht ▸ h
    · split at ht
      · rename_i t' hs
        split at ht
        · exact Host.Outcome.next.inj ht ▸ hstep h hs
        · exact ih (hstep h hs) ht
      · cases ht
      · cases ht

/-! ### ENCODE (R52, R54, R57, R134) -/

/-- What an ENCODE and its micro-operations leave alone: the buffers and the receive port. -/
structure State.EncodeFrame (s t : State) : Prop where
  mem : t.mem = s.mem
  rx : t.rx = s.rx
  unit : ∀ d, t.unit ≠ .decoding d

theorem State.EncodeFrame.trans {s t u : State} (h : s.EncodeFrame t) (h' : t.EncodeFrame u) : s.EncodeFrame u :=
  ⟨h'.mem.trans h.mem, h'.rx.trans h.rx, h'.unit⟩

theorem State.EncodeFrame.advance {s t : State} (h : s.EncodeFrame t) : s.EncodeFrame t.advance := by
  rcases t.advance_cases with ht | ⟨-, e, -, ht | ht⟩ <;> rw [ht]
  · exact h
  · exact ⟨h.mem, h.rx, by simp⟩
  · exact ⟨h.mem, h.rx, by simp⟩

theorem State.onEncoder_frame {s t : State} {f : EncCall → TxPort → Flow (EncCall × TxPort)} (h : s.onEncoder f = .next t) :
    s.EncodeFrame t := by
  obtain ⟨e, hu, ⟨_, _, -, rfl⟩ | ⟨_, -, rfl⟩ | ⟨_, _, _, -, rfl⟩⟩ := State.onEncoder_next h
  · exact ⟨rfl, rfl, by simp⟩
  · exact ⟨rfl, rfl, by simp [hu]⟩
  · exact ⟨rfl, rfl, by simp⟩

/-- While no DECODE is in progress a micro-operation that goes on is one of ENCODE's. -/
theorem exec_micro_encodeFrame {s t : State} {i : Instr} (hi : MicroInstr i) (hu : ∀ d, s.unit ≠ .decoding d)
    (h : exec i s = .next t) : s.EncodeFrame t := by
  rcases hi.runsOn with ⟨f, hf⟩ | ⟨f, hf⟩ | rfl
  · exact State.onEncoder_frame (hf s ▸ h)
  · obtain ⟨d, hd, -⟩ := State.onDecoder_next (hf s ▸ h)
    exact absurd hd (hu d)
  · obtain ⟨d, _, _, _, hd, -⟩ := execPack_writes h
    exact absurd hd (hu d)

theorem sequencerStep_encodeFrame {s t : State} (hu : ∀ d, s.unit ≠ .decoding d) (h : sequencerStep s = .next t) :
    s.EncodeFrame t := by
  rcases sequencerStep_next h with ⟨-, rfl⟩ | ⟨w, i, t', -, hd, hx, rfl⟩ | ⟨e, v, -, -, rfl⟩ | ⟨e, -, rfl⟩
  · exact ⟨rfl, rfl, hu⟩
  · exact (exec_micro_encodeFrame (decodeU8_micro hd) hu hx).advance
  · exact ⟨rfl, rfl, by simp⟩
  · exact ⟨rfl, rfl, by simp⟩

theorem State.startEncode_frame {s : State} (hu : s.unit = .idle) (w : CmdWord) (n : Nat) :
    s.EncodeFrame ((s.accept w).startEncode n) := by
  unfold State.startEncode
  repeat' split
  · exact ⟨rfl, rfl, by simp⟩
  · exact ⟨rfl, rfl, by simp [hu]⟩
  · exact ⟨rfl, rfl, by simp⟩

theorem execEncode_frame {s t : State} {n : Nat} (h : execEncode n s = .next t) : s.EncodeFrame t := by
  unfold execEncode at h
  split at h
  · rename_i hu
    exact runSequencer_keeps (fun hs hx => hs.trans (sequencerStep_encodeFrame hs.unit hx)) (State.startEncode_frame hu _ n) h
  · cases h
  · cases h

/-! ### DECODE (R54, R161, R234) -/

/-- What a DECODE and its micro-operations leave alone: TX_BUF and the transmit port, and RX_BUF too unless the command has
completed with OK. -/
structure State.DecodeFrame (s t : State) : Prop where
  tx : t.tx = s.tx
  txBuf : ∀ k, bufByte t.mem .tx k = bufByte s.mem .tx k
  mem : ¬(t.unit = .idle ∧ t.status.done = true ∧ t.status.kind = .ok) → t.mem = s.mem
  unit : ∀ e, t.unit ≠ .encoding e

/-- A DECODE that goes on has not completed, so that its steps add up. -/
theorem State.DecodeFrame.trans {s t u : State} (h : s.DecodeFrame t) (hu : t.unit ≠ .idle) (h' : t.DecodeFrame u) :
    s.DecodeFrame u where
  tx := h'.tx.trans h.tx
  txBuf k := (h'.txBuf k).trans (h.txBuf k)
  mem hk := (h'.mem hk).trans (h.mem fun hd => hu hd.1)
  unit := h'.unit

theorem State.onDecoder_frame {s t : State} {f : DecCall → RxPort → Flow (DecCall × RxPort)} (h : s.onDecoder f = .next t) :
    s.DecodeFrame t := by
  obtain ⟨d, hu, ⟨_, _, -, rfl⟩ | ⟨_, -, rfl⟩ | ⟨_, _, _, -, rfl⟩⟩ := State.onDecoder_next h
  · exact ⟨rfl, fun _ => rfl, fun _ => rfl, by simp⟩
  · exact ⟨rfl, fun _ => rfl, fun _ => rfl, by simp [hu]⟩
  · exact ⟨rfl, fun _ => rfl, fun _ => rfl, by simp⟩

/-- Writes to RX_BUF leave TX_BUF alone: its addresses are the lower ones (R61). -/
theorem bufByte_tx_of_bufWriteAll_rx {m m' : List Host.Cell} {i : Nat} {vs : List Byte}
    (h : bufWriteAll m .rx i vs = some m') (k : Nat) : bufByte m' .tx k = bufByte m .tx k := by
  obtain ⟨-, hframe, -⟩ := bufWriteAll_some h
  unfold bufByte
  split
  · rename_i hk
    refine hframe _ (.inl ?_)
    simp only [Buf.base, Config.txBase, Config.rxBase, Config.bufBytes] at hk ⊢
    omega
  · rfl

theorem execPack_frame {s t : State} (h : execPack s = .next t) : s.DecodeFrame t := by
  obtain ⟨d, vs, m, n, -, hm, rfl⟩ := execPack_writes h
  exact ⟨rfl, bufByte_tx_of_bufWriteAll_rx hm, fun hk => absurd ⟨rfl, rfl, rfl⟩ hk, by simp⟩

/-- While no ENCODE is in progress a micro-operation that goes on is one of DECODE's. -/
theorem exec_micro_decodeFrame {s t : State} {i : Instr} (hi : MicroInstr i) (hu : ∀ e, s.unit ≠ .encoding e)
    (h : exec i s = .next t) : s.DecodeFrame t := by
  rcases hi.runsOn with ⟨f, hf⟩ | ⟨f, hf⟩ | rfl
  · obtain ⟨e, he, -⟩ := State.onEncoder_next (hf s ▸ h)
    exact absurd he (hu e)
  · exact State.onDecoder_frame (hf s ▸ h)
  · exact execPack_frame h

theorem sequencerStep_decodeFrame {s t : State} (hu : ∀ e, s.unit ≠ .encoding e) (h : sequencerStep s = .next t) :
    s.DecodeFrame t := by
  rcases sequencerStep_next h with ⟨-, rfl⟩ | ⟨w, i, t', -, hd, hx, rfl⟩ | ⟨e, v, ha, -, -⟩ | ⟨e, ha, -⟩
  · exact ⟨rfl, fun _ => rfl, fun _ => rfl, hu⟩
  · have hframe := exec_micro_decodeFrame (decodeU8_micro hd) hu hx
    rwa [State.advance_of_not_encoding hframe.unit]
  · exact absurd ha (seqAction_ne_load_endPayload hu e).1
  · exact absurd ha (seqAction_ne_load_endPayload hu e).2

theorem State.startDecode_frame (s : State) (w : CmdWord) : s.DecodeFrame (s.accept w).startDecode :=
  ⟨rfl, fun _ => rfl, fun _ => rfl, by simp [State.startDecode]⟩

theorem execDecode_frame {s t : State} (h : execDecode s = .next t) : s.DecodeFrame t := by
  unfold execDecode at h
  split at h
  · refine runSequencer_keeps (P := s.DecodeFrame) (fun {a b} hs hx => ?_) (s.startDecode_frame _) h
    by_cases hi : a.unit = .idle
    · rw [sequencerStep_idle hi] at hx
      exact Host.Outcome.next.inj hx ▸ hs
    · exact hs.trans hi (sequencerStep_decodeFrame hs.unit hx)
  · cases h
  · cases h

/-! ### Host accesses (R57, R200 to R208) -/

/-- What a host access leaves alone: the ports and the agenda. -/
structure State.HostFrame (s t : State) : Prop where
  rx : t.rx = s.rx
  tx : t.tx = s.tx
  agenda : t.agenda = s.agenda

theorem State.startEncode_hostFrame (s : State) (n : Nat) :
    s.HostFrame (s.startEncode n) ∧ (s.startEncode n).mem = s.mem := by
  unfold State.startEncode
  repeat' split
  all_goals exact ⟨⟨rfl, rfl, rfl⟩, rfl⟩

theorem State.dispatch_hostFrame (s : State) (w : CmdWord) :
    s.HostFrame (s.dispatch w) ∧ (s.dispatch w).mem = s.mem := by
  unfold State.dispatch
  split
  · exact s.startEncode_hostFrame _
  · exact ⟨⟨rfl, rfl, rfl⟩, rfl⟩
  · exact ⟨⟨rfl, rfl, rfl⟩, rfl⟩
  · exact ⟨⟨rfl, rfl, rfl⟩, rfl⟩

theorem execWr16Cmd_frame {s t : State} {w : CmdWord} (h : execWr16Cmd w s = .next t) :
    s.HostFrame t ∧ t.mem = s.mem := by
  obtain ⟨-, rfl⟩ := execWr16Cmd_next h
  obtain ⟨⟨hrx, htx, hagenda⟩, hmem⟩ := (s.accept w).dispatch_hostFrame w
  exact ⟨⟨hrx, htx, hagenda⟩, hmem⟩

theorem State.hostReturn_frame (s : State) (v : BusValue) : s.HostFrame (s.hostReturn v) ∧ (s.hostReturn v).mem = s.mem :=
  ⟨⟨rfl, rfl, rfl⟩, rfl⟩

theorem readBuf_frame {s t : State} {buf : Buf} {i : Nat} (h : s.whenIdle (s.readBuf buf i) = .next t) :
    s.HostFrame t ∧ t.mem = s.mem := by
  obtain ⟨v, -, rfl⟩ := State.readBuf_next (State.whenIdle_next h).2
  exact s.hostReturn_frame _

theorem execRd32Status_frame {s t : State} (h : execRd32Status s = .next t) : s.HostFrame t ∧ t.mem = s.mem :=
  Host.Outcome.next.inj h ▸ s.hostReturn_frame _

/-- WR8 TX leaves RX_BUF alone: its addresses are the higher ones (R61). -/
theorem execWr8Tx_frame {s t : State} {i : Nat} {v : Byte} (h : execWr8Tx i v s = .next t) :
    s.HostFrame t ∧ ∀ k, bufByte t.mem .rx k = bufByte s.mem .rx k := by
  obtain ⟨-, m, hm, rfl⟩ := execWr8Tx_next h
  obtain ⟨hi, -, -, hframe, -⟩ := bufWrite_some hm
  refine ⟨⟨rfl, rfl, rfl⟩, fun k => ?_⟩
  unfold bufByte
  split
  · refine hframe _ ?_
    simp only [Buf.base, Config.txBase, Config.rxBase, Config.bufBytes] at hi ⊢
    omega
  · rfl

/-! ### Buffers and ports -/

/-- Every instruction but WR8 TX, PACK and DECODE leaves both buffers as they were. -/
theorem exec_mem {s t : State} {i : Instr} (hw : ∀ j v, i ≠ .wr8Tx j v) (hp : i ≠ .pack) (hd : i ≠ .decode)
    (h : exec i s = .next t) : t.mem = s.mem := by
  by_cases hi : MicroInstr i
  · rcases hi.runsOn with ⟨f, hf⟩ | ⟨f, hf⟩ | rfl
    · exact (State.onEncoder_frame (hf s ▸ h)).mem
    · obtain ⟨d, -, ⟨_, _, -, rfl⟩ | ⟨_, -, rfl⟩ | ⟨_, _, _, -, rfl⟩⟩ := State.onDecoder_next (hf s ▸ h) <;> rfl
    · exact absurd rfl hp
  · cases i with
    | encode n => exact (execEncode_frame h).mem
    | decode => exact absurd rfl hd
    | wr8Tx j v => exact absurd rfl (hw j v)
    | rd8Tx j => exact (readBuf_frame h).2
    | rd8Rx j => exact (readBuf_frame h).2
    | wr16Cmd w => exact (execWr16Cmd_frame h).2
    | rd32Status => exact (execRd32Status_frame h).2
    | _ => exact absurd trivial hi

/-- Settles O52: PACK and DECODE have the frame of a DECODE, WR8 TX its own, and every other instruction keeps the memory. -/
theorem whoWritesTheBuffers : Obligations.WhoWritesTheBuffers := by
  intro i s t h
  have hdec : i = .pack ∨ i = .decode → s.DecodeFrame t := by
    rintro (rfl | rfl)
    · exact execPack_frame h
    · exact execDecode_frame h
  refine ⟨fun hw k => ?_, fun hi => (hdec hi).mem, fun hp hd k => ?_⟩
  · by_cases hi : i = .pack ∨ i = .decode
    · exact (hdec hi).txBuf k
    · rw [exec_mem hw (fun hp => hi (.inl hp)) (fun hd => hi (.inr hd)) h]
  · by_cases hw : ∃ j v, i = .wr8Tx j v
    · obtain ⟨j, v, rfl⟩ := hw
      exact (execWr8Tx_frame h).2 k
    · rw [exec_mem (fun j v he => hw ⟨j, v, he⟩) hp hd h]

/-- Settles O53, by the frame of an ENCODE, of a DECODE and of a host access. -/
theorem portsAreKeptApart : Obligations.PortsAreKeptApart := by
  intro i s t h
  refine ⟨fun hi => ?_, fun hi => ?_, fun hi => ?_⟩
  · suffices s.EncodeFrame t from this.rx
    rcases hi with ⟨n, rfl⟩ | ⟨b, rfl⟩ | rfl | rfl | ⟨b, rfl⟩
    · exact execEncode_frame h
    all_goals exact State.onEncoder_frame h
  · suffices s.DecodeFrame t from this.tx
    simp only [List.mem_cons, List.not_mem_nil, or_false] at hi
    rcases hi with rfl | rfl | rfl | rfl | rfl | rfl | rfl
    · exact execDecode_frame h
    · exact State.onDecoder_frame h
    · exact State.onDecoder_frame h
    · exact State.onDecoder_frame h
    · exact State.onDecoder_frame h
    · exact State.onDecoder_frame h
    · exact execPack_frame h
  · suffices s.HostFrame t from ⟨this.rx, this.tx, this.agenda⟩
    rcases hi with ⟨j, v, rfl⟩ | ⟨j, rfl⟩ | ⟨j, rfl⟩ | ⟨w, rfl⟩ | rfl
    · exact (execWr8Tx_frame h).1
    · exact (readBuf_frame h).1
    · exact (readBuf_frame h).1
    · exact (execWr16Cmd_frame h).1
    · exact (execRd32Status_frame h).1

end Sys2Proof.Machine
end

section
/-! PROOFS. A request without an answer (R58, R59, R239): which byte it asks for, and that the unit waits for ever. -/

namespace Sys2Proof.Machine

/-! ### A waiting unit stays (R239, R259) -/

/-- SEQ's move changes nothing while a request is outstanding, and makes none. -/
theorem State.advance_outstanding (t : State) :
    (t.outstanding ≠ none → t.advance = t) ∧ (t.outstanding = none → t.advance.outstanding = none) := by
  rcases t.advance_cases with ht | ⟨ho, e, -, ht⟩
  · exact ⟨fun _ => ht, fun ho => ht.symm ▸ ho⟩
  · refine ⟨fun hn => absurd ho hn, fun _ => ?_⟩
    rcases ht with ht | ht <;> rw [ht]
    · rfl
    · exact ho

/-- A micro-operation that waits changes nothing but the request, and run again it waits on the same one. -/
theorem exec_micro_waits {s t : State} {i : Instr} (hi : MicroInstr i) (h : exec i s = .next t) :
    t.outstanding = none ∨ ∃ r, t = s.waiting r ∧ exec i t = .next t := by
  rcases hi.runsOn with ⟨f, hf⟩ | ⟨f, hf⟩ | rfl
  · obtain ⟨e, hu, ⟨_, _, -, rfl⟩ | ⟨r, hw, rfl⟩ | ⟨_, _, _, -, rfl⟩⟩ := State.onEncoder_next (hf s ▸ h)
    · exact .inl rfl
    · exact .inr ⟨r, rfl, (hf _).trans (State.onEncoder_wait (s := s.waiting r) hu hw)⟩
    · exact .inl rfl
  · obtain ⟨d, hu, ⟨_, _, -, rfl⟩ | ⟨r, hw, rfl⟩ | ⟨_, _, _, -, rfl⟩⟩ := State.onDecoder_next (hf s ▸ h)
    · exact .inl rfl
    · exact .inr ⟨r, rfl, (hf _).trans (State.onDecoder_wait (s := s.waiting r) hu hw)⟩
    · exact .inl rfl
  · obtain ⟨_, _, _, _, -, -, rfl⟩ := execPack_writes h
    exact .inl rfl

/-- A step of the sequencer that comes to a request changes nothing else, and the next step comes to the same state. -/
theorem sequencerStep_waits {s t : State} (ho : s.outstanding = none) (h : sequencerStep s = .next t)
    (hw : t.outstanding ≠ none) : ∃ r, t = s.waiting r ∧ sequencerStep t = .next t := by
  rcases sequencerStep_next h with ⟨-, rfl⟩ | ⟨w, i, t', ha, hd, hx, rfl⟩ | ⟨e, v, -, -, rfl⟩ | ⟨e, -, rfl⟩
  · exact absurd ho hw
  · obtain ⟨hstays, hquiet⟩ := t'.advance_outstanding
    rcases exec_micro_waits (decodeU8_micro hd) hx with hn | ⟨r, rfl, hx'⟩
    · exact absurd (hquiet hn) hw
    · have he : (s.waiting r).advance = s.waiting r := hstays (by simp)
      refine ⟨r, he, ?_⟩
      rw [he, sequencerStep_issue (s := s.waiting r) ha, issueMicro_of_exec_next hd hx', he]
  · exact absurd ho hw
  · exact absurd ho hw

/-- A state that a step leaves as it is stays for every number of steps. -/
theorem run_of_step_self {t : State} (h : step t = .next t) (k : Nat) : Host.Core.run Sys2Proof.core k t = .next t := by
  have hcore : Sys2Proof.core.step t = .next t := h
  induction k with
  | zero => rfl
  | succ k ih => simpa only [Host.Core.run, hcore] using ih

/-- Settles O59: the step that comes to the request and every step after it run the same micro-operation, which waits. -/
theorem unansweredRequestIsStuck : Obligations.UnansweredRequestIsStuck := by
  intro s t ha ho h hw
  obtain ⟨r, rfl, hself⟩ := sequencerStep_waits ho (step_nil ha ▸ h) hw
  exact ⟨rfl, rfl, run_of_step_self ((step_nil (s := s.waiting r) ha).trans hself)⟩

/-! ### The pending byte, written bit after bit (R110) -/

/-- The pending byte after bits have been written from position `i` downwards. -/
def setBitsFrom (v : Byte) (i : Nat) : List Bit → Byte
  | [] => v
  | b :: bs => setBitsFrom (setBit v i b) (i - 1) bs

theorem getLsbD_setBitsFrom (bs : List Bit) (v : Byte) {i k : Nat} (hi : i < 8) (hk : k < 8) (hl : bs.length ≤ i + 1) :
    (setBitsFrom v i bs).getLsbD k = if k ≤ i ∧ i < k + bs.length then bs.getD (i - k) false else v.getLsbD k := by
  induction bs generalizing v i with
  | nil => rw [setBitsFrom, List.length_nil, if_neg (by omega)]
  | cons b bs ih =>
    simp only [List.length_cons] at hl ⊢
    rw [setBitsFrom, ih _ (by omega) (by omega), getLsbD_setBit v b hi hk]
    by_cases hki : k = i
    · subst hki
      rw [if_neg (by omega), if_pos rfl, if_pos (by omega), Nat.sub_self, List.getD_cons_zero]
    · by_cases hlt : k ≤ i ∧ i < k + (bs.length + 1)
      · rw [if_pos (by omega), if_pos hlt, show i - k = i - 1 - k + 1 by omega, List.getD_cons_succ]
      · rw [if_neg (by omega), if_neg hki, if_neg hlt]

theorem byteBits_getD (v : Byte) {j : Nat} (hj : j < 8) : (byteBits v).getD j false = v.getLsbD (7 - j) := by
  interval_cases j <;> rfl

/-- The first bits of a byte, written over the pending byte from position `i` to the last one: the bits above `i` stay. -/
theorem setBitsFrom_byteBits (v f : Byte) {i : Nat} (hi : i < 8) :
    setBitsFrom v i ((byteBits f).take (i + 1)) = (v &&& (0xFF#8 <<< (i + 1))) ||| (f >>> (7 - i)) := by
  have hlen : ((byteBits f).take (i + 1)).length = i + 1 := by simp [byteBits]; omega
  refine BitVec.eq_of_getLsbD_eq fun k hk => ?_
  rw [getLsbD_setBitsFrom _ v hi hk hlen.le, hlen, BitVec.getLsbD_or, BitVec.getLsbD_and, BitVec.getLsbD_shiftLeft,
    BitVec.getLsbD_ushiftRight, show 0xFF#8 = BitVec.allOnes 8 from rfl, BitVec.getLsbD_allOnes]
  by_cases hki : k ≤ i
  · have hget : ((byteBits f).take (i + 1)).getD (i - k) false = (byteBits f).getD (i - k) false := by
      rw [List.getD_eq_getElem?_getD, List.getElem?_take_of_lt (by omega), ← List.getD_eq_getElem?_getD]
    rw [if_pos (by omega), hget, byteBits_getD f (by omega), show 7 - (i - k) = 7 - i + k by omega]
    simp [show k < i + 1 by omega]
  · have hout : f.getLsbD (7 - i + k) = false := BitVec.getLsbD_of_ge _ _ (by omega)
    rw [if_neg (by omega), hout]
    simp [hk, show ¬k < i + 1 by omega, show k - (i + 1) < 8 by omega]

/-- Bits that reach the pending byte's last position, but do not fill it, ask nothing of the channel. -/
theorem writeBitsOn_to_last (bs cs : List Bit) (e : EncCall) (p : TxPort) (h : bs.length = e.wPos.toNat) :
    writeBitsOn (bs ++ cs) e p =
      writeBitsOn cs { e with wByte := setBitsFrom e.wByte e.wPos.toNat bs, wPos := 0 } p := by
  induction bs generalizing e with
  | nil =>
    have h0 : e.wPos = 0 := BitVec.eq_of_toNat_eq (by simpa using h.symm)
    simp only [List.nil_append, setBitsFrom, ← h0]
  | cons b bs ih =>
    simp only [List.length_cons] at h
    have h0 : e.wPos ≠ 0 := fun hz => by simp [hz] at h
    have hsub := toNat_wPos_sub h0
    have hpred : (e.wPos - 1).toNat = e.wPos.toNat - 1 := by omega
    simp only [List.cons_append, writeBitsOn, writeBitOn_mid b p h0, Flow.andThen_done]
    rw [ih _ (by simp only; omega)]
    simp only [setBitsFrom, hpred]

theorem setBitsFrom_append_singleton (v : Byte) (i : Nat) (bs : List Bit) (b : Bit) :
    setBitsFrom v i (bs ++ [b]) = setBit (setBitsFrom v i bs) (i - bs.length) b := by
  induction bs generalizing v i with
  | nil => rfl
  | cons c bs ih =>
    rw [List.cons_append, setBitsFrom, ih, setBitsFrom, List.length_cons, Nat.sub_sub, Nat.add_comm 1]

/-- A row of bits that fills the pending byte waits there, on the byte it has become, where the channel has no answer. -/
theorem writeBitsOn_wait (bs cs : List Bit) {e : EncCall} {p : TxPort} (h : bs.length = e.wPos.toNat + 1)
    (hp : p.answers = []) :
    writeBitsOn (bs ++ cs) e p = .wait (.write (setBitsFrom e.wByte e.wPos.toNat bs)) := by
  obtain ⟨bs, b, rfl⟩ := List.eq_nil_or_concat' bs |>.resolve_left (by rintro rfl; simp at h)
  have hl : bs.length = e.wPos.toNat := by simpa using h
  rw [List.append_assoc, writeBitsOn_to_last bs _ e p hl, setBitsFrom_append_singleton, hl, Nat.sub_self]
  simp only [List.cons_append, writeBitsOn, writeBitOn_wait b (e := { e with wByte := _, wPos := 0 }) rfl hp, Flow.andThen_wait]

theorem padOnesLoop_of_full (n : Nat) {e : EncCall} (p : TxPort) (h7 : e.wPos = 7) : padOnesLoop n e p = .done (e, p) := by
  cases n with
  | zero => rfl
  | succ n => rw [padOnesLoop, if_pos h7]

/-- PAD_ONES from W_POS < 7 is WRITE_BIT(1) for each position left (R112). -/
theorem padOnesLoop_eq_writeBitsOn (n : Nat) (e : EncCall) (p : TxPort) (h7 : e.wPos ≠ 7) (hn : e.wPos.toNat < n) :
    padOnesLoop n e p = writeBitsOn (List.replicate (e.wPos.toNat + 1) true) e p := by
  induction n generalizing e p with
  | zero => omega
  | succ n ih =>
    rw [padOnesLoop, if_neg h7, List.replicate_succ, writeBitsOn]
    by_cases h0 : e.wPos = 0
    · rw [show e.wPos.toNat = 0 by rw [h0]; rfl]
      cases hp : p.answers with
      | nil => rw [writeBitOn_wait true h0 hp, Flow.andThen_wait, Flow.andThen_wait]
      | cons a rest =>
        cases a with
        | ok =>
          rw [writeBitOn_ok true h0 hp, Flow.andThen_done, Flow.andThen_done]
          exact padOnesLoop_of_full n _ rfl
        | err => rw [writeBitOn_err true h0 hp, Flow.andThen_abort, Flow.andThen_abort]
    · have hsub := toNat_wPos_sub h0
      have hlt := e.wPos.isLt
      rw [writeBitOn_mid true p h0, Flow.andThen_done, Flow.andThen_done, ← hsub]
      refine ih _ _ (fun he => ?_) (by simp only; omega)
      have he7 : (e.wPos - 1).toNat = 7 := congrArg BitVec.toNat he
      omega

theorem padOnesOn_eq_writeBitsOn {e : EncCall} (p : TxPort) (h7 : e.wPos ≠ 7) :
    padOnesOn e p = writeBitsOn (List.replicate (e.wPos.toNat + 1) true) e p := by
  have hne : e.wPos.toNat ≠ 7 := fun h => h7 (BitVec.eq_of_toNat_eq h)
  have hlt := e.wPos.isLt
  exact padOnesLoop_eq_writeBitsOn 7 e p h7 (by omega)

/-! ### Each micro-operation at a request without an answer (R58, R59) -/

section
variable {e : EncCall} {p : TxPort} (hp : p.answers = [])
include hp

theorem writeFlagOn_wait :
    writeFlagOn e p =
      .wait (.write ((e.wByte &&& (0xFF#8 <<< (e.wPos.toNat + 1))) ||| (0x7E#8 >>> (7 - e.wPos.toNat)))) := by
  have hlt := e.wPos.isLt
  rw [writeFlagOn, ← List.take_append_drop (e.wPos.toNat + 1) (byteBits Config.flag),
    writeBitsOn_wait _ _ (by simp [byteBits]; omega) hp, setBitsFrom_byteBits _ _ hlt]
  rfl

theorem padOnesOn_wait (h7 : e.wPos ≠ 7) :
    padOnesOn e p =
      .wait (.write ((e.wByte &&& (0xFF#8 <<< (e.wPos.toNat + 1))) ||| (0xFF#8 >>> (7 - e.wPos.toNat)))) := by
  have hlt := e.wPos.isLt
  have hbits : List.replicate (e.wPos.toNat + 1) true = (byteBits 0xFF#8).take (e.wPos.toNat + 1) := by
    rw [show byteBits 0xFF#8 = List.replicate 8 true from rfl, List.take_replicate, Nat.min_eq_left (by omega)]
  rw [padOnesOn_eq_writeBitsOn p h7, ← List.append_nil (List.replicate _ _), writeBitsOn_wait _ _ (by simp) hp, hbits,
    setBitsFrom_byteBits _ _ hlt]

/-- ENC_PAYLOAD_BIT waits where its own bit fills the byte. -/
theorem encPayloadBitOn_wait (b : Bit) (h0 : e.wPos = 0) :
    encPayloadBitOn b e p = .wait (.write (setBit e.wByte 0 b)) := by
  rw [encPayloadBitOn, writeBitOn_wait b h0 hp, Flow.andThen_wait]

/-- ENC_PAYLOAD_BIT waits where the stuffed 0 fills the byte. -/
theorem encPayloadBitOn_wait_stuffed (hones : e.eOnes = 4) (h1 : e.wPos = 1) :
    encPayloadBitOn true e p = .wait (.write (setBit (setBit e.wByte 1 true) 0 false)) := by
  rw [encPayloadBitOn, writeBitOn_mid true p (by simp [h1]), Flow.andThen_done, if_pos rfl, if_pos (by simp [hones]),
    writeBitOn_wait false (by simp [h1]) hp, Flow.andThen_wait, h1]
  rfl

end

/-- Settles O60: each micro-operation, up to the bit that makes a byte full or needs a new one, makes no request. -/
theorem channelWaits : Obligations.ChannelWaits := by
  refine ⟨fun s e b hu hp => ⟨fun h0 => ?_, ?_, fun h7 => ?_, fun h0 => ?_, fun hb hones h1 => ?_⟩,
    fun s d hu h0 hp => ?_⟩
  · exact State.onEncoder_wait hu (writeBitOn_wait b h0 hp)
  · exact State.onEncoder_wait hu (writeFlagOn_wait hp)
  · exact State.onEncoder_wait hu (padOnesOn_wait hp h7)
  · exact State.onEncoder_wait hu (encPayloadBitOn_wait hp b h0)
  · subst hb
    exact State.onEncoder_wait hu (encPayloadBitOn_wait_stuffed hp hones h1)
  · have hread := readBitOn_wait h0 hp
    refine ⟨State.onDecoder_wait hu hread, State.onDecoder_wait hu ?_, State.onDecoder_wait hu ?_⟩
    · rw [seekStepOn, hread, Flow.andThen_wait]
    · rw [captureStepOn, hread, Flow.andThen_wait]

end Sys2Proof.Machine
end

section
/-! PROOFS. READ_BITs in a row (R50, R151): the receive stream's bits in transmission order. -/

namespace Sys2Proof.Machine

/-- The bit string of a row of bytes, place by place (R50, R51). -/
theorem bytesBits_getD (bytes : List Byte) (q : Nat) {j : Nat} (hj : j < 8) :
    (bytesBits bytes).getD (8 * q + j) false = (bytes.getD q 0).getLsbD (7 - j) := by
  induction bytes generalizing q with
  | nil => simp [bytesBits]
  | cons v vs ih =>
    have hlen : (byteBits v).length = 8 := rfl
    cases q with
    | zero =>
      rw [bytesBits, List.getD_append _ _ _ _ (by omega), Nat.mul_zero, Nat.zero_add, byteBits_getD v hj,
        List.getD_cons_zero]
    | succ q =>
      rw [bytesBits, List.getD_append_right _ _ _ _ (by omega), hlen, show 8 * (q + 1) + j - 8 = 8 * q + j by omega, ih,
        List.getD_cons_succ]

/-- The receive port after `k` bits of `bytes` have been read from an exhausted byte: the bytes begun are consumed (R151). -/
def RxPort.afterBits (bytes : List Byte) (rest log : List RxAnswer) (k : Nat) : RxPort :=
  ⟨(bytes.drop ((k + 7) / 8)).map .byte ++ rest, log ++ (bytes.take ((k + 7) / 8)).map .byte⟩

/-- The reader after `k` bits of `bytes`: of the byte begun last the bits not yet read are left in R_BYTE (R150). -/
structure DecCall.AtBit (bytes : List Byte) (k : Nat) (d : DecCall) : Prop where
  avail : d.rAvail.toNat = (8 - k % 8) % 8
  byte : k % 8 ≠ 0 → d.rByte = some (bytes.getD (k / 8) 0)

/-- READ_BIT has returned the bit `b`, and has left R_BYTE and R_AVAIL at these values. -/
def DecCall.returned (d : DecCall) (v : Option Byte) (a : BitVec 4) (b : Bit) : DecCall :=
  { d with rByte := v, rAvail := a, rResult := some (.bit b) }

section
variable {bytes : List Byte} (rest log : List RxAnswer) {k : Nat} {d : DecCall}

/-- One READ_BIT returns the next bit of the stream: the first bit of the channel's next byte where the byte is exhausted, and
the next bit of R_BYTE otherwise. -/
theorem DecCall.AtBit.readBitOn_done (h : d.AtBit bytes k) (hk : k < 8 * bytes.length) :
    ∃ v a, readBitOn d (.afterBits bytes rest log k) =
        .done (d.returned v a ((bytesBits bytes).getD k false), .afterBits bytes rest log (k + 1)) ∧
      ∀ b, (d.returned v a b).AtBit bytes (k + 1) := by
  obtain ⟨havail, hbyte⟩ := h
  have hbit := bytesBits_getD bytes (k / 8) (Nat.mod_lt k (by decide : 0 < 8))
  rw [Nat.div_add_mod] at hbit
  rw [hbit]
  by_cases hm : k % 8 = 0
  · have h0 : d.rAvail = 0 := BitVec.eq_of_toNat_eq (by rw [havail, hm]; rfl)
    have hlt : k / 8 < bytes.length := by omega
    have hnow : (k + 7) / 8 = k / 8 := by omega
    have hnext : (k + 1 + 7) / 8 = k / 8 + 1 := by omega
    have hanswers : (RxPort.afterBits bytes rest log k).answers =
        .byte bytes[k / 8] :: ((bytes.drop (k / 8 + 1)).map .byte ++ rest) := by
      rw [RxPort.afterBits, hnow, List.drop_eq_getElem_cons hlt, List.map_cons, List.cons_append]
    have hport : RxPort.afterBits bytes rest log (k + 1) = ⟨(bytes.drop (k / 8 + 1)).map .byte ++ rest,
        (RxPort.afterBits bytes rest log k).log ++ [.byte bytes[k / 8]]⟩ := by
      simp only [RxPort.afterBits, hnow, hnext, List.take_succ_eq_append_getElem hlt, List.map_append, List.map_cons,
        List.map_nil, List.append_assoc]
    rw [hm, List.getD_eq_getElem _ _ hlt, hport]
    refine ⟨_, _, readBitOn_byte h0 hanswers, fun _ => ⟨?_, fun _ => ?_⟩⟩
    · show 7 = _
      omega
    · rw [show (k + 1) / 8 = k / 8 by omega, List.getD_eq_getElem _ _ hlt]
      rfl
  · have h0 : d.rAvail ≠ 0 := fun hz => by
      have hz' : d.rAvail.toNat = 0 := congrArg BitVec.toNat hz
      omega
    have hsub := DecCall.toNat_avail_sub h0
    rw [show 7 - k % 8 = d.rAvail.toNat - 1 by omega,
      show RxPort.afterBits bytes rest log (k + 1) = .afterBits bytes rest log k by
        rw [RxPort.afterBits, show (k + 1 + 7) / 8 = (k + 7) / 8 by omega, RxPort.afterBits]]
    refine ⟨_, _, readBitOn_held _ h0 (hbyte hm) (by omega), fun _ => ⟨?_, fun _ => ?_⟩⟩
    · show (d.rAvail - 1).toNat = _
      omega
    · rw [show (k + 1) / 8 = k / 8 by omega]
      exact hbyte hm

theorem DecCall.AtBit.exec_readBit {s : State} (hu : s.unit = .decoding d) (hp : s.rx = .afterBits bytes rest log k)
    (h : d.AtBit bytes k) (hk : k < 8 * bytes.length) :
    ∃ v a, exec .readBit s =
        .next (s.withDec (d.returned v a ((bytesBits bytes).getD k false)) (.afterBits bytes rest log (k + 1))) ∧
      (d.returned v a ((bytesBits bytes).getD k false)).AtBit bytes (k + 1) := by
  obtain ⟨v, a, hread, h'⟩ := h.readBitOn_done rest log hk
  exact ⟨v, a, State.onDecoder_done hu (hp ▸ hread), h' _⟩

/-- READ_BITs in a row, one at least. -/
theorem DecCall.AtBit.execAll_readBit (n : Nat) {s : State} (hu : s.unit = .decoding d)
    (hp : s.rx = .afterBits bytes rest log k) (h : d.AtBit bytes k) (hn : k + n < 8 * bytes.length) :
    ∃ v a, execAll (List.replicate (n + 1) .readBit) s =
      .next (s.withDec (d.returned v a ((bytesBits bytes).getD (k + n) false)) (.afterBits bytes rest log (k + n + 1))) := by
  induction n generalizing k d s with
  | zero =>
    obtain ⟨v, a, hexec, -⟩ := h.exec_readBit rest log hu hp (by omega)
    exact ⟨v, a, by rw [List.replicate_one, execAll, hexec]; rfl⟩
  | succ n ih =>
    obtain ⟨v, a, hexec, h'⟩ := h.exec_readBit rest log hu hp (by omega)
    obtain ⟨v', a', hrun⟩ := ih (s := s.withDec _ _) rfl rfl h' (by omega)
    refine ⟨v', a', ?_⟩
    rw [List.replicate_succ, execAll, hexec, ← show k + 1 + n = k + (n + 1) by omega]
    exact hrun

end

/-- Settles O32: `k` READ_BITs leave the reader after `k` bits, with the bytes begun consumed. -/
theorem readerSequence : Obligations.ReaderSequence := by
  intro s d bytes rest k hu h0 hp hk hle
  obtain ⟨n, rfl⟩ : ∃ n, k = n + 1 := ⟨k - 1, by omega⟩
  have hstart : d.AtBit bytes 0 := ⟨by simp [h0], fun h => absurd rfl h⟩
  have hport : s.rx = .afterBits bytes rest s.rx.log 0 := by simp [RxPort.afterBits, ← hp]
  obtain ⟨v, a, hrun⟩ := hstart.execAll_readBit rest s.rx.log n hu hport (by omega)
  rw [Nat.zero_add] at hrun
  exact ⟨v, a, hrun⟩

end Sys2Proof.Machine
end

section
/-! PROOFS. An ENCODE that comes to a payload byte without a value (R53, R130): the channel has room for the bits before it, and
the sequencer comes to it in steps that neither wait nor end the command. -/

namespace Sys2Proof.Machine

/-! ### Room in the channel -/

/-- The channel answers OK to every byte that the next `n` bits make full. -/
def EncCall.Room (e : EncCall) (p : TxPort) (n : Nat) : Prop :=
  ∃ m rest, p.answers = List.replicate m .ok ++ rest ∧ n ≤ 8 * m + e.wPos.toNat

theorem EncCall.Room.mono {e : EncCall} {p : TxPort} {n n' : Nat} (h : e.Room p n) (hle : n' ≤ n) : e.Room p n' := by
  obtain ⟨m, rest, hp, hn⟩ := h
  exact ⟨m, rest, hp, hle.trans hn⟩

/-- A bit the channel has room for is written. -/
theorem writeBitOn_of_room (b : Bit) {e : EncCall} {p : TxPort} {n : Nat} (h : e.Room p (n + 1)) :
    ∃ e' p', writeBitOn b e p = .done (e', p') ∧ e.SameCall e' ∧ e'.Room p' n := by
  obtain ⟨m, rest, hp, hn⟩ := h
  by_cases h0 : e.wPos = 0
  · cases m with
    | zero => simp [h0] at hn
    | succ m =>
      refine ⟨_, _, writeBitOn_ok b h0 hp, rfl, m, rest, rfl, ?_⟩
      simp only [h0] at hn
      simp at hn ⊢
      omega
  · have hsub := toNat_wPos_sub h0
    exact ⟨_, _, writeBitOn_mid b p h0, rfl, m, rest, hp, by simp only; omega⟩

theorem writeBitsOn_of_room (bs : List Bit) {e : EncCall} {p : TxPort} {n : Nat} (h : e.Room p (n + bs.length)) :
    ∃ e' p', writeBitsOn bs e p = .done (e', p') ∧ e.SameCall e' ∧ e'.Room p' n := by
  induction bs generalizing e p with
  | nil => exact ⟨e, p, rfl, .refl e, h⟩
  | cons b bs ih =>
    obtain ⟨e1, p1, hb, hsame, h1⟩ := writeBitOn_of_room b (n := n + bs.length) h
    obtain ⟨e2, p2, hbs, hsame', h2⟩ := ih h1
    exact ⟨e2, p2, by rw [writeBitsOn, hb, Flow.andThen_done, hbs], hsame.trans hsame', h2⟩

/-- The channel has room for `r` payload bits, and for the 0 that is stuffed after each fifth 1 (R133), the run of 1s before
them counted. -/
def EncCall.PayloadRoom (e : EncCall) (p : TxPort) (r : Nat) : Prop :=
  e.eOnes.toNat ≤ 4 ∧ e.Room p (r + (r + e.eOnes.toNat) / 5)

theorem EncCall.SameCall.setOnes {e e' : EncCall} (h : e.SameCall e') (x : BitVec 3) :
    e.SamePayload { e' with eOnes := x } := by
  unfold EncCall.SamePayload
  rw [h]

/-- A payload bit the channel has room for is written, with the 0 stuffed after it if there is one. -/
theorem encPayloadBitOn_of_room (b : Bit) {e : EncCall} {p : TxPort} {r : Nat} (h : e.PayloadRoom p (r + 1)) :
    ∃ e' p', encPayloadBitOn b e p = .done (e', p') ∧ e.SamePayload e' ∧ e'.PayloadRoom p' r := by
  obtain ⟨hones, hroom⟩ := h
  obtain ⟨e1, p1, hb, hsame, h1⟩ := writeBitOn_of_room b (n := r + (r + 1 + e.eOnes.toNat) / 5) (hroom.mono (by omega))
  have ho := hsame.eOnes
  rw [encPayloadBitOn, hb, Flow.andThen_done]
  cases b with
  | false => exact ⟨_, p1, rfl, hsame.setOnes 0, by simp, h1.mono (by simp; omega)⟩
  | true =>
    by_cases h4 : e1.eOnes + 1 = 5
    · have hfour : e.eOnes = 4 := by rw [← ho]; exact (by decide : ∀ x : BitVec 3, x + 1 = 5 → x = 4) _ h4
      rw [hfour] at h1
      obtain ⟨e2, p2, hb2, hsame2, h2⟩ := writeBitOn_of_room false (n := r + r / 5) (h1.mono (by simp; omega))
      rw [if_pos rfl, if_pos h4, hb2, Flow.andThen_done]
      exact ⟨_, p2, rfl, (hsame.trans hsame2).setOnes 0, by simp, h2⟩
    · have hne : e.eOnes.toNat ≠ 4 := fun h => h4 (by rw [ho, show e.eOnes = 4 from BitVec.eq_of_toNat_eq h]; rfl)
      have hadd : (e1.eOnes + 1).toNat = e.eOnes.toNat + 1 := by
        rw [ho, BitVec.toNat_add]
        simp
        omega
      rw [if_pos rfl, if_neg h4]
      exact ⟨_, p1, rfl, hsame.setOnes _, by simp only [hadd]; omega, h1.mono (by simp only [hadd]; omega)⟩

/-! ### Runs of the sequencer -/

/-- `k` steps of the sequencer lead from `s` to `t`, and none of them waits. -/
def State.RunsTo (k : Nat) (s t : State) : Prop := ∀ fuel, runSequencer (fuel + k) s = runSequencer fuel t

section
variable {s t u : State}

theorem State.RunsTo.refl (s : State) : s.RunsTo 0 s := fun _ => rfl

theorem State.RunsTo.trans {k l : Nat} (h : s.RunsTo k t) (h' : t.RunsTo l u) : s.RunsTo (k + l) u := fun fuel => by
  rw [Nat.add_comm k, ← Nat.add_assoc, h, h']

theorem State.RunsTo.step (hu : s.unit.isIdle = false) (h : sequencerStep s = .next t) (ho : t.outstanding = none) :
    s.RunsTo 1 t := fun fuel => by
  simp [runSequencer, hu, h, ho]

theorem runSequencer_fault {g : Fault} (n : Nat) (hu : s.unit.isIdle = false) (h : sequencerStep s = .fault g) :
    runSequencer (n + 1) s = .fault g := by
  simp [runSequencer, hu, h]

/-- A micro-operation of the writer or encoder that is done, issued where SEQ stands before PAD, is one step of a run. -/
theorem State.RunsTo.encoderMicro {w : UopWord} {i : Instr} {f : EncCall → TxPort → Flow (EncCall × TxPort)}
    {e e' : EncCall} {p : TxPort} (hu : s.unit = .encoding e) (ha : seqAction s = .issue w) (hd : decodeU8 w = .ok i)
    (hx : exec i s = s.onEncoder f) (hf : f e s.tx = .done (e', p)) (hpad : e'.ePhase ≠ .pad) :
    s.RunsTo 1 (s.withEnc e'.advance p) := by
  have hadv : (s.withEnc e' p).advance = s.withEnc e'.advance p := by simp [State.advance, State.withEnc, hpad]
  refine .step (by rw [hu]; rfl) ?_ rfl
  rw [sequencerStep_issue ha, issueMicro_of_exec_next hd (hx.trans (State.onEncoder_done hu hf)), hadv]

end

/-! ### PAYLOAD, bit after bit and byte after byte (R130, R132) -/

/-- An ENCODE of `n` bytes stands in PAYLOAD at bit `b` of byte `j`, the byte being loaded or not, with room in the channel
for `r` payload bits. -/
structure State.InPayload (s : State) (m : List Host.Cell) (n : Nat) (e : EncCall) (j b r : Nat) (v : Option Byte) :
    Prop where
  unit : s.unit = .encoding e
  mem : s.mem = m
  quiet : s.outstanding = none
  phase : e.ePhase = .payload
  len : e.eLen.toNat = n
  idx : e.eIdx.toNat = j
  bit : e.eBit.toNat = b
  byte : e.eByte = v
  room : e.PayloadRoom s.tx r

section
variable {s : State} {m : List Host.Cell} {n : Nat} {e : EncCall} {j b r : Nat} {v : Byte}

theorem State.InPayload.seqAction_load (h : s.InPayload m n e j b r none) (hj : j < n) : seqAction s = .load e := by
  rw [seqAction_encoding h.unit]
  simp only [encoderAction, h.phase, h.idx, h.len, if_pos hj, h.byte]

theorem State.InPayload.seqAction_issue (h : s.InPayload m n e j b r (some v)) (hj : j < n) :
    seqAction s = .issue (uopWord 0x4 (v.getLsbD b)) := by
  rw [seqAction_encoding h.unit]
  simp only [encoderAction, h.phase, h.idx, h.len, if_pos hj, h.byte, h.bit]

/-- The step that loads the next payload byte. -/
theorem State.InPayload.load (h : s.InPayload m n e j 7 r none) (hj : j < n) (hn : n ≤ 256)
    (hv : bufByte m .tx j = some v) : ∃ t e', s.RunsTo 1 t ∧ t.InPayload m n e' j 7 r (some v) := by
  refine ⟨{ s with unit := .encoding { e with eByte := some v } }, _, .step (by rw [h.unit]; rfl) ?_ h.quiet,
    { h with unit := rfl, byte := rfl }⟩
  have h256 : j < Config.bufBytes := lt_of_lt_of_le hj hn
  simp only [sequencerStep, h.seqAction_load hj, h.idx, h.mem, if_pos h256, hv]

/-- The step that comes to a payload byte without a value. -/
theorem State.InPayload.unwritten (h : s.InPayload m n e j 7 r none) (hj : j < n) (hn : n ≤ 256)
    (hv : bufByte m .tx j = none) : sequencerStep s = .fault (.uninitialisedPayload j) := by
  have h256 : j < Config.bufBytes := lt_of_lt_of_le hj hn
  simp only [sequencerStep, h.seqAction_load hj, h.idx, h.mem, if_pos h256, hv]

/-- The step that writes a payload bit: SEQ is then at the next bit, or at the next byte. -/
theorem State.InPayload.bitStep (h : s.InPayload m n e j b (r + 1) (some v)) (hj : j < n) (hn : n ≤ 256) :
    ∃ t e', s.RunsTo 1 t ∧
      ((b = 0 ∧ t.InPayload m n e' (j + 1) 7 r none) ∨ ∃ b', b = b' + 1 ∧ t.InPayload m n e' j b' r (some v)) := by
  obtain ⟨e1, p, hf, hsame, hroom⟩ := encPayloadBitOn_of_room (v.getLsbD b) h.room
  have hphase : e1.ePhase = .payload := by rw [hsame]; exact h.phase
  have hlen : e1.eLen.toNat = n := by rw [hsame]; exact h.len
  have hidx : e1.eIdx.toNat = j := by rw [hsame]; exact h.idx
  have hbit : e1.eBit.toNat = b := by rw [hsame]; exact h.bit
  have hbyte : e1.eByte = some v := by rw [hsame]; exact h.byte
  have hrun := State.RunsTo.encoderMicro h.unit (h.seqAction_issue hj) (decodeU8_encPayloadBit _) rfl hf (by simp [hphase])
  refine ⟨_, e1.advance, hrun, ?_⟩
  by_cases h0 : e1.eBit = 0
  · have hadv : e1.advance = { e1 with eIdx := e1.eIdx + 1, eBit := 7, eByte := none } := by
      simp only [EncCall.advance, hphase, if_pos h0]
    have hadd : (e1.eIdx + 1).toNat = j + 1 := by
      rw [BitVec.toNat_add, hidx]
      simp
      omega
    rw [hadv]
    exact .inl ⟨by rw [← hbit, h0]; rfl, rfl, h.mem, rfl, hphase, hlen, hadd, rfl, rfl, hroom⟩
  · have hadv : e1.advance = { e1 with eBit := e1.eBit - 1 } := by simp only [EncCall.advance, hphase, if_neg h0]
    have hsub : (e1.eBit - 1).toNat + 1 = b := by
      have hlt := e1.eBit.isLt
      have hpos : e1.eBit.toNat ≠ 0 := fun h => h0 (BitVec.eq_of_toNat_eq (by simpa using h))
      rw [BitVec.toNat_sub, ← hbit]
      simp
      omega
    rw [hadv]
    exact .inr ⟨_, hsub.symm, rfl, h.mem, rfl, hphase, hlen, hidx, rfl, hbyte, hroom⟩

/-- The bits left of a payload byte. -/
theorem State.InPayload.bits (h : s.InPayload m n e j b (r + (b + 1)) (some v)) (hj : j < n) (hn : n ≤ 256) :
    ∃ t e', s.RunsTo (b + 1) t ∧ t.InPayload m n e' (j + 1) 7 r none := by
  induction b generalizing s e with
  | zero =>
    obtain ⟨t, e', hrun, ⟨-, ht⟩ | ⟨b', hb', -⟩⟩ := h.bitStep hj hn
    · exact ⟨t, e', hrun, ht⟩
    · omega
  | succ b ih =>
    obtain ⟨t, e', hrun, ⟨hb, -⟩ | ⟨b', hb', ht⟩⟩ := h.bitStep hj hn
    · omega
    · obtain rfl : b = b' := by omega
      obtain ⟨u, e'', hrun', hu⟩ := ih ht
      exact ⟨u, e'', Nat.add_comm 1 _ ▸ hrun.trans hrun', hu⟩

/-- A payload byte: it is loaded, and its eight bits are written. -/
theorem State.InPayload.byteSteps (h : s.InPayload m n e j 7 (r + 8) none) (hj : j < n) (hn : n ≤ 256)
    (hv : bufByte m .tx j ≠ none) : ∃ t e', s.RunsTo 9 t ∧ t.InPayload m n e' (j + 1) 7 r none := by
  obtain ⟨v, hv⟩ := Option.ne_none_iff_exists'.mp hv
  obtain ⟨t, e1, hload, ht⟩ := h.load hj hn hv
  obtain ⟨u, e2, hbits, hu⟩ := ht.bits hj hn
  exact ⟨u, e2, hload.trans hbits, hu⟩

/-- The payload bytes from `j` on, as far as each has a value. -/
theorem State.InPayload.bytes (c : Nat) (h : s.InPayload m n e j 7 (8 * c) none) (hj : j + c ≤ n) (hn : n ≤ 256)
    (hv : ∀ k, k < j + c → bufByte m .tx k ≠ none) :
    ∃ t e', s.RunsTo (9 * c) t ∧ t.InPayload m n e' (j + c) 7 0 none := by
  induction c generalizing s e j with
  | zero => exact ⟨s, e, .refl s, h⟩
  | succ c ih =>
    obtain ⟨t, e1, hbyte, ht⟩ := h.byteSteps (by omega) hn (hv j (by omega))
    obtain ⟨u, e2, hrest, hu⟩ := ih ht (by omega) fun k hk => hv k (by omega)
    refine ⟨u, e2, ?_, by rwa [Nat.add_assoc, Nat.add_comm 1] at hu⟩
    rw [Nat.mul_succ, Nat.add_comm]
    exact hbyte.trans hrest

end

/-! ### The whole command -/

/-- An ENCODE whose payload fits begins at the start flag (R41, R205). -/
theorem State.startEncode_of_le (s : State) {n : Nat} (hn : n ≤ 256) :
    (s.accept (cmdWord 0x1 n)).startEncode n =
      (s.accept (cmdWord 0x1 n)).enter (.encoding (.entry (cmdLen (cmdWord 0x1 n)))) := by
  rw [State.startEncode, if_neg (by simp only [Config.maxMessageLen]; omega)]
  rfl

/-- The start flag is one step, and leads to the first payload byte, with the channel's room for the payload bits. -/
theorem State.startFlag_runsTo {s : State} {len : BitVec 9} {r : Nat} {rest : List TxAnswer}
    (hu : s.unit = .encoding (.entry len)) (hp : s.tx.answers = List.replicate 310 .ok ++ rest)
    (hr : r + r / 5 ≤ 2479) : ∃ t e, s.RunsTo 1 t ∧ t.InPayload s.mem len.toNat e 0 7 r none := by
  have hroom : (EncCall.entry len).Room s.tx (r + r / 5 + (byteBits Config.flag).length) :=
    ⟨310, rest, hp, by simp [byteBits, EncCall.entry]; omega⟩
  obtain ⟨e, p, hf, hsame, h⟩ := writeBitsOn_of_room _ hroom
  have hphase : e.ePhase = .startFlag := by rw [hsame]; rfl
  have hlen : e.eLen.toNat = len.toNat := by rw [hsame]; rfl
  have hidx : e.eIdx.toNat = 0 := by rw [hsame]; rfl
  have hbit : e.eBit.toNat = 7 := by rw [hsame]; rfl
  have hbyte : e.eByte = none := by rw [hsame]; rfl
  have hones : e.eOnes.toNat = 0 := by rw [hsame]; rfl
  have hadv : e.advance = { e with ePhase := .payload } := by rw [EncCall.advance, hphase]
  have hrun := State.RunsTo.encoderMicro (i := .writeFlag) hu (by rw [seqAction_encoding hu]; rfl) rfl rfl hf
    (by simp [hphase])
  rw [hadv] at hrun
  exact ⟨_, _, hrun, rfl, rfl, rfl, rfl, hlen, hidx, hbit, hbyte, by simp [hones],
    by simp only [hones]; exact h⟩

/-- Settles O26: one step for the start flag and nine for each byte before `i` lead to the load of byte `i`. -/
theorem encodeOfUnwrittenByte : Obligations.EncodeOfUnwrittenByte := by
  intro s n i hu hn hi hbefore hnone ⟨rest, hp⟩
  obtain ⟨t, e, hflag, ht⟩ := State.startFlag_runsTo (r := 8 * i)
    (s := (s.accept (cmdWord 0x1 n)).enter (.encoding (.entry (cmdLen (cmdWord 0x1 n))))) rfl hp (by omega)
  rw [cmdLen_cmdWord _ (by omega)] at ht
  obtain ⟨t', e', hbytes, ht'⟩ := ht.bytes i (by omega) hn (by simpa using hbefore)
  rw [Nat.zero_add] at ht'
  obtain ⟨fuel, hfuel⟩ : ∃ fuel, encodeFuel = fuel + 1 + (1 + 9 * i) :=
    ⟨encodeFuel - (2 + 9 * i), by simp only [encodeFuel, Config.maxMessageLen]; omega⟩
  have hexec : exec (.encode n) s = runSequencer encodeFuel ((s.accept (cmdWord 0x1 n)).startEncode n) := by
    simp [exec, execEncode, hu]
  rw [hexec, s.startEncode_of_le hn, hfuel, hflag.trans hbytes]
  exact runSequencer_fault fuel (by rw [ht'.unit]; rfl) (ht'.unwritten hi hn hnone)

end Sys2Proof.Machine
end

section
/-! PROOFS. The encodings (R86 to R94): what each decoder reads from the words the encoder writes, and that it accepts no
other word. -/

namespace Sys2Proof.Machine

/-! ### The fields of a command word (R86) -/

@[simp] theorem cmdOp_cmdWord (op : BitVec 4) (len : Nat) : cmdOp (cmdWord op len) = op := by
  rw [cmdOp, cmdWord, BitVec.extractLsb'_append_eq_of_le (by decide)]
  exact BitVec.extractLsb'_append_eq_left

@[simp] theorem cmdRsvd_cmdWord (op : BitVec 4) (len : Nat) : cmdRsvd (cmdWord op len) = 0 := by
  rw [cmdRsvd, cmdWord, BitVec.extractLsb'_append_eq_of_le (by decide)]
  exact BitVec.extractLsb'_append_eq_right

theorem cmdOp_toNat (w : CmdWord) : (cmdOp w).toNat = w.toNat / 4096 := by
  have := w.isLt
  rw [cmdOp, BitVec.extractLsb'_toNat, Nat.shiftRight_eq_div_pow]
  omega

theorem cmdRsvd_toNat (w : CmdWord) : (cmdRsvd w).toNat = w.toNat / 512 % 8 := by
  rw [cmdRsvd, BitVec.extractLsb'_toNat, Nat.shiftRight_eq_div_pow]

theorem cmdLen_toNat (w : CmdWord) : (cmdLen w).toNat = w.toNat % 512 := by
  rw [cmdLen, BitVec.extractLsb'_toNat, Nat.shiftRight_zero]

/-! ### CMD16 (R87 to R89) -/

theorem decode_encode_encode {len : Nat} (h : len < 512) : decode (encode (.encode len)) = .ok (.encode len) := by
  simp [encode, decode, decodeCmd16, cmdLen_cmdWord _ h]

/-- A command word names an ENCODE of its LEN, or DECODE. -/
theorem decodeCmd16_ok {w : CmdWord} {i : Instr} (h : decodeCmd16 w = .ok i) :
    i = .encode (cmdLen w).toNat ∨ i = .decode := by
  unfold decodeCmd16 at h
  split_ifs at h <;> cases h
  · exact .inl rfl
  · exact .inr rfl

theorem encode_of_decodeCmd16 {w : CmdWord} {i : Instr} (h : decodeCmd16 w = .ok i) :
    encode i = .cmd16 w ∧ i.wellFormed = true := by
  rcases decodeCmd16_ok h with rfl | rfl
  · exact ⟨congrArg Raw.cmd16 (decodeCmd16_encode h).symm, decide_eq_true (cmdLen w).isLt⟩
  · exact ⟨congrArg Raw.cmd16 (decodeCmd16_decode h).symm, rfl⟩

/-- R89, on the fields. -/
theorem decodeCmd16_error_iff (w : CmdWord) :
    decodeCmd16 w = .error .reservedCommand ↔
      cmdRsvd w ≠ 0 ∨ cmdOp w ≠ 1 ∧ (cmdOp w = 2 → cmdLen w ≠ 0) := by
  unfold decodeCmd16
  split_ifs <;> simp_all

/-! ### U8 (R92, R93) -/

/-- A U8 word whose reserved bits are 0 is made of its code and its bit (R92). -/
theorem uopWord_fields {w : UopWord} (h : uopRsvd w = 0) : uopWord (uopCode w) (uopBit w) = w := by
  rw [uopWord, ← h]
  ext i hi
  simp only [uopCode, uopRsvd, uopBit, BitVec.getElem_append, BitVec.getElem_extractLsb', BitVec.getElem_ofBool]
  interval_cases i <;> rfl

/-- What the U8 decoder answers for `w` is UnknownMicroOp, or a micro-operation whose word is `w`. -/
def OwnWord (w : UopWord) (r : Except Reject Instr) : Prop :=
  r = .error .unknownMicroOp ∨ ∃ i, r = .ok i ∧ encode i = .u8 w

theorem OwnWord.ite {w : UopWord} {c : Prop} [Decidable c] {x y : Except Reject Instr} (hx : c → OwnWord w x)
    (hy : ¬c → OwnWord w y) : OwnWord w (if c then x else y) := iteInduction hx hy

/-- Every row of the U8 table names the micro-operation whose word it is. -/
theorem decodeU8_ownWord (w : UopWord) : OwnWord w (decodeU8 w) := by
  have hno : OwnWord w (.error .unknownMicroOp) := .inl rfl
  refine .ite (fun _ => hno) fun hr => ?_
  have hrow : ∀ {b c i}, uopBit w = b → encode i = .u8 (uopWord c b) → uopCode w = c → OwnWord w (.ok i) := by
    rintro _ _ i rfl hi rfl
    exact .inr ⟨i, rfl, hi.trans (congrArg Raw.u8 (uopWord_fields (not_not.mp hr)))⟩
  refine .ite (hrow rfl rfl) fun _ => .ite (hrow rfl rfl) fun _ => .ite (fun _ => hno) fun hb => ?_
  have hb : uopBit w = false := by simpa using hb
  exact .ite (hrow hb rfl) fun _ => .ite (hrow hb rfl) fun _ => .ite (hrow hb rfl) fun _ => .ite (hrow hb rfl) fun _ =>
    .ite (hrow hb rfl) fun _ => .ite (hrow hb rfl) fun _ => .ite (hrow hb rfl) fun _ => .ite (hrow hb rfl) fun _ => hno

theorem encode_of_decodeU8 {w : UopWord} {i : Instr} (h : decodeU8 w = .ok i) : encode i = .u8 w := by
  rcases decodeU8_ownWord w with hx | ⟨j, hj, hw⟩
  · exact nomatch h.symm.trans hx
  · exact Except.ok.inj (hj.symm.trans h) ▸ hw

theorem MicroInstr.wellFormed {i : Instr} (h : MicroInstr i) : i.wellFormed = true := by
  cases i with
  | encode _ | wr8Tx _ _ | rd8Tx _ | rd8Rx _ => exact h.elim
  | _ => rfl

theorem MicroInstr.decode_encode {i : Instr} (h : MicroInstr i) : decode (encode i) = .ok i := by
  cases i with
  | writeBit b => cases b <;> rfl
  | encPayloadBit b => exact decodeU8_encPayloadBit b
  | encode _ | decode | wr8Tx _ _ | rd8Tx _ | rd8Rx _ | wr16Cmd _ | rd32Status => exact h.elim
  | _ => rfl

/-! ### BUS (R61, R94) -/

theorem decode_encode_wr8Tx {i : Nat} (h : i < 256) (v : Byte) : decode (encode (.wr8Tx i v)) = .ok (.wr8Tx i v) := by
  have haddr : (BitVec.ofNat 10 i).toNat = i := Nat.mod_eq_of_lt (by omega)
  simp only [encode, decode, decodeBus, haddr, if_pos h]

theorem decode_encode_rd8Tx {i : Nat} (h : i < 256) : decode (encode (.rd8Tx i)) = .ok (.rd8Tx i) := by
  have haddr : (BitVec.ofNat 10 i).toNat = i := Nat.mod_eq_of_lt (by omega)
  simp only [encode, decode, decodeBus, haddr, if_pos h]

theorem decode_encode_rd8Rx {i : Nat} (h : i < 256) : decode (encode (.rd8Rx i)) = .ok (.rd8Rx i) := by
  have haddr : (BitVec.ofNat 10 (0x100 + i)).toNat = 0x100 + i := Nat.mod_eq_of_lt (by omega)
  simp only [encode, decode, decodeBus, haddr]
  rw [if_neg (by omega), if_pos (by omega), Nat.add_sub_cancel_left]

/-- A host access that is accepted is that of the row it names. -/
theorem encode_of_decodeBus {a : BusAccess} {i : Instr} (h : decodeBus a = .ok i) :
    encode i = .bus a ∧ i.wellFormed = true := by
  have haddr : ∀ addr : HostAddr, BitVec.ofNat 10 addr.toNat = addr := fun addr => (BitVec.ofNat_toNat ..).trans (BitVec.setWidth_eq _)
  cases a with
  | wr8 addr v =>
    simp only [decodeBus] at h
    split_ifs at h with htx
    cases h
    exact ⟨by rw [encode, haddr], decide_eq_true htx⟩
  | wr16 addr w =>
    simp only [decodeBus] at h
    split_ifs at h with hcmd
    cases h
    exact ⟨by rw [encode, hcmd], rfl⟩
  | wr32 addr v => cases h
  | rd w addr =>
    cases w with
    | w8 =>
      simp only [decodeBus] at h
      split_ifs at h with htx hrx
      · cases h
        exact ⟨by rw [encode, haddr], decide_eq_true htx⟩
      · cases h
        have hlt : addr.toNat - 0x100 < 256 := by omega
        exact ⟨by rw [encode, Nat.add_sub_cancel' (by omega), haddr], by rw [Instr.wellFormed, decide_eq_true hlt]⟩
    | w16 => cases h
    | w32 =>
      simp only [decodeBus] at h
      split_ifs at h with hst
      cases h
      exact ⟨by rw [encode, hst], rfl⟩

/-! ### The round trips -/

/-- Settles O3, format by format: the fields of a command word, the U8 codes, the bus addresses. -/
theorem decodeOfEncode : Obligations.DecodeOfEncode := by
  intro i hi
  cases i with
  | encode len => exact decode_encode_encode (of_decide_eq_true hi)
  | decode => rfl
  | wr8Tx i v => exact decode_encode_wr8Tx (of_decide_eq_true hi) v
  | rd8Tx i => exact decode_encode_rd8Tx (of_decide_eq_true hi)
  | rd8Rx i => exact decode_encode_rd8Rx (of_decide_eq_true hi)
  | wr16Cmd w => rfl
  | rd32Status => rfl
  | _ => exact MicroInstr.decode_encode trivial

/-- Settles O4, by the format of the word. -/
theorem encodeOfDecode : Obligations.EncodeOfDecode := by
  intro r i h
  cases r with
  | cmd16 w => exact encode_of_decodeCmd16 h
  | u8 w => exact ⟨encode_of_decodeU8 h, (decodeU8_micro h).wellFormed⟩
  | bus a => exact encode_of_decodeBus h

end Sys2Proof.Machine
end

section
/-! PROOFS. The words that are rejected: an illegal command word (R89, R206) changes STATUS alone, and a U8 word outside the
table (R93) is refused and is issued in no state. -/

namespace Sys2Proof.Machine

/-! ### Command words written to CMD in IDLE (R204 to R206) -/

section
variable {s : State} (hu : s.unit = .idle) {w : CmdWord}
include hu

theorem exec_wr16Cmd_idle (w : CmdWord) : exec (.wr16Cmd w) s = .next ((s.accept w).dispatch w) := by
  simp [exec, execWr16Cmd, hu]

/-- An illegal word completes at once as IllegalCommand, and all else is as before. -/
theorem exec_wr16Cmd_illegal {x : Reject} (hd : decodeCmd16 w = .error x) :
    exec (.wr16Cmd w) s = .next (s.completed .illegalCommand 0) := by
  rw [exec_wr16Cmd_idle hu, State.dispatch, hd]
  rfl

/-- An over-long ENCODE completes at once as PreconditionViolation. -/
theorem exec_wr16Cmd_overlong {len : Nat} (hd : decodeCmd16 w = .ok (.encode len)) (hlen : 256 < len) :
    exec (.wr16Cmd w) s = .next (s.completed .preconditionViolation 0) := by
  have hover : Config.maxMessageLen < len := hlen
  simp only [exec_wr16Cmd_idle hu, State.dispatch, hd, State.startEncode, if_pos hover]
  rfl

end

/-- R89, on the bits of the word. -/
theorem decodeCmd16_error_iff_toNat (w : CmdWord) :
    decodeCmd16 w = .error .reservedCommand ↔
      (w.toNat / 4096 = 0 ∨ 3 ≤ w.toNat / 4096 ∨ w.toNat / 512 % 8 ≠ 0 ∨ (w.toNat / 4096 = 2 ∧ w.toNat % 512 ≠ 0)) := by
  have hop : ∀ c : BitVec 4, cmdOp w = c ↔ w.toNat / 4096 = c.toNat := fun c => by rw [← cmdOp_toNat, BitVec.toNat_inj]
  have hrsvd : cmdRsvd w = 0 ↔ w.toNat / 512 % 8 = 0 := by rw [← cmdRsvd_toNat, ← BitVec.toNat_inj]; rfl
  have hlen : cmdLen w = 0 ↔ w.toNat % 512 = 0 := by rw [← cmdLen_toNat, ← BitVec.toNat_inj]; rfl
  simp only [decodeCmd16_error_iff, ne_eq, hop, hrsvd, hlen, BitVec.reduceToNat]
  omega

/-- Settles O5: R89 read off the fields, and the dispatch of a rejected word. -/
theorem illegalCommandWords : Obligations.IllegalCommandWords := fun w =>
  ⟨decodeCmd16_error_iff_toNat w, fun hd _ hu => ⟨exec_wr16Cmd_illegal hu hd, by rw [State.completed_status]; decide⟩⟩

/-- Settles O1: the decoder on each word of R96's table, and what a write of a rejected one does. -/
theorem commandWordExamples : Obligations.CommandWordExamples := by
  refine ⟨rfl, rfl, rfl, rfl, rfl, rfl, fun s hu => ⟨exec_wr16Cmd_overlong (len := 257) hu rfl (by decide), fun w hw => ?_⟩⟩
  simp only [List.mem_cons, List.not_mem_nil, or_false] at hw
  rcases hw with rfl | rfl | rfl | rfl <;> exact exec_wr16Cmd_illegal hu rfl

/-! ### U8 words outside the table (R93) -/

theorem step_micro_illegal {s : State} {rest : List Turn} {w : UopWord} {x : Reject} (h : s.agenda = .micro w :: rest)
    (hd : decodeU8 w = .error x) : step s = .refused .unknownMicroOp := by
  simp [step, fetch, h, fetchTurn, hd]

/-- A word that decodes is one of the twelve of R93's table. -/
theorem decodeU8_word_mem {w : UopWord} {i : Instr} (h : decodeU8 w = .ok i) :
    w ∈ [0x10#8, 0x11#8, 0x20#8, 0x30#8, 0x40#8, 0x41#8, 0x50#8, 0x60#8, 0x70#8, 0x80#8, 0x90#8, 0xA0#8] := by
  have hw := encode_of_decodeU8 h
  cases i with
  | writeBit b | encPayloadBit b => obtain rfl := Raw.u8.inj hw; cases b <;> decide
  | encode _ | decode | wr8Tx _ _ | rd8Tx _ | rd8Rx _ | wr16Cmd _ | rd32Status => cases hw
  | _ => obtain rfl := Raw.u8.inj hw; decide

/-- The sequencer issues only words that name a micro-operation. -/
theorem seqAction_issue_decodes {s : State} {w : UopWord} (h : seqAction s = .issue w) : ∃ i, decodeU8 w = .ok i := by
  cases hu : s.unit with
  | idle => rw [seqAction_idle hu] at h; cases h
  | encoding e =>
    rw [seqAction_encoding hu, encoderAction] at h
    split at h
    · cases h; exact ⟨.writeFlag, rfl⟩
    · split at h
      · split at h
        · cases h
        · cases h; exact ⟨_, decodeU8_encPayloadBit _⟩
      · cases h
    · cases h; exact ⟨.writeFlag, rfl⟩
    · cases h; exact ⟨.padOnes, rfl⟩
  | decoding d =>
    rw [seqAction_decoding hu, decoderAction] at h
    split at h <;> cases h <;> exact ⟨_, rfl⟩

/-- Settles O2: a word outside the table does not decode, so its turn is refused and the sequencer does not issue it. -/
theorem microOpCodes : Obligations.MicroOpCodes := by
  refine ⟨fun b => by cases b <;> rfl, rfl, rfl, fun b => by cases b <;> rfl, rfl, rfl, rfl, rfl, rfl, rfl, fun w hw => ?_⟩
  have hd : decodeU8 w = .error .unknownMicroOp :=
    (decodeU8_ownWord w).resolve_right fun ⟨_, hi, _⟩ => hw (decodeU8_word_mem hi)
  refine ⟨hd, fun s rest h => step_micro_illegal h hd, fun s h => ?_⟩
  obtain ⟨i, hi⟩ := seqAction_issue_decodes h
  exact hw (decodeU8_word_mem hi)

end Sys2Proof.Machine
end

section
/-! PROOFS. The wire format on bit strings (R80 to R83): what stuffing adds, that destuffing takes it out again, and the
lengths of a frame. -/

namespace Sys2Proof.Machine

/-! ### destuff after stuff (R81, R173) -/

theorem destuffFrom_true {c : Nat} (h : c < 5) (bs : List Bit) :
    destuffFrom c (true :: bs) = (destuffFrom (c + 1) bs).map (true :: ·) := if_neg (by omega)

theorem destuffFrom_false {c : Nat} (h : c ≠ 5) (bs : List Bit) :
    destuffFrom c (false :: bs) = (destuffFrom 0 bs).map (false :: ·) := if_neg h

/-- A 0 after five 1-bits is a stuffed one. -/
theorem destuffFrom_stuffed (bs : List Bit) : destuffFrom 5 (false :: bs) = destuffFrom 0 bs := if_pos rfl

theorem stuffFrom_true_four (bs : List Bit) : stuffFrom 4 (true :: bs) = true :: false :: stuffFrom 0 bs := if_pos rfl

theorem stuffFrom_true {c : Nat} (h : c ≠ 4) (bs : List Bit) :
    stuffFrom c (true :: bs) = true :: stuffFrom (c + 1) bs := if_neg (by simpa [Config.stuffRun] using h)

theorem stuffFrom_false (c : Nat) (bs : List Bit) : stuffFrom c (false :: bs) = false :: stuffFrom 0 bs := rfl

/-- The two passes count the same run, so the destuffing pass meets each stuffed 0 with its counter at 5. -/
theorem destuffFrom_stuffFrom (bs : List Bit) {c : Nat} (h : c < 5) : destuffFrom c (stuffFrom c bs) = some bs := by
  induction bs generalizing c with
  | nil => rfl
  | cons b bs ih =>
    cases b with
    | false => rw [stuffFrom_false, destuffFrom_false (by omega), ih (by decide), Option.map_some]
    | true =>
      by_cases h4 : c = 4
      · subst h4
        rw [stuffFrom_true_four, destuffFrom_true h, destuffFrom_stuffed, ih (by decide), Option.map_some]
      · rw [stuffFrom_true h4, destuffFrom_true h, ih (by omega), Option.map_some]

/-- Settles O38, by induction over the bits with the run counter that both passes keep. -/
theorem destuffInvertsStuff : Obligations.DestuffInvertsStuff := fun bs => destuffFrom_stuffFrom bs (by decide)

/-! ### How many 0s are stuffed (R83) -/

/-- The sum of floor(r / 5) over the runs of 1-bits of a bit string that continues a run of `r` (R83). -/
def stuffedFrom (r : Nat) (bs : List Bit) : Nat := ((onesRuns r bs).map (· / 5)).sum

theorem stuffedCount_eq (P : List Byte) : stuffedCount P = stuffedFrom 0 (bytesBits P) := rfl

@[simp] theorem stuffedFrom_nil (r : Nat) : stuffedFrom r [] = r / 5 := rfl

@[simp] theorem stuffedFrom_true (r : Nat) (bs : List Bit) : stuffedFrom r (true :: bs) = stuffedFrom (r + 1) bs := rfl

@[simp] theorem stuffedFrom_false (r : Nat) (bs : List Bit) : stuffedFrom r (false :: bs) = r / 5 + stuffedFrom 0 bs := rfl

/-- Five 1-bits more in the run the string continues are one stuffed 0 more. -/
theorem stuffedFrom_add_five (r : Nat) (bs : List Bit) : stuffedFrom (r + 5) bs = stuffedFrom r bs + 1 := by
  induction bs generalizing r with
  | nil => simp
  | cons b bs ih =>
    cases b with
    | false => simp only [stuffedFrom_false]; omega
    | true => rw [stuffedFrom_true, stuffedFrom_true, Nat.add_right_comm, ih]

/-- Each stuffed 0 takes five 1-bits. -/
theorem stuffedFrom_le (r : Nat) (bs : List Bit) : stuffedFrom r bs ≤ (r + bs.length) / 5 := by
  induction bs generalizing r with
  | nil => simp
  | cons b bs ih =>
    cases b with
    | false => have := ih 0; simp only [stuffedFrom_false, List.length_cons]; omega
    | true => have := ih (r + 1); simp only [stuffedFrom_true, List.length_cons]; omega

theorem stuffedFrom_replicate_true (r n : Nat) : stuffedFrom r (List.replicate n true) = (r + n) / 5 := by
  induction n generalizing r with
  | zero => rfl
  | succ n ih => rw [List.replicate_succ, stuffedFrom_true, ih, Nat.add_right_comm, Nat.add_assoc]

theorem stuffFrom_length (bs : List Bit) {c : Nat} (h : c < 5) :
    (stuffFrom c bs).length = bs.length + stuffedFrom c bs := by
  induction bs generalizing c with
  | nil => simp [stuffFrom]; omega
  | cons b bs ih =>
    cases b with
    | false =>
      rw [stuffFrom_false, List.length_cons, List.length_cons, ih (by decide), stuffedFrom_false]
      omega
    | true =>
      rw [stuffedFrom_true, List.length_cons]
      by_cases h4 : c = 4
      · subst h4
        rw [stuffFrom_true_four, List.length_cons, List.length_cons, ih (by decide), stuffedFrom_add_five 0]
        omega
      · rw [stuffFrom_true h4, List.length_cons, ih (by omega)]
        omega

/-! ### The frame's lengths (R82, R83, R136) -/

theorem bytesBits_length (P : List Byte) : (bytesBits P).length = 8 * P.length := by
  induction P with
  | nil => rfl
  | cons v vs ih => rw [bytesBits, List.length_append, ih, List.length_cons]; simp [byteBits]; omega

theorem stuff_length (P : List Byte) : (stuff P).length = 8 * P.length + stuffedCount P := by
  rw [stuff, stuffFrom_length _ (by decide), bytesBits_length, stuffedCount_eq]

theorem fill_length (P : List Byte) : (fill P).length = (8 - stuffedCount P % 8) % 8 := by
  rw [fill, List.length_replicate, stuff_length]
  omega

/-- The fill makes the wire a whole number of bytes (R82). -/
theorem wire_length (P : List Byte) : (wire P).length = 8 * (P.length + 2 + (stuffedCount P + 7) / 8) := by
  have hflag : flagBits.length = 8 := rfl
  simp only [wire, List.length_append, hflag, stuff_length, fill_length]
  omega

theorem wireBytes_length (P : List Byte) : (wireBytes P).length = P.length + 2 + (stuffedCount P + 7) / 8 :=
  groupBytes_length _ _ (wire_length P)

theorem byteBits_bitsToByte (b7 b6 b5 b4 b3 b2 b1 b0 : Bit) :
    byteBits (bitsToByte b7 b6 b5 b4 b3 b2 b1 b0) = [b7, b6, b5, b4, b3, b2, b1, b0] := by
  simp only [byteBits, bitsToByte, BitVec.append_ofBool]
  simp

/-- Bits cut into bytes are the bits of those bytes, where no group is left out. -/
theorem bytesBits_groupBytes (n : Nat) (bits : List Bit) (h : bits.length = 8 * n) : bytesBits (groupBytes bits) = bits := by
  induction n generalizing bits with
  | zero =>
    obtain rfl := List.length_eq_zero_iff.mp (by simpa using h)
    rfl
  | succ n ih =>
    match bits, h with
    | b7 :: b6 :: b5 :: b4 :: b3 :: b2 :: b1 :: b0 :: rest, h =>
      rw [groupBytes, bytesBits, byteBits_bitsToByte, ih rest (by simp only [List.length_cons] at h; omega)]
      rfl

theorem stuffedCount_le {P : List Byte} (h : P.length ≤ 256) : stuffedCount P ≤ 409 := by
  have hle := stuffedFrom_le 0 (bytesBits P)
  rw [bytesBits_length] at hle
  rw [stuffedCount_eq]
  omega

/-! ### The largest frame (R83) -/

theorem bytesBits_replicate_ones (n : Nat) : bytesBits (List.replicate n 0xFF) = List.replicate (8 * n) true := by
  induction n with
  | zero => rfl
  | succ n ih => rw [List.replicate_succ, bytesBits, ih, Nat.mul_succ, Nat.add_comm, List.replicate_add]; rfl

theorem stuffedCount_replicate_ones (n : Nat) : stuffedCount (List.replicate n 0xFF) = 8 * n / 5 := by
  rw [stuffedCount_eq, bytesBits_replicate_ones, stuffedFrom_replicate_true, Nat.zero_add]

/-- Settles O27, from the number of stuffed bits and the length of the wire. -/
theorem frameLengths : Obligations.FrameLengths := by
  refine ⟨fun P => ⟨stuff_length P, wireBytes_length P, fill_length P, bytesBits_groupBytes _ _ (wire_length P),
    fun hP => ?_⟩, rfl, stuffedCount_replicate_ones 256, ?_⟩
  · have hS := stuffedCount_le hP
    rw [wireBytes_length]
    omega
  · rw [wireBytes_length, stuffedCount_replicate_ones, List.length_replicate]

end Sys2Proof.Machine
end

section
/-! PROOFS. The Bit Writer (R110 to R113): a row of bits up to the byte it makes full, the flag and the pad from each W_POS,
whole bytes, and what the writer's and the encoder's micro-operations leave unchanged. -/

namespace Sys2Proof.Machine

/-! ### A row of bits that makes a byte full (R110) -/

/-- A row that makes the pending byte full comes to the WRITE_BIT that asks for the write of the byte the row makes. -/
theorem writeBitsOn_to_flush (bs cs : List Bit) (e : EncCall) (p : TxPort) (h : bs.length = e.wPos.toNat + 1) :
    ∃ v b, setBit v 0 b = setBitsFrom e.wByte e.wPos.toNat bs ∧
      writeBitsOn (bs ++ cs) e p = writeBitsOn (b :: cs) { e with wByte := v, wPos := 0 } p := by
  obtain ⟨bs, b, rfl⟩ := List.eq_nil_or_concat' bs |>.resolve_left (by rintro rfl; simp at h)
  have hl : bs.length = e.wPos.toNat := by simpa using h
  refine ⟨setBitsFrom e.wByte e.wPos.toNat bs, b, ?_, ?_⟩
  · rw [setBitsFrom_append_singleton, hl, Nat.sub_self]
  · rw [List.append_assoc, writeBitsOn_to_last bs _ e p hl, List.singleton_append]

/-- Answered OK, the row goes on with an empty byte. -/
theorem writeBitsOn_flush_ok (bs cs : List Bit) {e : EncCall} {p : TxPort} {rest : List TxAnswer}
    (h : bs.length = e.wPos.toNat + 1) (hp : p.answers = .ok :: rest) :
    writeBitsOn (bs ++ cs) e p =
      writeBitsOn cs { e with wByte := 0x00, wPos := 7 }
        ⟨rest, p.log ++ [(setBitsFrom e.wByte e.wPos.toNat bs, .ok)]⟩ := by
  obtain ⟨v, b, hv, hrow⟩ := writeBitsOn_to_flush bs cs e p h
  rw [hrow, writeBitsOn, writeBitOn_ok b rfl hp, Flow.andThen_done, hv]

/-- Answered ERR, the row ends there. -/
theorem writeBitsOn_flush_err (bs cs : List Bit) {e : EncCall} {p : TxPort} {rest : List TxAnswer}
    (h : bs.length = e.wPos.toNat + 1) (hp : p.answers = .err :: rest) :
    ∃ e', writeBitsOn (bs ++ cs) e p =
      .abort .ioError (e', ⟨rest, p.log ++ [(setBitsFrom e.wByte e.wPos.toNat bs, .err)]⟩) := by
  obtain ⟨v, b, hv, hrow⟩ := writeBitsOn_to_flush bs cs e p h
  exact ⟨_, by rw [hrow, writeBitsOn, writeBitOn_err b rfl hp, Flow.andThen_abort, hv]⟩

/-- A row that does not fill the pending byte, in full. -/
theorem writeBitsOn_within (bs : List Bit) (e : EncCall) (p : TxPort) (h : bs.length ≤ e.wPos.toNat) :
    writeBitsOn bs e p = .done ({ e with
      wByte := setBitsFrom e.wByte e.wPos.toNat bs, wPos := BitVec.ofNat 3 (e.wPos.toNat - bs.length) }, p) := by
  induction bs generalizing e with
  | nil => simp [writeBitsOn, setBitsFrom]
  | cons b bs ih =>
    simp only [List.length_cons] at h
    have h0 : e.wPos ≠ 0 := fun hz => by simp [hz] at h
    have hpred : (e.wPos - 1).toNat = e.wPos.toNat - 1 := Nat.eq_sub_of_add_eq (toNat_wPos_sub h0)
    rw [writeBitsOn, writeBitOn_mid b p h0, Flow.andThen_done, ih _ (by simp only; omega)]
    simp only [setBitsFrom, hpred, List.length_cons, Nat.sub_sub, Nat.add_comm 1]

/-! ### WRITE_BIT, WRITE_FLAG and PAD_ONES on the state (R110 to R112) -/

/-- Settles O18, by W_POS and the channel's answer. -/
theorem writeBitEffect : Obligations.WriteBitEffect := by
  refine ⟨fun b => by cases b <;> rfl, fun v i j b => getLsbD_setBit v b, fun s e b hu =>
    ⟨fun h0 => ?_, fun h0 rest hp => ?_, fun h0 rest hp => ?_⟩⟩
  · exact State.onEncoder_done hu (writeBitOn_mid b s.tx h0)
  · exact State.onEncoder_done hu (writeBitOn_ok b h0 hp)
  · exact State.onEncoder_abort hu (writeBitOn_err b h0 hp)

theorem getD_drop (bs : List Bit) (n k : Nat) : (bs.drop n).getD k false = bs.getD (n + k) false := by
  rw [List.getD_eq_getElem?_getD, List.getElem?_drop, ← List.getD_eq_getElem?_getD]

/-- The last bits of a byte, written from position 7 into an empty byte. -/
theorem setBitsFrom_drop_byteBits (f : Byte) (n : Nat) : setBitsFrom 0x00 7 ((byteBits f).drop n) = f <<< n := by
  have hlen : ((byteBits f).drop n).length = 8 - n := by simp [byteBits]
  refine BitVec.eq_of_getLsbD_eq fun k hk => ?_
  rw [getLsbD_setBitsFrom _ _ (by decide) hk (by omega), hlen, BitVec.getLsbD_shiftLeft]
  by_cases hkn : n ≤ k
  · rw [if_pos (by omega), getD_drop, byteBits_getD f (by omega), show 7 - (n + (7 - k)) = k - n by omega]
    simp [hk, show ¬k < n by omega]
  · rw [if_neg (by omega)]
    simp [show k < n by omega]

/-- The pending byte made full with the first bits of `f`: those above W_POS stay (R111, R112). -/
def EncCall.filledWith (e : EncCall) (f : Byte) : Byte :=
  (e.wByte &&& (0xFF#8 <<< (e.wPos.toNat + 1))) ||| (f >>> (7 - e.wPos.toNat))

theorem EncCall.setBitsFrom_take (e : EncCall) (f : Byte) :
    setBitsFrom e.wByte e.wPos.toNat ((byteBits f).take (e.wPos.toNat + 1)) = e.filledWith f :=
  setBitsFrom_byteBits _ f e.wPos.isLt

/-- The 1-bits up to the last position are the first bits of 0xFF. -/
theorem EncCall.setBitsFrom_ones (e : EncCall) :
    setBitsFrom e.wByte e.wPos.toNat (List.replicate (e.wPos.toNat + 1) true) = e.filledWith 0xFF#8 := by
  have hlt := e.wPos.isLt
  rw [← e.setBitsFrom_take, show byteBits 0xFF#8 = List.replicate 8 true from rfl, List.take_replicate,
    Nat.min_eq_left (by omega)]

section
variable {e : EncCall} {p : TxPort} {rest : List TxAnswer}

/-- WRITE_FLAG answered OK: the first W_POS + 1 bits of the flag fill the byte, and the others stand in the next one. -/
theorem writeFlagOn_ok (hp : p.answers = .ok :: rest) :
    writeFlagOn e p = .done ({ e with wByte := Config.flag <<< (e.wPos.toNat + 1) },
      ⟨rest, p.log ++ [(e.filledWith Config.flag, .ok)]⟩) := by
  have hlt := e.wPos.isLt
  have hlen : ((byteBits Config.flag).drop (e.wPos.toNat + 1)).length = 7 - e.wPos.toNat := by simp [byteBits]
  have hpos : BitVec.ofNat 3 (7 - (7 - e.wPos.toNat)) = e.wPos := by
    rw [Nat.sub_sub_self (by omega), BitVec.ofNat_toNat, BitVec.setWidth_eq]
  rw [writeFlagOn, ← List.take_append_drop (e.wPos.toNat + 1) (byteBits Config.flag),
    writeBitsOn_flush_ok (e := e) _ _ (by simp [byteBits]; omega) hp,
    writeBitsOn_within _ _ _ (by rw [hlen]; exact Nat.sub_le 7 _), hlen, e.setBitsFrom_take]
  simp only [show (7 : BitVec 3).toNat = 7 from rfl, setBitsFrom_drop_byteBits, hpos]

theorem writeFlagOn_err (hp : p.answers = .err :: rest) :
    ∃ e', writeFlagOn e p = .abort .ioError (e', ⟨rest, p.log ++ [(e.filledWith Config.flag, .err)]⟩) := by
  have hlt := e.wPos.isLt
  obtain ⟨e', h⟩ := writeBitsOn_flush_err (e := e) ((byteBits Config.flag).take (e.wPos.toNat + 1))
    ((byteBits Config.flag).drop (e.wPos.toNat + 1)) (by simp [byteBits]; omega) hp
  rw [List.take_append_drop, e.setBitsFrom_take] at h
  exact ⟨e', h⟩

/-- PAD_ONES answered OK: the W_POS + 1 ones fill the byte, and the next one is empty. -/
theorem padOnesOn_ok (h7 : e.wPos ≠ 7) (hp : p.answers = .ok :: rest) :
    padOnesOn e p = .done ({ e with wByte := 0x00, wPos := 7 }, ⟨rest, p.log ++ [(e.filledWith 0xFF#8, .ok)]⟩) := by
  rw [padOnesOn_eq_writeBitsOn p h7, ← List.append_nil (List.replicate _ _), writeBitsOn_flush_ok _ _ (by simp) hp,
    e.setBitsFrom_ones, writeBitsOn]

theorem padOnesOn_err (h7 : e.wPos ≠ 7) (hp : p.answers = .err :: rest) :
    ∃ e', padOnesOn e p = .abort .ioError (e', ⟨rest, p.log ++ [(e.filledWith 0xFF#8, .err)]⟩) := by
  obtain ⟨e', h⟩ := writeBitsOn_flush_err (e := e) (List.replicate (e.wPos.toNat + 1) true) [] (by simp) hp
  rw [List.append_nil, ← padOnesOn_eq_writeBitsOn p h7, e.setBitsFrom_ones] at h
  exact ⟨e', h⟩

end

/-- Settles O19: the flag's bits are cut where the pending byte is full. -/
theorem writeFlagEffect : Obligations.WriteFlagEffect := by
  refine ⟨rfl, fun s e hu => ⟨fun rest hp => ?_, fun rest hp => ?_⟩⟩
  · exact State.onEncoder_done hu (writeFlagOn_ok hp)
  · obtain ⟨e', h⟩ := writeFlagOn_err hp
    exact State.onEncoder_abort hu h

/-- Settles O20: at W_POS 7 the loop ends at once, and otherwise the ones written fill the pending byte. -/
theorem padOnesEffect : Obligations.PadOnesEffect := by
  refine ⟨rfl, fun s e hu => ⟨fun h7 => ?_, fun h7 rest hp => ?_, fun h7 rest hp => ?_⟩⟩
  · exact State.onEncoder_done hu (padOnesLoop_of_full 7 s.tx h7)
  · exact State.onEncoder_done hu (padOnesOn_ok h7 hp)
  · obtain ⟨e', h⟩ := padOnesOn_err h7 hp
    exact State.onEncoder_abort hu h

/-! ### Whole bytes, and the bits after them (R113) -/

/-- A byte's bits written into an empty byte are that byte. -/
theorem setBitsFrom_byteBits_full (v : Byte) : setBitsFrom 0x00 7 (byteBits v) = v := by
  rw [← List.drop_zero (l := byteBits v), setBitsFrom_drop_byteBits, BitVec.shiftLeft_zero]

/-- The bits of whole bytes, from an empty pending byte, are one write for each byte. -/
theorem writeBitsOn_bytesBits (vs : List Byte) (cs : List Bit) {e : EncCall} {p : TxPort} {rest : List TxAnswer}
    (hw : e.wByte = 0x00) (h7 : e.wPos = 7) (hp : p.answers = List.replicate vs.length .ok ++ rest) :
    writeBitsOn (bytesBits vs ++ cs) e p = writeBitsOn cs e ⟨rest, p.log ++ vs.map (fun v => (v, TxAnswer.ok))⟩ := by
  induction vs generalizing p with
  | nil => simp [bytesBits, ← show p.answers = rest from hp]
  | cons v vs ih =>
    have hpos : e.wPos.toNat = 7 := by rw [h7]; rfl
    have hempty : { e with wByte := 0x00, wPos := 7 } = e := by rw [← hw, ← h7]
    rw [bytesBits, List.append_assoc, writeBitsOn_flush_ok _ _ (by rw [hpos]; rfl) hp, hempty, hw, hpos,
      setBitsFrom_byteBits_full, ih rfl, List.append_assoc]
    rfl

/-- The bits that `groupBytes` cuts into bytes are all but those of the last, unfinished group. -/
theorem bytesBits_groupBytes_append_drop :
    ∀ bs : List Bit, bytesBits (groupBytes bs) ++ bs.drop (8 * (bs.length / 8)) = bs
  | b7 :: b6 :: b5 :: b4 :: b3 :: b2 :: b1 :: b0 :: rest => by
    have hlen : 8 * ((b7 :: b6 :: b5 :: b4 :: b3 :: b2 :: b1 :: b0 :: rest).length / 8) = 8 * (rest.length / 8) + 8 := by
      simp only [List.length_cons]
      omega
    rw [groupBytes, bytesBits, byteBits_bitsToByte, List.append_assoc, hlen]
    exact congrArg ([b7, b6, b5, b4, b3, b2, b1, b0] ++ ·) (bytesBits_groupBytes_append_drop rest)
  | [] | [_] | [_, _] | [_, _, _] | [_, _, _, _] | [_, _, _, _, _] | [_, _, _, _, _, _] | [_, _, _, _, _, _, _] => by
    simp [groupBytes, bytesBits]

theorem groupBytes_length_eq_div (bs : List Bit) : (groupBytes bs).length = bs.length / 8 := by
  have h := congrArg List.length (bytesBits_groupBytes_append_drop bs)
  rw [List.length_append, bytesBits_length, List.length_drop] at h
  omega

/-- Byte `j` of the groups holds the bits from `8 j` on, the first one in bit 7 (R176). -/
theorem groupBytes_getD_getLsbD (bs : List Bit) {j k : Nat} (hj : j < bs.length / 8) (hk : k < 8) :
    ((groupBytes bs).getD j 0).getLsbD (7 - k) = bs.getD (8 * j + k) false := by
  have hlen : (bytesBits (groupBytes bs)).length = 8 * (bs.length / 8) := by
    rw [bytesBits_length, groupBytes_length_eq_div]
  rw [← bytesBits_getD _ j hk, ← List.getD_append _ (bs.drop (8 * (bs.length / 8))) _ _ (by omega),
    bytesBits_groupBytes_append_drop]

section
variable (bs : List Bit)

/-- The bits of the last, unfinished group. -/
theorem length_drop_groups : (bs.drop (8 * (bs.length / 8))).length = bs.length % 8 := by
  rw [List.length_drop]
  omega

/-- A row of bits from an empty pending byte: its whole groups are written, and the others stand in the pending byte. -/
theorem writeBitsOn_row {e : EncCall} {p : TxPort} {rest : List TxAnswer} (hw : e.wByte = 0x00) (h7 : e.wPos = 7)
    (hp : p.answers = List.replicate (bs.length / 8) .ok ++ rest) :
    writeBitsOn bs e p = .done ({ e with
        wByte := setBitsFrom 0x00 7 (bs.drop (8 * (bs.length / 8))), wPos := BitVec.ofNat 3 (7 - bs.length % 8) },
      ⟨rest, p.log ++ (groupBytes bs).map (fun v => (v, TxAnswer.ok))⟩) := by
  have hpos : e.wPos.toNat = 7 := by rw [h7]; rfl
  have hlen := length_drop_groups bs
  have hrow := writeBitsOn_bytesBits (groupBytes bs) (bs.drop (8 * (bs.length / 8))) hw h7
    (by rwa [groupBytes_length_eq_div])
  rw [bytesBits_groupBytes_append_drop] at hrow
  rw [hrow, writeBitsOn_within _ _ _ (by omega), hlen, hpos, hw]

/-- WRITE_BITs run one after the other are a row of bits. -/
theorem execAll_writeBit {s : State} {e e' : EncCall} {p : TxPort} (hu : s.unit = .encoding e)
    (ho : s.outstanding = none) (h : writeBitsOn bs e s.tx = .done (e', p)) :
    execAll (bs.map .writeBit) s = .next (s.withEnc e' p) := by
  induction bs generalizing s e with
  | nil =>
    obtain ⟨rfl, rfl⟩ : e = e' ∧ s.tx = p := by simpa [writeBitsOn] using h
    rw [List.map_nil, execAll, State.withEnc, ← hu, ← ho]
  | cons b bs ih =>
    rw [writeBitsOn] at h
    cases hb : writeBitOn b e s.tx with
    | done x =>
      obtain ⟨e1, p1⟩ := x
      rw [hb, Flow.andThen_done] at h
      have hexec : exec (.writeBit b) s = .next (s.withEnc e1 p1) := State.onEncoder_done hu hb
      rw [List.map_cons, execAll, hexec]
      exact ih (s := s.withEnc e1 p1) rfl rfl h
    | wait r => rw [hb] at h; cases h
    | abort k x => rw [hb] at h; cases h
    | fault g => rw [hb] at h; cases h

end

/-- Settles O21: the row's whole groups are whole bytes, and the bits after them do not fill the pending byte. -/
theorem writerSequence : Obligations.WriterSequence := by
  intro s e bs rest hu hw h7 ho hp
  have hlen := length_drop_groups bs
  refine ⟨setBitsFrom 0x00 7 (bs.drop (8 * (bs.length / 8))), execAll_writeBit bs hu ho (writeBitsOn_row bs hw h7 hp),
    fun i hi => ?_, fun j hj => ?_, groupBytes_length_eq_div bs, fun j k => groupBytes_getD_getLsbD bs⟩
  · rw [getLsbD_setBitsFrom _ _ (by decide) (by omega) (by omega), if_neg (by omega)]
    exact BitVec.getLsbD_zero
  · rw [getLsbD_setBitsFrom _ _ (by decide) (by omega) (by omega), if_pos (by omega), Nat.sub_sub_self (by omega),
      getD_drop]

/-! ### What the writer's and the encoder's micro-operations leave unchanged (R39, R110 to R112, R133) -/

theorem WriterResult.same_of_done {e e' : EncCall} {p : TxPort} (h : WriterResult e (.done (e', p))) : e.SameCall e' := by
  cases h
  assumption

theorem EncoderResult.same_of_done {e e' : EncCall} {p : TxPort} (h : EncoderResult e (.done (e', p))) :
    e.SamePayload e' := by
  cases h
  assumption

theorem EncoderResult.kind_of_abort {e : EncCall} {k : Kind} {x : EncCall × TxPort} (h : EncoderResult e (.abort k x)) :
    k = .ioError := by
  cases h
  rfl

/-- What the micro-operation `i` keeps of an ENCODE's state: all but W_BYTE and W_POS, and E_ONES for ENC_PAYLOAD_BIT. -/
structure EncCall.KeptBy (i : Instr) (e e' : EncCall) : Prop where
  samePayload : e.SamePayload e'
  eOnes : (∃ b, i = .encPayloadBit b) ∨ e'.eOnes = e.eOnes

/-- What the micro-operation `i` of an ENCODE leaves alone in the state: STATUS, CUR_CMD and the call's state too, where the
command does not end. -/
structure State.WriterFrame (i : Instr) (s t : State) : Prop where
  mem : t.mem = s.mem
  rx : t.rx = s.rx
  hostReads : t.hostReads = s.hostReads
  agenda : t.agenda = s.agenda
  call : (∃ e e', s.unit = .encoding e ∧ t.unit = .encoding e' ∧ t.status = s.status ∧ t.curCmd = s.curCmd ∧
      e.KeptBy i e') ∨
    ∃ s' : State, t = s'.completed .ioError 0

section
variable {i : Instr} {s t : State} {f : EncCall → TxPort → Flow (EncCall × TxPort)}

theorem State.onEncoder_writerFrame (hf : ∀ e p, EncoderResult e (f e p))
    (hones : (∃ b, i = .encPayloadBit b) ∨ ∀ e p, WriterResult e (f e p)) (h : s.onEncoder f = .next t) :
    s.WriterFrame i t := by
  obtain ⟨e, hu, ⟨e', p, hd, rfl⟩ | ⟨r, -, rfl⟩ | ⟨k, e', p, ha, rfl⟩⟩ := State.onEncoder_next h
  · have hkept : e.KeptBy i e' :=
      ⟨(hd ▸ hf e s.tx).same_of_done, hones.imp_right fun hw => (hd ▸ hw e s.tx).same_of_done.eOnes⟩
    exact ⟨rfl, rfl, rfl, rfl, .inl ⟨e, e', hu, rfl, rfl, rfl, hkept⟩⟩
  · exact ⟨rfl, rfl, rfl, rfl, .inl ⟨e, e, hu, hu, rfl, rfl, rfl, .inr rfl⟩⟩
  · obtain rfl : k = .ioError := (ha ▸ hf e s.tx).kind_of_abort
    exact ⟨rfl, rfl, rfl, rfl, .inr ⟨_, rfl⟩⟩

/-- The writer's own operations keep E_ONES. -/
theorem State.onEncoder_writerFrame_of_writer (hw : ∀ e p, WriterResult e (f e p)) (h : s.onEncoder f = .next t) :
    s.WriterFrame i t :=
  State.onEncoder_writerFrame (fun e p => (hw e p).encoderResult) (.inr hw) h

end

/-- Settles O22: what each of the four operations can come to, and what comes of that in the state. -/
theorem writerFrame : Obligations.WriterFrame := by
  intro s t i hi h
  have hframe : s.WriterFrame i t := by
    rcases hi with ⟨b, rfl⟩ | rfl | rfl | ⟨b, rfl⟩
    · exact State.onEncoder_writerFrame_of_writer (writeBitOn_result b) h
    · exact State.onEncoder_writerFrame_of_writer writeFlagOn_result h
    · exact State.onEncoder_writerFrame_of_writer padOnesOn_result h
    · exact State.onEncoder_writerFrame (encPayloadBitOn_result b) (.inl ⟨b, rfl⟩) h
  refine ⟨fun a => by rw [hframe.mem], hframe.rx, hframe.hostReads, hframe.agenda, ?_⟩
  obtain ⟨e, e', hs, ht, hstatus, hcmd, hsame, hones⟩ | ⟨s', rfl⟩ := hframe.call
  · refine .inl ⟨e, e', hs, ht, hstatus, hcmd, ?_, ?_, ?_, ?_, ?_, hones⟩ <;> rw [hsame]
  · exact .inr ⟨rfl, rfl, rfl⟩

end Sys2Proof.Machine
end

section
/-! PROOFS. A whole ENCODE (R130, R136, R139): its run ends as one row of WRITE_BITs of wire(P) does, whatever the channel
answers, in nine steps for each payload byte and four more. -/

namespace Sys2Proof.Machine

/-! ### The bits of a micro-operation, as one row (R110, R133) -/

theorem writeBitsOn_append (bs cs : List Bit) (e : EncCall) (p : TxPort) :
    writeBitsOn (bs ++ cs) e p = (writeBitsOn bs e p).andThen fun x => writeBitsOn cs x.1 x.2 := by
  induction bs generalizing e p with
  | nil => rfl
  | cons b bs ih =>
    simp only [List.cons_append, writeBitsOn]
    cases writeBitOn b e p with
    | done x => simp only [Flow.andThen_done, ih]
    | wait r => rfl
    | abort k x => rfl
    | fault g => rfl

theorem writeBitsOn_singleton (b : Bit) (e : EncCall) (p : TxPort) : writeBitsOn [b] e p = writeBitOn b e p := by
  rw [writeBitsOn]
  cases writeBitOn b e p <;> rfl

theorem writeBitsOn_pair (b c : Bit) (e : EncCall) (p : TxPort) :
    writeBitsOn [b, c] e p = (writeBitOn b e p).andThen fun x => writeBitOn c x.1 x.2 := by
  rw [writeBitsOn]
  exact congrArg _ (funext fun x => writeBitsOn_singleton c x.1 x.2)

/-- A row that is done has moved W_POS down by its length, round the byte. -/
theorem writeBitsOn_wPos {bs : List Bit} {e e' : EncCall} {p p' : TxPort} (h : writeBitsOn bs e p = .done (e', p')) :
    (e'.wPos.toNat + bs.length) % 8 = e.wPos.toNat := by
  induction bs generalizing e p with
  | nil =>
    obtain ⟨rfl, -⟩ : e = e' ∧ p = p' := by simpa [writeBitsOn] using h
    exact Nat.mod_eq_of_lt e.wPos.isLt
  | cons b bs ih =>
    rw [writeBitsOn] at h
    rw [List.length_cons]
    by_cases h0 : e.wPos = 0
    · cases hp : p.answers with
      | nil => rw [writeBitOn_wait b h0 hp] at h; cases h
      | cons a rest =>
        cases a with
        | ok =>
          rw [writeBitOn_ok b h0 hp, Flow.andThen_done] at h
          have h7 : (e'.wPos.toNat + bs.length) % 8 = 7 := ih h
          rw [h0]
          show _ = 0
          omega
        | err => rw [writeBitOn_err b h0 hp] at h; cases h
    · rw [writeBitOn_mid b p h0, Flow.andThen_done] at h
      have hsub := toNat_wPos_sub h0
      have hlt := e.wPos.isLt
      have hrest : (e'.wPos.toNat + bs.length) % 8 = (e.wPos - 1).toNat := ih h
      omega

/-- E_ONES after the payload bit `b` (R133). -/
def EncCall.onesAfter (e : EncCall) (b : Bit) : BitVec 3 := if b then (if e.eOnes = 4 then 0 else e.eOnes + 1) else 0

section
variable {e : EncCall} (hones : e.eOnes.toNat ≤ 4)
include hones

theorem EncCall.toNat_eOnes_add : (e.eOnes + 1).toNat = e.eOnes.toNat + 1 := by
  rw [BitVec.toNat_add]
  exact Nat.mod_eq_of_lt (show e.eOnes.toNat + 1 < 8 by omega)

theorem EncCall.onesAfter_le (b : Bit) : (e.onesAfter b).toNat ≤ 4 := by
  unfold EncCall.onesAfter
  split
  · split
    · exact Nat.zero_le 4
    · rename_i h4
      have hne : e.eOnes.toNat ≠ 4 := fun h => h4 (BitVec.eq_of_toNat_eq h)
      rw [EncCall.toNat_eOnes_add hones]
      omega
  · exact Nat.zero_le 4

/-- The bits that ENC_PAYLOAD_BIT writes are the next ones of the stuffed payload (R81, R133). -/
theorem EncCall.stuffFrom_cons (b : Bit) (bs : List Bit) :
    stuffFrom e.eOnes.toNat (b :: bs) = stuffFrom e.eOnes.toNat [b] ++ stuffFrom (e.onesAfter b).toNat bs := by
  cases b with
  | false => rfl
  | true =>
    by_cases h4 : e.eOnes = 4
    · rw [EncCall.onesAfter, if_pos rfl, if_pos h4, h4]
      exact stuffFrom_true_four bs
    · have hne : e.eOnes.toNat ≠ 4 := fun h => h4 (BitVec.eq_of_toNat_eq h)
      rw [stuffFrom_true hne, stuffFrom_true hne, EncCall.onesAfter, if_pos rfl, if_neg h4,
        EncCall.toNat_eOnes_add hones]
      rfl

end

/-- ENC_PAYLOAD_BIT is a row of one bit, or of two where a 0 is stuffed, and then the run counter. -/
theorem encPayloadBitOn_eq_writeBitsOn (b : Bit) (e : EncCall) (p : TxPort) :
    encPayloadBitOn b e p = (writeBitsOn (stuffFrom e.eOnes.toNat [b]) e p).andThen fun x =>
      .done ({ x.1 with eOnes := e.onesAfter b }, x.2) := by
  have hresult := writeBitOn_result b e p
  rw [encPayloadBitOn]
  cases b with
  | false => rw [stuffFrom_false, stuffFrom, writeBitsOn_singleton]; rfl
  | true =>
    by_cases h4 : e.eOnes = 4
    · rw [h4, show stuffFrom (4 : BitVec 3).toNat [true] = [true, false] from rfl, writeBitsOn_pair]
      generalize writeBitOn true e p = z at hresult
      cases hresult with
      | done e1 p1 same _ =>
        have h5 : e1.eOnes + 1 = 5 := by rw [same.eOnes, h4]; rfl
        simp only [Flow.andThen_done, if_pos, h5, EncCall.onesAfter, h4]
      | wait b => rfl
      | abort x => rfl
    · have hne : e.eOnes.toNat ≠ 4 := fun h => h4 (BitVec.eq_of_toNat_eq h)
      rw [stuffFrom_true hne, stuffFrom, writeBitsOn_singleton]
      generalize writeBitOn true e p = z at hresult
      cases hresult with
      | done e1 p1 same _ =>
        have h5 : e1.eOnes + 1 ≠ 5 := fun h => h4 (same.eOnes ▸ (by decide : ∀ x : BitVec 3, x + 1 = 5 → x = 4) _ h)
        simp only [Flow.andThen_done, if_pos, if_neg h5, EncCall.onesAfter, if_neg h4]
        rw [same.eOnes]
      | wait b => rfl
      | abort x => rfl

/-- A row of bits leaves the run counter as it is. -/
theorem writeBitsOn_keeps_ones (bs : List Bit) (e : EncCall) (p : TxPort) :
    writeBitsOn bs e p = (writeBitsOn bs e p).andThen fun x => .done ({ x.1 with eOnes := e.eOnes }, x.2) := by
  have hresult := writeBitsOn_result bs e p
  generalize writeBitsOn bs e p = z at hresult
  cases hresult with
  | done e' p' same _ => rw [Flow.andThen_done, ← same.eOnes]
  | wait b => rfl
  | abort x => rfl

/-! ### How a run ends -/

/-- The run of the sequencer from `s` ends in `t`, in `k` steps at most. -/
def State.EndsIn (k : Nat) (s t : State) : Prop := ∀ n, k ≤ n → runSequencer n s = .next t

theorem runSequencer_idle (n : Nat) {s : State} (hu : s.unit = .idle) : runSequencer n s = .next s := by
  cases n with
  | zero => rfl
  | succ n => simp [runSequencer, hu]

theorem State.EndsIn.of_idle {s : State} (hu : s.unit = .idle) : s.EndsIn 0 s := fun n _ => runSequencer_idle n hu

theorem State.RunsTo.endsIn {s t u : State} {k l : Nat} (h : s.RunsTo k t) (h' : t.EndsIn l u) : s.EndsIn (k + l) u :=
  fun n hn => by
    obtain ⟨fuel, rfl⟩ := Nat.exists_eq_add_of_le' (Nat.le_of_add_right_le hn)
    rw [h, h' fuel (by omega)]

theorem State.EndsIn.step {s t u : State} {k : Nat} (hu : s.unit.isIdle = false) (h : sequencerStep s = .next t)
    (ho : t.outstanding = none) (h' : t.EndsIn k u) : s.EndsIn (1 + k) u := (State.RunsTo.step hu h ho).endsIn h'

/-- The step that ends the command. -/
theorem State.EndsIn.last {s t : State} (k : Nat) (hu : s.unit.isIdle = false) (h : sequencerStep s = .next t)
    (ht : t.unit = .idle) (ho : t.outstanding = none) : s.EndsIn (1 + k) t :=
  fun n hn => (State.EndsIn.of_idle ht).step hu h ho n (by omega)

/-- How an ENCODE of `n` bytes ends where the rest of its bits come to this: completed with OK where they are all written,
with the error where a write fails, and not at all where they wait. -/
def State.endOf (s : State) (n : Nat) : Flow (EncCall × TxPort) → Option State
  | .done (_, p) => some (({ s with tx := p } : State).completed .ok n)
  | .abort k (_, p) => some (({ s with tx := p } : State).completed k 0)
  | .wait _ => none
  | .fault _ => none

/-- Only the writer's cursor matters to how a row ends. -/
theorem State.endOf_writeBitsOn_congr (s : State) (n : Nat) (bs : List Bit) {e e' : EncCall} (p : TxPort)
    (hbyte : e.wByte = e'.wByte) (hpos : e.wPos = e'.wPos) :
    s.endOf n (writeBitsOn bs e p) = s.endOf n (writeBitsOn bs e' p) := by
  induction bs generalizing e e' p with
  | nil => rfl
  | cons b bs ih =>
    rw [writeBitsOn, writeBitsOn]
    by_cases h0 : e.wPos = 0
    · have h0' : e'.wPos = 0 := hpos ▸ h0
      cases hp : p.answers with
      | nil => rw [writeBitOn_wait b h0 hp, writeBitOn_wait b h0' hp]; rfl
      | cons a rest =>
        cases a with
        | ok =>
          rw [writeBitOn_ok b h0 hp, writeBitOn_ok b h0' hp, hbyte]
          exact ih _ rfl rfl
        | err => rw [writeBitOn_err b h0 hp, writeBitOn_err b h0' hp, hbyte]; rfl
    · rw [writeBitOn_mid b p h0, writeBitOn_mid b p (hpos ▸ h0)]
      exact ih _ (by simp only [hbyte, hpos]) (by simp only [hpos])

/-- The call's state does not matter to how the command ends. -/
theorem State.endOf_setUnit (s : State) (n : Nat) (v : UnitState) (x : Flow (EncCall × TxPort)) :
    ({ s with unit := v } : State).endOf n x = s.endOf n x := by
  cases x <;> rfl

theorem State.endOf_withEnc (s : State) (n : Nat) (e : EncCall) (p : TxPort) (x : Flow (EncCall × TxPort)) :
    (s.withEnc e p).endOf n x = s.endOf n x := by
  cases x <;> rfl

/-- An ENCODE of `n` bytes in progress, with `bits` still to be written: they make whole bytes of the pending one, and
written in a row they end the command in `u`. -/
structure State.Sends (s : State) (m : List Host.Cell) (n : Nat) (e : EncCall) (bits : List Bit) (u : State) : Prop where
  unit : s.unit = .encoding e
  mem : s.mem = m
  len : e.eLen = BitVec.ofNat 9 n
  whole : bits.length % 8 = (e.wPos.toNat + 1) % 8
  ends : s.endOf n (writeBitsOn bits e s.tx) = some u

/-- The call's state after a micro-operation has left the cursor and the run counter at these, and SEQ has moved on. -/
def EncCall.movedOn (e : EncCall) (v : Byte) (q : BitVec 3) (ones : BitVec 3) : EncCall :=
  ({ e with wByte := v, wPos := q, eOnes := ones } : EncCall).advance

theorem EncCall.advance_cursor (e : EncCall) : e.advance.wByte = e.wByte ∧ e.advance.wPos = e.wPos := by
  unfold EncCall.advance
  split
  · exact ⟨rfl, rfl⟩
  · split <;> exact ⟨rfl, rfl⟩
  · exact ⟨rfl, rfl⟩
  · exact ⟨rfl, rfl⟩

section
variable {s u : State} {m : List Host.Cell} {n : Nat} {e : EncCall} {bs cs : List Bit} {w : UopWord} {i : Instr}
  {f : EncCall → TxPort → Flow (EncCall × TxPort)}

/-- A micro-operation that writes the next bits ends the command where they do, and else leads to the bits after them. -/
theorem State.Sends.micro {k : Nat} {ones : BitVec 3} (h : s.Sends m n e (bs ++ cs) u) (ha : seqAction s = .issue w)
    (hd : decodeU8 w = .ok i) (hx : exec i s = s.onEncoder f)
    (hf : f e s.tx = (writeBitsOn bs e s.tx).andThen fun x => .done ({ x.1 with eOnes := ones }, x.2))
    (hpad : e.ePhase ≠ .pad)
    (hnext : ∀ v q p, (s.withEnc (e.movedOn v q ones) p).Sends m n (e.movedOn v q ones) cs u →
      (s.withEnc (e.movedOn v q ones) p).EndsIn k u) : s.EndsIn (1 + k) u := by
  have hends := h.ends
  have hresult := writeBitsOn_result bs e s.tx
  have hpos := fun e' p' => @writeBitsOn_wPos bs e e' s.tx p'
  rw [writeBitsOn_append] at hends
  generalize writeBitsOn bs e s.tx = z at hf hends hresult hpos
  cases hresult with
  | wait b => cases hends
  | abort x =>
    have hu : ({ s with tx := x.2 } : State).completed .ioError 0 = u := Option.some.inj hends
    refine .last k (by rw [h.unit]; rfl) ?_ (hu ▸ rfl) (hu ▸ rfl)
    rw [sequencerStep_issue ha, issueMicro_of_exec_next hd (hx.trans (State.onEncoder_abort h.unit hf)), hu,
      State.advance_of_idle (hu ▸ rfl)]
  | done e1 p1 same _ =>
    have hmoved : ({ e1 with eOnes := ones } : EncCall).advance = e.movedOn e1.wByte e1.wPos ones := by
      rw [same]; rfl
    obtain ⟨hbyte, hpos1⟩ := EncCall.advance_cursor ({ e1 with eOnes := ones } : EncCall)
    have hrun := State.RunsTo.encoderMicro h.unit ha hd hx hf (by rw [same]; exact hpad)
    rw [hmoved] at hbyte hpos1 hrun
    refine hrun.endsIn (hnext _ _ _ ⟨rfl, h.mem, ?_, ?_, ?_⟩)
    · rw [EncCall.movedOn, EncCall.advance_eLen]
      exact h.len
    · have hwhole := h.whole
      have hpos := hpos _ _ rfl
      have hlt := e1.wPos.isLt
      rw [List.length_append] at hwhole
      rw [hpos1]
      simp only
      omega
    · rw [State.endOf_withEnc]
      exact (State.endOf_writeBitsOn_congr s n cs (e' := e1) p1 hbyte hpos1).trans hends

/-- WRITE_FLAG, at the start and at the end. -/
theorem State.Sends.flag {k : Nat} (h : s.Sends m n e (flagBits ++ cs) u)
    (hp : e.ePhase = .startFlag ∨ e.ePhase = .endFlag)
    (hnext : ∀ v q p, (s.withEnc (e.movedOn v q e.eOnes) p).Sends m n (e.movedOn v q e.eOnes) cs u →
      (s.withEnc (e.movedOn v q e.eOnes) p).EndsIn k u) : s.EndsIn (1 + k) u := by
  have ha : seqAction s = .issue (uopWord 0x2 false) := by
    rw [seqAction_encoding h.unit]
    rcases hp with hp | hp <;> simp only [encoderAction, hp]
  exact h.micro (i := .writeFlag) ha rfl rfl (writeBitsOn_keeps_ones flagBits e s.tx)
    (by rcases hp with hp | hp <;> simp [hp]) hnext

/-- PAD_ONES writes the fill, and is the command's last step (R130, R140). -/
theorem State.Sends.pad {r : Nat} (h : s.Sends m n e (List.replicate r true) u) (hr : r < 8) (hp : e.ePhase = .pad) :
    s.EndsIn 1 u := by
  have hflow : padOnesOn e s.tx = writeBitsOn (List.replicate r true) e s.tx := by
    have hwhole := h.whole
    have hlt := e.wPos.isLt
    rw [List.length_replicate] at hwhole
    by_cases h7 : e.wPos = 7
    · obtain rfl : r = 0 := by rw [h7] at hwhole; simp at hwhole; omega
      exact padOnesLoop_of_full 7 _ h7
    · have hne : e.wPos.toNat ≠ 7 := fun h => h7 (BitVec.eq_of_toNat_eq h)
      rw [padOnesOn_eq_writeBitsOn _ h7, show r = e.wPos.toNat + 1 by omega]
  have ha : seqAction s = .issue (uopWord 0x3 false) := by
    rw [seqAction_encoding h.unit]
    simp only [encoderAction, hp]
  have hends := h.ends
  have hresult := writeBitsOn_result (List.replicate r true) e s.tx
  generalize writeBitsOn (List.replicate r true) e s.tx = z at hends hresult hflow
  suffices ∃ t, exec .padOnes s = .next t ∧ t.advance = u ∧ u.unit = .idle ∧ u.outstanding = none by
    obtain ⟨t, hexec, ht, hu, ho⟩ := this
    refine .last 0 (by rw [h.unit]; rfl) ?_ hu ho
    rw [sequencerStep_issue ha, issueMicro_of_exec_next rfl hexec, ht]
  cases hresult with
  | wait b => cases hends
  | abort x =>
    obtain rfl := Option.some.inj hends
    exact ⟨_, State.onEncoder_abort h.unit hflow, rfl, rfl, rfl⟩
  | done e1 p1 same _ =>
    obtain rfl := Option.some.inj hends
    have hpad : e1.ePhase = .pad := by rw [same]; exact hp
    have hlen : e1.eLen = BitVec.ofNat 9 n := by rw [same]; exact h.len
    refine ⟨_, State.onEncoder_done h.unit hflow, ?_, rfl, rfl⟩
    simp only [State.advance, State.withEnc, hpad, if_pos, hlen]
    rfl

end

/-! ### PAYLOAD (R130, R132) -/

/-- The last `k` bits of a byte in transmission order. -/
def lowBits (v : Byte) : Nat → List Bit
  | 0 => []
  | k + 1 => v.getLsbD k :: lowBits v k

theorem byteBits_eq_lowBits (v : Byte) : byteBits v = lowBits v 8 := rfl

/-- An ENCODE of `n` bytes stands in PAYLOAD at bit `b` of byte `j`, the byte being loaded or not: `bits` are the payload bits
left, and after them, stuffed, `tail` is to be sent. -/
structure State.SendsPayload (s : State) (m : List Host.Cell) (n : Nat) (e : EncCall) (j b : Nat) (v : Option Byte)
    (bits tail : List Bit) (u : State) : Prop where
  sends : s.Sends m n e (stuffFrom e.eOnes.toNat bits ++ tail) u
  quiet : s.outstanding = none
  ones : e.eOnes.toNat ≤ 4
  phase : e.ePhase = .payload
  idx : e.eIdx.toNat = j
  bit : e.eBit.toNat = b
  byte : e.eByte = v

section
variable {s u : State} {m : List Host.Cell} {n : Nat} {e : EncCall} {j b k : Nat} {v : Byte} {bits tail : List Bit}

/-- Another call's state with the same length and cursor sends the same bits. -/
theorem State.Sends.setEnc (h : s.Sends m n e bits u) {e' : EncCall} (hlen : e'.eLen = e.eLen) (hbyte : e'.wByte = e.wByte)
    (hpos : e'.wPos = e.wPos) : ({ s with unit := .encoding e' } : State).Sends m n e' bits u where
  unit := rfl
  mem := h.mem
  len := hlen.trans h.len
  whole := hpos ▸ h.whole
  ends := by
    rw [State.endOf_setUnit, State.endOf_writeBitsOn_congr s n bits _ hbyte hpos]
    exact h.ends

theorem State.Sends.toNat_len (h : s.Sends m n e bits u) (hn : n ≤ 256) : e.eLen.toNat = n := by
  rw [h.len, BitVec.toNat_ofNat]
  exact Nat.mod_eq_of_lt (by omega)

/-- The step that loads the next payload byte. -/
theorem State.SendsPayload.load (h : s.SendsPayload m n e j 7 none bits tail u) (hj : j < n) (hn : n ≤ 256)
    (hv : bufByte m .tx j = some v)
    (hnext : ∀ (t : State) e', t.SendsPayload m n e' j 7 (some v) bits tail u → t.EndsIn k u) :
    s.EndsIn (1 + k) u := by
  have ha : seqAction s = .load e := by
    rw [seqAction_encoding h.sends.unit]
    simp only [encoderAction, h.phase, h.idx, h.sends.toNat_len hn, if_pos hj, h.byte]
  have hstep : sequencerStep s = .next { s with unit := .encoding { e with eByte := some v } } := by
    have h256 : j < Config.bufBytes := lt_of_lt_of_le hj hn
    simp only [sequencerStep, ha, h.idx, h.sends.mem, if_pos h256, hv]
  exact .step (by rw [h.sends.unit]; rfl) hstep h.quiet
    (hnext _ { e with eByte := some v } { h with byte := rfl, sends := h.sends.setEnc rfl rfl rfl })

/-- The step that writes a payload bit: SEQ is then at the next bit, or at the next byte. -/
theorem State.SendsPayload.bitStep (h : s.SendsPayload m n e j b (some v) (v.getLsbD b :: bits) tail u) (hj : j < n)
    (hn : n ≤ 256)
    (hnext : ∀ (t : State) e', (b = 0 ∧ t.SendsPayload m n e' (j + 1) 7 none bits tail u) ∨
      (∃ b', b = b' + 1 ∧ t.SendsPayload m n e' j b' (some v) bits tail u) → t.EndsIn k u) :
    s.EndsIn (1 + k) u := by
  have ha : seqAction s = .issue (uopWord 0x4 (v.getLsbD b)) := by
    rw [seqAction_encoding h.sends.unit]
    simp only [encoderAction, h.phase, h.idx, h.sends.toNat_len hn, if_pos hj, h.byte, h.bit]
  have hsends := h.sends
  rw [EncCall.stuffFrom_cons h.ones, List.append_assoc] at hsends
  refine hsends.micro ha (decodeU8_encPayloadBit _) rfl (encPayloadBitOn_eq_writeBitsOn _ _ _) (by simp [h.phase])
    fun x q p ht => hnext _ (e.movedOn x q (e.onesAfter (v.getLsbD b))) ?_
  have hones := EncCall.onesAfter_le h.ones (v.getLsbD b)
  by_cases h0 : e.eBit = 0
  · have hmoved : e.movedOn x q (e.onesAfter (v.getLsbD b)) = { e with
        wByte := x, wPos := q, eOnes := e.onesAfter (v.getLsbD b), eIdx := e.eIdx + 1, eBit := 7, eByte := none } := by
      simp only [EncCall.movedOn, EncCall.advance, h.phase, if_pos h0]
    have hadd : (e.eIdx + 1).toNat = j + 1 := by
      rw [BitVec.toNat_add, h.idx]
      simp
      omega
    rw [hmoved] at ht ⊢
    exact .inl ⟨by rw [← h.bit, h0]; rfl, ht, rfl, hones, h.phase, hadd, rfl, rfl⟩
  · have hmoved : e.movedOn x q (e.onesAfter (v.getLsbD b)) = { e with
        wByte := x, wPos := q, eOnes := e.onesAfter (v.getLsbD b), eBit := e.eBit - 1 } := by
      simp only [EncCall.movedOn, EncCall.advance, h.phase, if_neg h0]
    have hsub : (e.eBit - 1).toNat + 1 = b := by
      have hlt := e.eBit.isLt
      have hpos : e.eBit.toNat ≠ 0 := fun h => h0 (BitVec.eq_of_toNat_eq (by simpa using h))
      rw [BitVec.toNat_sub, ← h.bit]
      simp
      omega
    rw [hmoved] at ht ⊢
    exact .inr ⟨_, hsub.symm, ht, rfl, hones, h.phase, h.idx, rfl, h.byte⟩

/-- The bits left of a payload byte. -/
theorem State.SendsPayload.byteBits (h : s.SendsPayload m n e j b (some v) (lowBits v (b + 1) ++ bits) tail u) (hj : j < n)
    (hn : n ≤ 256) (hnext : ∀ (t : State) e', t.SendsPayload m n e' (j + 1) 7 none bits tail u → t.EndsIn k u) :
    s.EndsIn (b + 1 + k) u := by
  induction b generalizing s e with
  | zero =>
    refine h.bitStep hj hn fun t e' ht => ?_
    obtain ⟨-, ht⟩ | ⟨b', hb', -⟩ := ht
    · exact hnext t e' ht
    · omega
  | succ b ih =>
    rw [Nat.add_comm (b + 1), Nat.add_assoc]
    refine h.bitStep hj hn fun t e' ht => ?_
    obtain ⟨hb, -⟩ | ⟨b', hb', ht⟩ := ht
    · omega
    · obtain rfl : b = b' := by omega
      exact ih ht

/-- The payload bytes that are left: each is loaded, and its eight bits are written. -/
theorem State.SendsPayload.bytes (Q : List Byte) (h : s.SendsPayload m n e j 7 none (bytesBits Q ++ bits) tail u)
    (hj : j + Q.length ≤ n) (hn : n ≤ 256) (hv : ∀ i, i < Q.length → bufByte m .tx (j + i) = some (Q.getD i 0))
    (hnext : ∀ (t : State) e', t.SendsPayload m n e' (j + Q.length) 7 none bits tail u → t.EndsIn k u) :
    s.EndsIn (9 * Q.length + k) u := by
  induction Q generalizing s e j with
  | nil => rw [List.length_nil, Nat.mul_zero, Nat.zero_add]; exact hnext s e h
  | cons v Q ih =>
    simp only [List.length_cons] at hj hv hnext ⊢
    rw [bytesBits, List.append_assoc, byteBits_eq_lowBits] at h
    rw [show 9 * (Q.length + 1) + k = 1 + (7 + 1 + (9 * Q.length + k)) by omega]
    refine h.load (v := v) (by omega) hn (hv 0 (by omega)) fun t e' ht => ht.byteBits (by omega) hn fun t' e'' ht' => ?_
    refine ih ht' (by omega) (fun i hi => ?_) fun t'' e3 ht'' => hnext t'' e3 ?_
    · simpa [Nat.add_assoc, Nat.add_comm 1 i] using hv (i + 1) (by omega)
    · rwa [Nat.add_assoc, Nat.add_comm 1] at ht''

/-- The end of the payload, the end flag and the fill. -/
theorem State.SendsPayload.finish {r : Nat} (h : s.SendsPayload m n e n 7 none [] (flagBits ++ List.replicate r true) u)
    (hn : n ≤ 256) (hr : r < 8) : s.EndsIn 3 u := by
  have ha : seqAction s = .endPayload e := by
    rw [seqAction_encoding h.sends.unit]
    simp only [encoderAction, h.phase, h.idx, h.sends.toNat_len hn, if_neg (lt_irrefl n)]
  have hstep : sequencerStep s = .next { s with unit := .encoding { e with ePhase := .endFlag } } := by
    simp only [sequencerStep, ha]
  refine .step (k := 1 + 1) (by rw [h.sends.unit]; rfl) hstep h.quiet ?_
  have hsends := h.sends.setEnc (e' := { e with ePhase := .endFlag }) rfl rfl rfl
  exact hsends.flag (.inr rfl) fun v q p ht => ht.pad hr rfl

end

/-! ### The whole command -/

/-- An ENCODE of the payload `P` ends, in nine steps a byte and four more, as the bits of wire(P) written in a row do. -/
theorem State.encode_endsIn {s u : State} {P : List Byte} {len : BitVec 9} (hu : s.unit = .encoding (.entry len))
    (hlen : len = BitVec.ofNat 9 P.length) (hP : P.length ≤ 256)
    (hv : ∀ i, i < P.length → bufByte s.mem .tx i = some (P.getD i 0))
    (hends : s.endOf P.length (writeBitsOn (wire P) (.entry len) s.tx) = some u) : s.EndsIn (9 * P.length + 4) u := by
  have hwire : wire P = flagBits ++ (stuffFrom 0 (bytesBits P ++ []) ++ (flagBits ++ fill P)) := by
    simp only [wire, stuff, List.append_assoc, List.append_nil]
  have hsends : s.Sends s.mem P.length (.entry len) (wire P) u :=
    ⟨hu, rfl, hlen, by rw [wire_length]; simp [EncCall.entry], hends⟩
  rw [hwire] at hsends
  rw [show 9 * P.length + 4 = 1 + (9 * P.length + 3) by omega]
  refine hsends.flag (.inl rfl) fun v q p ht => ?_
  have hpayload : (s.withEnc ((EncCall.entry len).movedOn v q 0) p).SendsPayload s.mem P.length
      ((EncCall.entry len).movedOn v q 0) 0 7 none (bytesBits P ++ []) (flagBits ++ fill P) u :=
    ⟨ht, rfl, Nat.zero_le 4, rfl, rfl, rfl, rfl⟩
  refine hpayload.bytes P (by omega) hP (by simpa using hv) fun t e h => ?_
  rw [Nat.zero_add] at h
  exact h.finish hP (Nat.mod_lt _ (by decide))

/-- ENCODE N as accepted in IDLE: the call's state at entry. -/
def State.encodeBegun (s : State) (n : Nat) : State :=
  (s.accept (cmdWord 0x1 n)).enter (.encoding (.entry (cmdLen (cmdWord 0x1 n))))

theorem cmdLen_cmdWord_eq (op : BitVec 4) {n : Nat} (hn : n < 512) : cmdLen (cmdWord op n) = BitVec.ofNat 9 n :=
  BitVec.eq_of_toNat_eq (by rw [cmdLen_cmdWord op hn, BitVec.toNat_ofNat, Nat.mod_eq_of_lt (by omega)])

section
variable {s u : State} {P : List Byte}

theorem exec_encode_of_le {n : Nat} (hu : s.unit = .idle) (hn : n ≤ 256) :
    exec (.encode n) s = runSequencer encodeFuel (s.encodeBegun n) := by
  simp only [exec, execEncode, hu, s.startEncode_of_le hn]
  rfl

section
variable (hP : P.length ≤ 256) (hv : ∀ i, i < P.length → bufByte s.mem .tx i = some (P.getD i 0))
  (hends : s.endOf P.length (writeBitsOn (wire P) (.entry (BitVec.ofNat 9 P.length)) s.tx) = some u)
include hP hv hends

theorem State.encodeBegun_endsIn : (s.encodeBegun P.length).EndsIn (9 * P.length + 4) u := by
  have hlen := cmdLen_cmdWord_eq 0x1 (n := P.length) (by omega)
  exact State.encode_endsIn (s := s.encodeBegun P.length) rfl hlen hP hv (hlen ▸ hends)

theorem exec_encode_of_endOf (hu : s.unit = .idle) : exec (.encode P.length) s = .next u := by
  rw [exec_encode_of_le hu hP]
  exact State.encodeBegun_endsIn hP hv hends _ (by simp only [encodeFuel, Config.maxMessageLen]; omega)

end

theorem bytesBits_append (vs ws : List Byte) : bytesBits (vs ++ ws) = bytesBits vs ++ bytesBits ws := by
  induction vs with
  | nil => rfl
  | cons v vs ih => rw [List.cons_append, bytesBits, ih, bytesBits, List.append_assoc]

/-- wire(P) written in a row from call entry, every request answered OK. -/
theorem State.endOf_wire_ok {len : BitVec 9} {rest : List TxAnswer}
    (hp : s.tx.answers = List.replicate (wireBytes P).length .ok ++ rest) :
    s.endOf P.length (writeBitsOn (wire P) (.entry len) s.tx) =
      some ((s.sent ((wireBytes P).map fun v => (v, TxAnswer.ok)) rest).completed .ok P.length) := by
  rw [wireBytes, groupBytes_length_eq_div] at hp
  rw [writeBitsOn_row (wire P) rfl rfl hp]
  rfl

/-- wire(P) written in a row from call entry, the request for byte `k` answered ERR. -/
theorem State.endOf_wire_err {len : BitVec 9} {k : Nat} {rest : List TxAnswer} (hk : k < (wireBytes P).length)
    (hp : s.tx.answers = List.replicate k .ok ++ .err :: rest) :
    s.endOf P.length (writeBitsOn (wire P) (.entry len) s.tx) =
      some ((s.sent (((wireBytes P).take k).map (fun v => (v, TxAnswer.ok)) ++ [((wireBytes P).getD k 0, .err)])
        rest).completed .ioError 0) := by
  have hcut : wireBytes P = (wireBytes P).take k ++ (wireBytes P).getD k 0 :: (wireBytes P).drop (k + 1) := by
    rw [List.getD_eq_getElem _ _ hk, ← List.drop_eq_getElem_cons hk, List.take_append_drop]
  have hbits : wire P = bytesBits ((wireBytes P).take k) ++
      (byteBits ((wireBytes P).getD k 0) ++ bytesBits ((wireBytes P).drop (k + 1))) := by
    rw [← bytesBits, ← bytesBits_append, ← hcut]
    exact (bytesBits_groupBytes _ _ (wire_length P)).symm
  obtain ⟨e', hrow⟩ := writeBitsOn_flush_err (e := .entry len) (byteBits ((wireBytes P).getD k 0))
    (bytesBits ((wireBytes P).drop (k + 1)))
    (p := ⟨.err :: rest, s.tx.log ++ ((wireBytes P).take k).map fun v => (v, TxAnswer.ok)⟩) rfl rfl
  have hfull : setBitsFrom (EncCall.entry len).wByte (EncCall.entry len).wPos.toNat (byteBits ((wireBytes P).getD k 0)) =
      (wireBytes P).getD k 0 := setBitsFrom_byteBits_full _
  rw [hbits, writeBitsOn_bytesBits _ _ rfl rfl (by rwa [List.length_take, Nat.min_eq_left hk.le]), hrow, hfull,
    List.append_assoc]
  rfl

/-- Settles O24: the run ends as wire(P) written in a row does, each request answered OK. -/
theorem encodeSendsWireFormat : Obligations.EncodeSendsWireFormat :=
  fun _ _ _ hu hP hv hp => exec_encode_of_endOf hP hv (State.endOf_wire_ok hp) hu

/-- Settles O25: the row of wire(P) ends at its first byte that is answered ERR. -/
theorem encodeWriteFailure : Obligations.EncodeWriteFailure :=
  fun _ _ _ _ hu hP hv hk hp => ⟨exec_encode_of_endOf hP hv (State.endOf_wire_err hk hp) hu, by
    rw [State.completed_status]; decide⟩

end

/-! ### The command word, and its run in steps of the machine (R204, R210, R263) -/

theorem decodeCmd16_ofNat_encode {n : Nat} (hn : n < 512) :
    decodeCmd16 (BitVec.ofNat 16 (0x1000 + n)) = .ok (.encode n) := by
  have hw : (BitVec.ofNat 16 (0x1000 + n)).toNat = 0x1000 + n := Nat.mod_eq_of_lt (by omega)
  have hrsvd : cmdRsvd (BitVec.ofNat 16 (0x1000 + n)) = 0 := BitVec.eq_of_toNat_eq (by
    rw [cmdRsvd_toNat, hw]
    show _ = 0
    omega)
  have hop : cmdOp (BitVec.ofNat 16 (0x1000 + n)) = 1 := BitVec.eq_of_toNat_eq (by
    rw [cmdOp_toNat, hw]
    show _ = 1
    omega)
  have hlen : (cmdLen (BitVec.ofNat 16 (0x1000 + n))).toNat = n := by
    rw [cmdLen_toNat, hw]
    omega
  rw [decodeCmd16, if_neg (not_not.mpr hrsvd), if_pos hop, hlen]

/-- WR16 CMD of an ENCODE whose payload fits begins the command. -/
theorem exec_wr16Cmd_encode {s : State} {n : Nat} (hu : s.unit = .idle) (hn : n ≤ 256) :
    exec (.wr16Cmd (BitVec.ofNat 16 (0x1000 + n))) s = .next (s.encodeBegun n) := by
  have hd := decodeCmd16_ofNat_encode (n := n) (by omega)
  rw [exec_wr16Cmd_idle hu, State.dispatch, hd]
  simp only [decodeCmd16_encode hd, s.startEncode_of_le hn]
  rfl

/-- Settles O17: the over-long length is found at dispatch, and the run of the completed command is empty. -/
theorem overlongEncodeRejected : Obligations.OverlongEncodeRejected := by
  intro s n hn hlt hu
  refine ⟨?_, exec_wr16Cmd_overlong hu (decodeCmd16_ofNat_encode hlt) hn, by rw [State.completed_status]; decide⟩
  have hover : Config.maxMessageLen < n := hn
  simp only [exec, execEncode, hu, State.startEncode, if_pos hover]
  exact runSequencer_idle _ rfl

theorem State.advance_agenda (t : State) : t.advance.agenda = t.agenda := by
  rcases t.advance_cases with h | ⟨-, e, -, h | h⟩
  · rw [h]
  · rw [h]; rfl
  · rw [h]

theorem exec_micro_agenda {s t : State} {i : Instr} (hi : MicroInstr i) (h : exec i s = .next t) : t.agenda = s.agenda := by
  rcases hi.runsOn with ⟨f, hf⟩ | ⟨f, hf⟩ | rfl
  · obtain ⟨e, -, ⟨_, _, -, rfl⟩ | ⟨_, -, rfl⟩ | ⟨_, _, _, -, rfl⟩⟩ := State.onEncoder_next (hf s ▸ h) <;> rfl
  · obtain ⟨d, -, ⟨_, _, -, rfl⟩ | ⟨_, -, rfl⟩ | ⟨_, _, _, -, rfl⟩⟩ := State.onDecoder_next (hf s ▸ h) <;> rfl
  · obtain ⟨_, _, _, _, -, -, rfl⟩ := execPack_writes h
    rfl

/-- The sequencer takes no turn of the agenda. -/
theorem sequencerStep_agenda {s t : State} (h : sequencerStep s = .next t) : t.agenda = s.agenda := by
  rcases sequencerStep_next h with ⟨-, rfl⟩ | ⟨w, i, t', -, hd, hx, rfl⟩ | ⟨e, v, -, -, rfl⟩ | ⟨e, -, rfl⟩
  · rfl
  · rw [State.advance_agenda]
    exact exec_micro_agenda (decodeU8_micro hd) hx
  · rfl
  · rfl

/-- A run of the sequencer is a run of the machine with an empty agenda, of as many steps at most. -/
theorem run_of_runSequencer {n : Nat} {s t : State} (ha : s.agenda = []) (h : runSequencer n s = .next t) :
    ∃ k, k ≤ n ∧ Host.Core.run Sys2Proof.core k s = .next t := by
  induction n generalizing s with
  | zero => exact ⟨0, le_rfl, h⟩
  | succ n ih =>
    rw [runSequencer] at h
    split at h
    · exact ⟨0, Nat.zero_le _, h⟩
    · split at h
      · rename_i t' hs
        have hstep : Sys2Proof.core.step s = .next t' := (step_nil ha).trans hs
        have hrun : ∀ k, Host.Core.run Sys2Proof.core (k + 1) s = Host.Core.run Sys2Proof.core k t' := fun k => by
          simp only [Host.Core.run, hstep]
        split at h
        · exact ⟨1, by omega, (hrun 0).trans h⟩
        · obtain ⟨k, hk, hrest⟩ := ih ((sequencerStep_agenda hs).trans ha) h
          exact ⟨k + 1, by omega, (hrun k).trans hrest⟩
      · cases h
      · cases h

/-- Settles O58: the run that ends as wire(P) written in a row does takes nine steps a byte and four more. -/
theorem encodeIsDoneInBoundedSteps : Obligations.EncodeIsDoneInBoundedSteps := by
  intro s P rest hu ha hP hv hp
  have hrun := State.encodeBegun_endsIn hP hv (State.endOf_wire_ok hp) _ le_rfl
  obtain ⟨k, hk, hcore⟩ := run_of_runSequencer (s := s.encodeBegun P.length) ha hrun
  exact ⟨s.encodeBegun P.length, k, exec_wr16Cmd_encode hu hP, hk, hcore⟩

end Sys2Proof.Machine
end

section
/-! PROOFS. Runs of 1-bits in the wire format (R81, R135, R137, R138): where 0s are stuffed, and where the window meets FLAG. -/

namespace Sys2Proof.Machine

/-! ### Stuffing of a run (R135) -/

/-- Fewer than five 1-bits pass as they are. -/
theorem stuffFrom_replicate_true (k : Nat) (bs : List Bit) {c : Nat} (h : c + k < 5) :
    stuffFrom c (List.replicate k true ++ bs) = List.replicate k true ++ stuffFrom (c + k) bs := by
  induction k generalizing c with
  | zero => rfl
  | succ k ih =>
    rw [List.replicate_succ, List.cons_append, stuffFrom_true (by omega), ih (by omega), Nat.add_right_comm,
      Nat.add_assoc, List.cons_append]

/-- Five 1-bits from a counter at 0 get their 0, and the counter is at 0 again. -/
theorem stuffFrom_five_ones (bs : List Bit) :
    stuffFrom 0 (List.replicate 5 true ++ bs) = [true, true, true, true, true, false] ++ stuffFrom 0 bs := rfl

theorem stuffFrom_run (q : Nat) {k : Nat} (hk : k < 5) (bs : List Bit) :
    stuffFrom 0 (List.replicate (5 * q + k) true ++ bs) =
      (List.replicate q [true, true, true, true, true, false]).flatten ++ List.replicate k true ++ stuffFrom k bs := by
  induction q with
  | zero => rw [Nat.mul_zero, Nat.zero_add, stuffFrom_replicate_true k bs (by omega), Nat.zero_add]; rfl
  | succ q ih =>
    rw [show 5 * (q + 1) + k = 5 + (5 * q + k) by omega, List.replicate_add, List.append_assoc, stuffFrom_five_ones, ih,
      List.replicate_succ, List.flatten_cons]
    simp only [List.append_assoc]

/-- Settles O28, by induction over the fives of the run. -/
theorem stuffingOfARun : Obligations.StuffingOfARun := by
  intro q k bs hk
  refine ⟨?_, stuffFrom_run q hk (false :: bs)⟩
  simpa [stuffFrom] using stuffFrom_run q hk []

/-! ### Six 1-bits (R137, R180) -/

/-- The destuffing pass fails on a run that comes to six 1-bits. -/
theorem destuffFrom_run_none (n : Nat) (bs : List Bit) {c : Nat} (h : 5 < c + n) (hc : c ≤ 5) :
    destuffFrom c (List.replicate n true ++ bs) = none := by
  induction n generalizing c with
  | zero => omega
  | succ n ih =>
    rw [List.replicate_succ, List.cons_append, destuffFrom]
    by_cases h5 : 5 < c + 1
    · exact if_pos h5
    · rw [if_neg h5, ih (by omega) (by omega)]
      rfl

/-- Bits on which the pass fails, whatever its counter, make it fail behind any others. -/
theorem destuffFrom_append_none {bs : List Bit} (h : ∀ c, c ≤ 5 → destuffFrom c bs = none) (as : List Bit) {c : Nat}
    (hc : c ≤ 5) : destuffFrom c (as ++ bs) = none := by
  induction as generalizing c with
  | nil => exact h c hc
  | cons a as ih =>
    cases a with
    | true =>
      rw [List.cons_append, destuffFrom]
      split
      · rfl
      · rw [ih (by omega)]; rfl
    | false =>
      rw [List.cons_append, destuffFrom]
      split
      · exact ih (Nat.zero_le 5)
      · rw [ih (Nat.zero_le 5)]; rfl

theorem SixOnes.destuff_none {f : List Bit} (h : SixOnes f) : destuff f = none := by
  obtain ⟨as, bs, rfl⟩ := h
  rw [List.append_assoc]
  exact destuffFrom_append_none (fun c => destuffFrom_run_none 6 bs (by omega)) as (Nat.zero_le 5)

/-- Settles O29: destuffing takes stuff(P) back, and would fail on six 1-bits. -/
theorem stuffedPayloadHasNoSixOnes : Obligations.StuffedPayloadHasNoSixOnes := by
  intro P h
  have hnone := h.destuff_none
  rw [stuff, destuffInvertsStuff (bytesBits P)] at hnone
  cases hnone

/-! ### The sliding window (R36, R138) -/

theorem shiftIn_eq_shiftConcat (win : Byte) (b : Bit) : shiftIn win b = win.shiftConcat b := by
  ext i hi
  rw [BitVec.getElem_shiftConcat]
  by_cases h0 : i = 0
  · subst h0
    simp [shiftIn]
  · simp [shiftIn, h0, show 1 ≤ i by omega]

theorem shiftIn_toNat (win : Byte) (b : Bit) : (shiftIn win b).toNat = (2 * win.toNat + b.toNat) % 256 := by
  rw [shiftIn_eq_shiftConcat, BitVec.toNat_shiftConcat, Nat.shiftLeft_eq, Nat.mul_comm]

/-- The window's last bits are a 0 and `r` 1-bits after it. -/
def RunIn (win : Byte) (r : Nat) : Prop := win.toNat % 2 ^ (r + 1) = 2 ^ r - 1

/-- The empty window (R166) is as after a 0. -/
theorem runIn_zero : RunIn 0x00 0 := rfl

theorem runIn_shiftIn_false (win : Byte) : RunIn (shiftIn win false) 0 := by
  rw [RunIn, shiftIn_toNat]
  simp

section
variable {win : Byte} {r : Nat}

theorem RunIn.shiftIn_true (h : RunIn win r) (hr : r ≤ 6) : RunIn (shiftIn win true) (r + 1) := by
  unfold RunIn at h ⊢
  rw [shiftIn_toNat, Bool.toNat_true]
  interval_cases r <;> omega

/-- The window meets FLAG at the 0 that ends a run of six 1-bits, and at no shorter run. -/
theorem RunIn.flag_iff (h : RunIn win r) (hr : r ≤ 6) (b : Bit) : shiftIn win b = Config.flag ↔ b = false ∧ r = 6 := by
  unfold RunIn at h
  rw [← BitVec.toNat_inj, shiftIn_toNat, show Config.flag.toNat = 126 from rfl]
  cases b with
  | true => simp only [Bool.toNat_true, Bool.true_eq_false, false_and, iff_false]; omega
  | false =>
    have := win.isLt
    simp only [Bool.toNat_false, true_and]
    interval_cases r <;> omega

theorem firstFlag_cons_of_ne {b : Bit} (h : shiftIn win b ≠ Config.flag) (bs : List Bit) :
    firstFlag win (b :: bs) = (firstFlag (shiftIn win b) bs).map (· + 1) := if_neg h

theorem firstFlag_cons_of_eq {b : Bit} (h : shiftIn win b = Config.flag) (bs : List Bit) :
    firstFlag win (b :: bs) = some 1 := if_pos h

/-- A 1-bit is no match. -/
theorem RunIn.firstFlag_true (h : RunIn win r) (hr : r ≤ 5) (bs : List Bit) :
    firstFlag win (true :: bs) = (firstFlag (shiftIn win true) bs).map (· + 1) :=
  firstFlag_cons_of_ne (by simp [h.flag_iff (by omega)]) bs

/-- A 0 is no match where fewer than six 1-bits are before it. -/
theorem RunIn.firstFlag_false (h : RunIn win r) (hr : r ≤ 5) (bs : List Bit) :
    firstFlag win (false :: bs) = (firstFlag (shiftIn win false) bs).map (· + 1) :=
  firstFlag_cons_of_ne (by rw [ne_eq, h.flag_iff (by omega)]; omega) bs

/-- The flag's six 1-bits and its last 0. -/
theorem RunIn.firstFlag_ones (n : Nat) (h : RunIn win r) (hr : r + n = 6) (bs : List Bit) :
    firstFlag win (List.replicate n true ++ false :: bs) = some (n + 1) := by
  induction n generalizing win r with
  | zero => exact firstFlag_cons_of_eq ((h.flag_iff (by omega) false).mpr ⟨rfl, hr⟩) bs
  | succ n ih =>
    rw [List.replicate_succ, List.cons_append, h.firstFlag_true (by omega), ih (h.shiftIn_true (by omega)) (by omega),
      Option.map_some]

/-- A flag is met at its last bit, behind any run that is shorter than the flag's. -/
theorem RunIn.firstFlag_flag (h : RunIn win r) (hr : r ≤ 5) (bs : List Bit) : firstFlag win (flagBits ++ bs) = some 8 := by
  rw [show flagBits ++ bs = false :: (List.replicate 6 true ++ false :: bs) from rfl, h.firstFlag_false hr,
    (runIn_shiftIn_false win).firstFlag_ones 6 rfl, Option.map_some]

/-- Stuffed bits hold no match, and end in a run of fewer than five 1-bits. -/
theorem RunIn.firstFlag_stuffed (bs tail : List Bit) (h : RunIn win r) (hr : r < 5) :
    ∃ win' r', RunIn win' r' ∧ r' < 5 ∧
      firstFlag win (stuffFrom r bs ++ tail) = (firstFlag win' tail).map (· + (stuffFrom r bs).length) := by
  induction bs generalizing win r with
  | nil => exact ⟨win, r, h, hr, by simp [stuffFrom]⟩
  | cons b bs ih =>
    cases b with
    | false =>
      obtain ⟨win', r', h', hr', heq⟩ := ih (runIn_shiftIn_false win) (by decide)
      refine ⟨win', r', h', hr', ?_⟩
      rw [stuffFrom_false, List.cons_append, h.firstFlag_false (by omega), heq, Option.map_map]
      rfl
    | true =>
      have hnext := h.shiftIn_true (by omega)
      by_cases h4 : r = 4
      · subst h4
        obtain ⟨win', r', h', hr', heq⟩ := ih (runIn_shiftIn_false (shiftIn win true)) (by decide)
        refine ⟨win', r', h', hr', ?_⟩
        rw [stuffFrom_true_four, List.cons_append, List.cons_append, h.firstFlag_true (by decide),
          hnext.firstFlag_false (by decide), heq, Option.map_map, Option.map_map]
        rfl
      · obtain ⟨win', r', h', hr', heq⟩ := ih hnext (by omega)
        refine ⟨win', r', h', hr', ?_⟩
        rw [stuffFrom_true h4, List.cons_append, h.firstFlag_true (by omega), heq, Option.map_map]
        rfl

end

theorem drop_flag_wire (P : List Byte) : (wire P).drop 8 = stuff P ++ (flagBits ++ fill P) := by
  rw [wire, List.append_assoc, List.append_assoc]
  rfl

/-- Settles O30: the start flag is met from the empty window, the stuffed bits hold no match, and the end flag is met behind
them. -/
theorem flagTransparency : Obligations.FlagTransparency := by
  intro P
  constructor
  · rw [wire, List.append_assoc, List.append_assoc]
    exact runIn_zero.firstFlag_flag (Nat.zero_le 5) _
  · obtain ⟨win, r, h, hr, heq⟩ := runIn_zero.firstFlag_stuffed (bytesBits P) (flagBits ++ fill P) (by decide)
    rw [drop_flag_wire, stuff, heq, h.firstFlag_flag (by omega), Option.map_some, Nat.add_comm]

end Sys2Proof.Machine
end

section
/-! PROOFS. A DECODE that succeeds (R160 to R178): the sequencer's steps over the start flag, the frame, the destuffing pass and
the packing, on any stream whose frame is a good one; and the stream wire(P) is such a one (R144). -/

namespace Sys2Proof.Machine

/-- A micro-operation of the reader or decoder that is done is one step of a run. -/
theorem State.RunsTo.decoderMicro {s : State} {w : UopWord} {i : Instr} {f : DecCall → RxPort → Flow (DecCall × RxPort)}
    {d d' : DecCall} {p : RxPort} (hu : s.unit = .decoding d) (ha : seqAction s = .issue w) (hd : decodeU8 w = .ok i)
    (hx : exec i s = s.onDecoder f) (hf : f d s.rx = .done (d', p)) : s.RunsTo 1 (s.withDec d' p) := by
  refine .step (by rw [hu]; rfl) ?_ rfl
  rw [sequencerStep_issue ha, issueMicro_of_exec_next hd (hx.trans (State.onDecoder_done hu hf)),
    State.advance_of_not_encoding (by simp)]

theorem State.RunsTo.cons {s t u : State} {k : Nat} (h : s.RunsTo 1 t) (h' : t.RunsTo k u) : s.RunsTo (k + 1) u :=
  Nat.add_comm 1 k ▸ h.trans h'

/-! ### The next bit, and the next match of the window (R163, R167) -/

theorem getD_of_drop_eq_cons {bs : List Bit} {k : Nat} {b : Bit} {cs : List Bit} (h : bs.drop k = b :: cs) :
    k < bs.length ∧ bs.getD k false = b ∧ bs.drop (k + 1) = cs := by
  have hk : k < bs.length := by
    by_contra hge
    rw [List.drop_eq_nil_of_le (by omega)] at h
    cases h
  rw [List.drop_eq_getElem_cons hk] at h
  obtain ⟨hb, hcs⟩ := List.cons.inj h
  exact ⟨hk, by rw [List.getD_eq_getElem _ _ hk, hb], hcs⟩

/-- Where the window meets FLAG it does so at the next bit, or later. -/
theorem firstFlag_some {win : Byte} {bs : List Bit} {m : Nat} (h : firstFlag win bs = some m) :
    ∃ b cs, bs = b :: cs ∧ ((shiftIn win b = Config.flag ∧ m = 1) ∨
      (shiftIn win b ≠ Config.flag ∧ ∃ m', m = m' + 1 ∧ firstFlag (shiftIn win b) cs = some m')) := by
  cases bs with
  | nil => cases h
  | cons b cs =>
    refine ⟨b, cs, rfl, ?_⟩
    by_cases hb : shiftIn win b = Config.flag
    · rw [firstFlag_cons_of_eq hb] at h
      exact .inl ⟨hb, (Option.some.inj h).symm⟩
    · rw [firstFlag_cons_of_ne hb] at h
      obtain ⟨m', hm', rfl⟩ := Option.map_eq_some_iff.mp h
      exact .inr ⟨hb, m', rfl, hm'⟩

section
variable {s : State} {bytes : List Byte} (rest log : List RxAnswer) {d : DecCall}

/-- The steps of SEEKING_FLAG up to the bit at which the window meets FLAG (R163, R166). -/
theorem DecCall.AtBit.seek_runsTo (m : Nat) {k : Nat} (hu : s.unit = .decoding d) (hp : s.rx = .afterBits bytes rest log k)
    (h : d.AtBit bytes k) (hs : d.dState = .seekingFlag) (hm : firstFlag d.dWin ((bytesBits bytes).drop k) = some m) :
    ∃ d', s.RunsTo m (s.withDec d' (.afterBits bytes rest log (k + m))) ∧ d'.AtBit bytes (k + m) ∧
      d'.dState = .inFrame ∧ d'.dWin = 0x00 ∧ d'.fCnt = 0 := by
  induction m generalizing s d k with
  | zero => obtain ⟨_, _, -, ⟨-, h0⟩ | ⟨-, _, h0, -⟩⟩ := firstFlag_some hm <;> omega
  | succ m ih =>
    obtain ⟨b, cs, hbits, hmatch⟩ := firstFlag_some hm
    obtain ⟨hk, hb, hcs⟩ := getD_of_drop_eq_cons hbits
    obtain ⟨v, a, hread, hnext⟩ := h.readBitOn_done rest log (by rwa [bytesBits_length] at hk)
    rw [hb, ← hp] at hread
    have hseek : seekStepOn d s.rx = .done (seekBit b (d.returned v a b), .afterBits bytes rest log (k + 1)) := by
      rw [seekStepOn, hread, Flow.andThen_done]
      rfl
    have hrun := State.RunsTo.decoderMicro (w := uopWord 0x6 false) (i := .seekStep) hu
      (by rw [seqAction_decoding hu, decoderAction, hs]) rfl rfl hseek
    have hwin : (d.returned v a b).dWin = d.dWin := rfl
    rcases hmatch with ⟨hflag, h1⟩ | ⟨hno, m', hm', hrest⟩
    · obtain rfl : m = 0 := by omega
      rw [seekBit, hwin, if_pos hflag] at hrun
      exact ⟨_, hrun, ⟨(hnext b).avail, (hnext b).byte⟩, rfl, rfl, rfl⟩
    · obtain rfl : m = m' := by omega
      rw [seekBit, hwin, if_neg hno] at hrun
      obtain ⟨d', hrun', hd'⟩ := ih (s := s.withDec _ (.afterBits bytes rest log (k + 1)))
        (d := { d.returned v a b with dWin := shiftIn d.dWin b }) rfl rfl ⟨(hnext b).avail, (hnext b).byte⟩ hs (hcs ▸ hrest)
      rw [Nat.add_assoc k, Nat.add_comm 1] at hrun' hd'
      exact ⟨d', hrun.cons hrun', hd'⟩

/-! ### The frame bits (R167, R168) -/

/-- F_BUF holds the first `c` bits of `f`. -/
structure DecCall.Holds (d : DecCall) (f : List Bit) (c : Nat) : Prop where
  count : d.fCnt.toNat = c
  cells : ∀ i, i < c → cellRead d.fBuf i = some (f.getD i false)

/-- A bit is stored: its cell, the count and the window (R167). -/
def DecCall.stored (d : DecCall) (b : Bit) : DecCall :=
  { d with fBuf := cellPut d.fBuf d.fCnt.toNat b, fCnt := d.fCnt + 1, dWin := shiftIn d.dWin b }

theorem captureBit_of_lt (b : Bit) {d : DecCall} (p : RxPort) (h : d.fCnt.toNat < 2576) :
    captureBit b d p = endFlagTest (d.stored b) p := by
  have hlt : d.fCnt.toNat < Config.frameBitCapacity := h
  simp only [captureBit, if_neg hlt.ne, cellWrite, if_pos hlt, DecCall.stored]

theorem endFlagTest_of_ne {d : DecCall} (p : RxPort) (h : d.dWin ≠ Config.flag) : endFlagTest d p = .done (d, p) :=
  if_neg h

theorem endFlagTest_of_eq {d : DecCall} (p : RxPort) (h : d.dWin = Config.flag) (h8 : 8 ≤ d.fCnt.toNat) :
    endFlagTest d p = .done ({ d with fCnt := d.fCnt - 8, dState := .destuffing, destuff := some .entry }, p) := by
  rw [endFlagTest, if_pos h, if_neg (by omega)]

/-- A bit more in F_BUF. -/
theorem DecCall.Holds.stored {f : List Bit} {c : Nat} (h : d.Holds f c) (hc : c < 2576) :
    (d.stored (f.getD c false)).Holds f (c + 1) where
  count := by
    show (d.fCnt + 1).toNat = c + 1
    rw [toNat_add_one_of_lt (h.count ▸ hc) (by decide), h.count]
  cells i hi := by
    show cellRead (cellPut d.fBuf d.fCnt.toNat _) i = _
    rw [cellRead_cellPut, h.count]
    split
    · rename_i heq
      rw [heq]
    · exact h.cells i (by omega)

/-- The steps of IN_FRAME up to the bit at which the window meets FLAG: the bits before the end flag are in F_BUF. -/
theorem DecCall.AtBit.capture_runsTo (m : Nat) {k c : Nat} (hu : s.unit = .decoding d)
    (hp : s.rx = .afterBits bytes rest log (k + c)) (h : d.AtBit bytes (k + c)) (hs : d.dState = .inFrame)
    (hc : d.Holds ((bytesBits bytes).drop k) c) (hm : firstFlag d.dWin ((bytesBits bytes).drop (k + c)) = some m)
    (h8 : 8 ≤ c + m) (hcap : c + m ≤ 2576) :
    ∃ d', s.RunsTo m (s.withDec d' (.afterBits bytes rest log (k + (c + m)))) ∧ d'.dState = .destuffing ∧
      d'.destuff = some .entry ∧ d'.Holds ((bytesBits bytes).drop k) (c + m - 8) := by
  induction m generalizing s d c with
  | zero => obtain ⟨_, _, -, ⟨-, h0⟩ | ⟨-, _, h0, -⟩⟩ := firstFlag_some hm <;> omega
  | succ m ih =>
    obtain ⟨b, cs, hbits, hmatch⟩ := firstFlag_some hm
    obtain ⟨hk, hb, hcs⟩ := getD_of_drop_eq_cons hbits
    obtain ⟨v, a, hread, hnext⟩ := h.readBitOn_done rest log (by rwa [bytesBits_length] at hk)
    rw [hb, ← hp] at hread
    have hget : ((bytesBits bytes).drop k).getD c false = b := by rw [getD_drop, hb]
    have hlt : (d.returned v a b).fCnt.toNat < 2576 := by
      show d.fCnt.toNat < _
      rw [hc.count]
      omega
    have hstep : captureStepOn d s.rx =
        endFlagTest ((d.returned v a b).stored b) (.afterBits bytes rest log (k + c + 1)) := by
      rw [captureStepOn, hread, Flow.andThen_done]
      exact captureBit_of_lt b _ hlt
    have hput := (⟨hc.count, hc.cells⟩ : (d.returned v a b).Holds _ c).stored (by omega)
    rw [hget] at hput
    have ha : seqAction s = .issue (uopWord 0x7 false) := by rw [seqAction_decoding hu, decoderAction, hs]
    rcases hmatch with ⟨hflag, h1⟩ | ⟨hno, m', hm', hrest⟩
    · obtain rfl : m = 0 := by omega
      have hsub : (((d.returned v a b).stored b).fCnt - 8).toNat = c + 1 - 8 := by
        rw [BitVec.toNat_sub, hput.count]
        simp
        omega
      rw [endFlagTest_of_eq _ hflag (by rw [hput.count]; omega)] at hstep
      have hrun := State.RunsTo.decoderMicro (i := .captureStep) hu ha rfl rfl hstep
      exact ⟨_, hrun, rfl, rfl, hsub, fun i hi => hput.cells i (by omega)⟩
    · obtain rfl : m = m' := by omega
      rw [endFlagTest_of_ne _ hno] at hstep
      have hrun := State.RunsTo.decoderMicro (i := .captureStep) hu ha rfl rfl hstep
      obtain ⟨d', hrun', hd'⟩ := ih (s := s.withDec _ (.afterBits bytes rest log (k + c + 1)))
        (d := (d.returned v a b).stored b) (c := c + 1) rfl rfl ⟨(hnext b).avail, (hnext b).byte⟩ hs hput (hcs ▸ hrest)
        (by omega) (by omega)
      rw [show c + 1 + m = c + (m + 1) by omega] at hrun' hd'
      exact ⟨d', hrun.cons hrun', hd'⟩

end

/-! ### The destuffing pass (R172, R173) -/

/-- The destuffing pass has walked `i` frame bits, with the run counter at `c`, and has kept the bits `out`. -/
structure Destuff.Walked (x : Destuff) (i c : Nat) (out : List Bit) : Prop where
  idx : x.dIdx.toNat = i
  ones : x.dOnes.toNat = c
  count : x.dCnt.toNat = out.length
  cells : ∀ j, j < out.length → cellRead x.dBuf j = some (out.getD j false)
  ones_le : c ≤ 5
  kept_le : out.length ≤ i

theorem Destuff.entry_walked : Destuff.entry.Walked 0 0 [] :=
  ⟨rfl, rfl, rfl, fun _ hj => absurd hj (Nat.not_lt_zero _), Nat.zero_le 5, le_rfl⟩

theorem Destuff.append_of_lt (b : Bit) {x : Destuff} (h : x.dCnt.toNat < 2576) :
    x.append b = some { x with dBuf := cellPut x.dBuf x.dCnt.toNat b, dCnt := x.dCnt + 1 } := by
  have hlt : x.dCnt.toNat < Config.frameBitCapacity := h
  simp only [Destuff.append, cellWrite, if_pos hlt]

section
variable {x : Destuff} {i c : Nat} {out : List Bit} (h : x.Walked i c out) (hi : i < 2576)
include h hi

/-- A frame bit is walked and kept. -/
theorem Destuff.Walked.keep (b : Bit) {ones : BitVec 3} (hones : ones.toNat ≤ 5) :
    ({ x with dIdx := x.dIdx + 1, dBuf := cellPut x.dBuf x.dCnt.toNat b, dCnt := x.dCnt + 1, dOnes := ones } :
      Destuff).Walked (i + 1) ones.toNat (out ++ [b]) where
  idx := by
    show (x.dIdx + 1).toNat = i + 1
    rw [toNat_add_one_of_lt (h.idx ▸ hi) (by decide), h.idx]
  ones := rfl
  count := by
    have hle := h.kept_le
    show (x.dCnt + 1).toNat = _
    rw [toNat_add_one_of_lt (n := 2576) (by rw [h.count]; omega) (by decide), h.count, List.length_append]
    rfl
  cells j hj := by
    rw [List.length_append, List.length_singleton] at hj
    show cellRead (cellPut x.dBuf x.dCnt.toNat b) j = _
    rw [cellRead_cellPut, h.count]
    split
    · rename_i heq
      rw [heq, List.getD_append_right _ _ _ _ le_rfl, Nat.sub_self, List.getD_cons_zero]
    · rw [List.getD_append _ _ _ _ (by omega)]
      exact h.cells j (by omega)
  ones_le := hones
  kept_le := by
    have hle := h.kept_le
    rw [List.length_append, List.length_singleton]
    omega

/-- One bit of the pass on the machine is one bit of the pass on bit strings, where that does not fail. -/
theorem Destuff.Walked.bit {b : Bit} {bs res : List Bit} (hres : destuffFrom c (b :: bs) = some res) :
    ∃ y c' kept res', destuffBit b { x with dIdx := x.dIdx + 1 } = .done y ∧ y.Walked (i + 1) c' (out ++ kept) ∧
      destuffFrom c' bs = some res' ∧ res = kept ++ res' := by
  have hcnt : x.dCnt.toNat < 2576 := by
    have hle := h.kept_le
    rw [h.count]
    omega
  have happ : ∀ b', Destuff.append b' { x with dIdx := x.dIdx + 1 } = some { x with
      dIdx := x.dIdx + 1, dBuf := cellPut x.dBuf x.dCnt.toNat b', dCnt := x.dCnt + 1 } := fun b' =>
    Destuff.append_of_lt b' hcnt
  have hfive : x.dOnes = 5 ↔ c = 5 := by rw [← BitVec.toNat_inj, h.ones]; rfl
  cases b with
  | true =>
    rw [destuffFrom] at hres
    split at hres
    · cases hres
    · rename_i hlt
      obtain ⟨res', hres', rfl⟩ := Option.map_eq_some_iff.mp hres
      have hadd : (x.dOnes + 1).toNat = c + 1 := by
        rw [BitVec.toNat_add, h.ones]
        simp
        omega
      refine ⟨_, _, [true], res', ?_, h.keep hi true (ones := x.dOnes + 1) (by omega), hadd ▸ hres', rfl⟩
      simp only [destuffBit, happ, if_pos]
      exact if_neg (by rw [h.ones]; omega)
  | false =>
    rw [destuffFrom] at hres
    split at hres
    · rename_i h5
      refine ⟨{ x with dIdx := x.dIdx + 1, dOnes := 0 }, 0, [], res, ?_, ?_, hres, rfl⟩
      · simp only [destuffBit, Bool.false_eq_true, if_false, if_pos (hfive.mpr h5)]
      · rw [List.append_nil]
        refine ⟨?_, rfl, h.count, h.cells, Nat.zero_le 5, Nat.le_succ_of_le h.kept_le⟩
        show (x.dIdx + 1).toNat = i + 1
        rw [toNat_add_one_of_lt (h.idx ▸ hi) (by decide), h.idx]
    · rename_i h5
      obtain ⟨res', hres', rfl⟩ := Option.map_eq_some_iff.mp hres
      refine ⟨_, _, [false], res', ?_, h.keep hi false (ones := 0) (Nat.zero_le 5), hres', rfl⟩
      simp only [destuffBit, Bool.false_eq_true, if_false, if_neg (mt hfive.mp h5), happ]

end

/-- The steps of DESTUFFING, to its end. -/
theorem Destuff.Walked.destuff_runsTo {f : List Bit} (r : List Bit) {s : State} {d : DecCall} {x : Destuff} {i c : Nat}
    {out res : List Bit} (h : x.Walked i c out) (hu : s.unit = .decoding d) (hs : d.dState = .destuffing)
    (hx : d.destuff = some x) (hf : d.Holds f f.length) (hcap : f.length ≤ 2576) (hr : f.drop i = r) (hi : i ≤ f.length)
    (hres : destuffFrom c r = some res) :
    ∃ y c', s.RunsTo (r.length + 1) (s.withDec { d with dState := .validating, destuff := some y } s.rx) ∧
      y.Walked f.length c' (out ++ res) := by
  have ha : seqAction s = .issue (uopWord 0x8 false) := by rw [seqAction_decoding hu, decoderAction, hs]
  induction r generalizing s d x i c out res with
  | nil =>
    obtain rfl : i = f.length := Nat.le_antisymm hi (List.drop_eq_nil_iff.mp hr)
    obtain rfl : [] = res := by simpa [destuffFrom] using hres
    have hidx : x.dIdx = d.fCnt := BitVec.eq_of_toNat_eq (h.idx.trans hf.count.symm)
    have hstep : destuffStepOn d s.rx = .done ({ d with dState := .validating }, s.rx) := by
      simp only [destuffStepOn, hx, if_pos hidx]
    have hrun := State.RunsTo.decoderMicro (i := .destuffStep) hu ha rfl rfl hstep
    refine ⟨x, c, ?_, by rwa [List.append_nil]⟩
    rw [← hx]
    exact hrun
  | cons b r ih =>
    obtain ⟨hlt, hb, hr'⟩ := getD_of_drop_eq_cons hr
    obtain ⟨y, c', kept, res', hbit, hy, hres', rfl⟩ := h.bit (by omega) hres
    have hidx : x.dIdx ≠ d.fCnt := fun heq => by
      have := congrArg BitVec.toNat heq
      rw [h.idx, hf.count] at this
      omega
    have hread : cellRead d.fBuf x.dIdx.toNat = some b := by rw [h.idx, hf.cells i hlt, hb]
    have hstep : destuffStepOn d s.rx = .done ({ d with destuff := some y }, s.rx) := by
      simp only [destuffStepOn, hx, if_neg hidx, hread, hbit]
    have hrun := State.RunsTo.decoderMicro (i := .destuffStep) hu ha rfl rfl hstep
    obtain ⟨z, c'', hrun', hz⟩ := ih (s := s.withDec _ _) (d := { d with destuff := some y }) hy rfl hs rfl
      ⟨hf.count, hf.cells⟩ hr' hlt hres' (by rw [seqAction_decoding rfl, decoderAction]; simp only [hs])
    rw [List.append_assoc] at hz
    exact ⟨z, c'', hrun.cons hrun', hz⟩

/-! ### The packing (R175 to R177) -/

/-- Bytes written to RX_BUF from its first byte on are stored there, and all else is as before. -/
theorem payloadStored_of_bufWriteAll {m m' : List Host.Cell} {vs : List Byte} (h : bufWriteAll m .rx 0 vs = some m')
    (hle : vs.length ≤ 256) : PayloadStored m m' vs := by
  obtain ⟨hval, hframe, -⟩ := bufWriteAll_some h
  refine ⟨fun i hi => ?_, fun i hi => ?_, bufByte_tx_of_bufWriteAll_rx h⟩
  · rw [bufByte_of_lt _ _ (lt_of_lt_of_le hi hle)]
    exact hval i hi
  · unfold bufByte
    split
    · exact hframe _ (.inr (Nat.add_le_add_left hi _))
    · rfl

/-- PACK, where the destuffed bits are whole bytes. -/
theorem execPack_of_walked {s : State} {d : DecCall} {x : Destuff} {i c n : Nat} {out : List Bit}
    (hu : s.unit = .decoding d) (hx : d.destuff = some x) (h : x.Walked i c out) (hlen : out.length = 8 * n)
    (hn : n ≤ 256) :
    ∃ m, PayloadStored s.mem m (groupBytes out) ∧
      execPack s = .next (({ s with mem := m } : State).completed .ok n) := by
  have hbytes := groupBytes_length n out hlen
  obtain ⟨m, hm⟩ := bufWriteAll_of_le s.mem .rx 0 (groupBytes out) (by rw [hbytes, Nat.zero_add]; exact hn)
  have hcnt : x.dCnt.toNat / 8 = n := by
    rw [h.count, hlen]
    omega
  have hprefix : cellPrefix x.dBuf (8 * n) = some out := hlen ▸ (cellPrefix_some_iff x.dBuf out).mpr h.cells
  refine ⟨m, payloadStored_of_bufWriteAll hm (hbytes ▸ hn), ?_⟩
  simp only [execPack, hu, hx, hcnt, hprefix, hm]
  rfl

/-- The last two steps of a DECODE that succeeds: VALIDATE and PACK. -/
theorem Destuff.Walked.endsIn {s : State} {d : DecCall} {x : Destuff} {i c n : Nat} {out : List Bit}
    (h : x.Walked i c out) (hu : s.unit = .decoding d) (hs : d.dState = .validating) (hx : d.destuff = some x)
    (hlen : out.length = 8 * n) (hn : n ≤ 256) :
    ∃ m, PayloadStored s.mem m (groupBytes out) ∧ s.EndsIn 2 (({ s with mem := m } : State).completed .ok n) := by
  have hvalid : validateOn d s.rx = .done ({ d with dState := .packing }, s.rx) := by
    simp only [validateOn, hx, h.count, hlen]
    rw [if_neg (by omega), if_neg (by simp only [Config.maxMessageLen]; omega)]
  have hrun := State.RunsTo.decoderMicro (w := uopWord 0x9 false) (i := .validate) hu
    (by rw [seqAction_decoding hu, decoderAction, hs]) rfl rfl hvalid
  obtain ⟨m, hm, hpack⟩ := execPack_of_walked (s := s.withDec { d with dState := .packing } s.rx) rfl hx h hlen hn
  have hstep : sequencerStep (s.withDec { d with dState := .packing } s.rx) =
      .next (({ s with mem := m } : State).completed .ok n) :=
    (sequencerStep_issue (s := s.withDec _ _) (w := uopWord 0xA false) rfl).trans
      (issueMicro_of_exec_next (s := s.withDec _ _) (i := .pack) rfl hpack)
  exact ⟨m, hm, hrun.endsIn (.last 0 rfl hstep rfl rfl)⟩

/-! ### The whole command -/

/-- DECODE as accepted in IDLE: the call's state at entry. -/
def State.decodeBegun (s : State) : State := (s.accept (cmdWord 0x2 0)).startDecode

theorem exec_decode_idle {s : State} (hu : s.unit = .idle) :
    exec .decode s = runSequencer (decodeFuel s.rx) s.decodeBegun := by
  simp only [exec, execDecode, hu]
  rfl

/-- A DECODE of a stream in which the window meets FLAG at bit `k`, and then `m` bits later with bits between that destuff to
whole bytes: they are the payload, and the bytes begun are consumed. -/
theorem exec_decode_of_frame {s : State} {bytes : List Byte} {rest : List RxAnswer} {k m n : Nat} {out : List Bit}
    (hu : s.unit = .idle) (hp : s.rx.answers = bytes.map .byte ++ rest) (hk : firstFlag 0x00 (bytesBits bytes) = some k)
    (hm : firstFlag 0x00 ((bytesBits bytes).drop k) = some m) (h8 : 8 ≤ m) (hcap : m ≤ 2576)
    (hbits : k + m ≤ 8 * bytes.length)
    (hout : destuff (((bytesBits bytes).drop k).take (m - 8)) = some out) (hlen : out.length = 8 * n) (hn : n ≤ 256) :
    ∃ mem, PayloadStored s.mem mem (groupBytes out) ∧ exec .decode s =
      .next ((({ s with mem := mem } : State).received ((bytes.take ((k + m + 7) / 8)).map .byte)
        ((bytes.drop ((k + m + 7) / 8)).map .byte ++ rest)).completed .ok n) := by
  have hport : s.rx = .afterBits bytes rest s.rx.log 0 := by simp [RxPort.afterBits, ← hp]
  have hstart : DecCall.entry.AtBit bytes 0 := ⟨rfl, fun h => absurd rfl h⟩
  obtain ⟨d1, hseek, hd1, hs1, hwin1, hcnt1⟩ := hstart.seek_runsTo (s := s.decodeBegun) rest s.rx.log k rfl hport rfl hk
  rw [Nat.zero_add] at hseek hd1
  obtain ⟨d2, hcapture, hs2, hx2, hd2⟩ := hd1.capture_runsTo rest s.rx.log m (c := 0)
    (s := s.decodeBegun.withDec d1 (.afterBits bytes rest s.rx.log k)) rfl rfl hs1
    ⟨by rw [hcnt1]; rfl, fun i hi => absurd hi (Nat.not_lt_zero i)⟩ (hwin1 ▸ hm) (by omega) (by omega)
  rw [Nat.zero_add] at hcapture hd2
  have hflen : (((bytesBits bytes).drop k).take (m - 8)).length = m - 8 := by
    rw [List.length_take, List.length_drop, bytesBits_length]
    omega
  have hf : d2.Holds (((bytesBits bytes).drop k).take (m - 8)) (((bytesBits bytes).drop k).take (m - 8)).length := by
    rw [hflen]
    refine ⟨hd2.count, fun i hi => ?_⟩
    rw [hd2.cells i hi, List.getD_eq_getElem?_getD, List.getD_eq_getElem?_getD, List.getElem?_take_of_lt hi]
  obtain ⟨x, c, hwalk, hx⟩ := Destuff.entry_walked.destuff_runsTo
    (s := s.decodeBegun.withDec d2 (.afterBits bytes rest s.rx.log (k + m))) _ rfl hs2 hx2 hf (by omega)
    List.drop_zero (Nat.zero_le _) hout
  rw [hflen] at hwalk
  obtain ⟨mem, hmem, hend⟩ := hx.endsIn
    (s := s.decodeBegun.withDec _ (.afterBits bytes rest s.rx.log (k + m)))
    (d := { d2 with dState := .validating, destuff := some x }) rfl rfl rfl hlen hn
  refine ⟨mem, hmem, ?_⟩
  rw [exec_decode_idle hu]
  refine ((hseek.trans hcapture).trans hwalk).endsIn hend _ ?_
  simp only [decodeFuel, hp, List.length_append, List.length_map, Config.frameBitCapacity]
  omega

theorem byteBits_injective {v w : Byte} (h : byteBits v = byteBits w) : v = w := by
  refine BitVec.eq_of_getLsbD_eq fun i hi => ?_
  have hv := byteBits_getD v (j := 7 - i) (by omega)
  have hw := byteBits_getD w (j := 7 - i) (by omega)
  rw [Nat.sub_sub_self (by omega)] at hv hw
  rw [← hv, ← hw, h]

/-- Bits of whole bytes, cut into bytes, are those bytes. -/
theorem groupBytes_bytesBits (P : List Byte) : groupBytes (bytesBits P) = P := by
  induction P with
  | nil => rfl
  | cons v vs ih =>
    have hbyte : bitsToByte (v.getLsbD 7) (v.getLsbD 6) (v.getLsbD 5) (v.getLsbD 4) (v.getLsbD 3) (v.getLsbD 2)
        (v.getLsbD 1) (v.getLsbD 0) = v := byteBits_injective (byteBits_bitsToByte ..)
    rw [bytesBits]
    show groupBytes (_ :: _ :: _ :: _ :: _ :: _ :: _ :: _ :: bytesBits vs) = _
    rw [groupBytes, hbyte, ih]

/-- Settles O45: the window meets FLAG at the two flags of wire(P), and the bits between are stuff(P), which destuff to P. -/
theorem decodeOfWireFormat : Obligations.DecodeOfWireFormat := by
  intro s P rest hu hP hp
  have hbits : bytesBits (wireBytes P) = wire P := bytesBits_groupBytes _ _ (wire_length P)
  obtain ⟨hstart, hend⟩ := flagTransparency P
  have hstuff := stuff_length P
  have hcount := stuffedCount_le hP
  have hframe : ((wire P).drop 8).take ((stuff P).length + 8 - 8) = stuff P := by
    rw [drop_flag_wire, Nat.add_sub_cancel, List.take_left']
    rfl
  obtain ⟨m, hm, hexec⟩ := exec_decode_of_frame (out := bytesBits P) (n := P.length) hu hp (hbits.symm ▸ hstart)
    (hbits.symm ▸ hend) (by omega) (by omega) (by rw [wireBytes_length]; omega)
    (by rw [hbits, hframe]; exact destuffInvertsStuff (bytesBits P)) (bytesBits_length P) hP
  have hall : (8 + ((stuff P).length + 8) + 7) / 8 = (wireBytes P).length := by
    rw [wireBytes_length]
    omega
  rw [groupBytes_bytesBits] at hm
  rw [hall, List.take_length, List.drop_length] at hexec
  exact ⟨m, hm, hexec⟩

end Sys2Proof.Machine
end

section
/-! PROOFS. The steps of an ENCODE (R130, R132, R133): ENC_PAYLOAD_BIT in full, and how SEQ moves. -/

namespace Sys2Proof.Machine

/-! ### ENC_PAYLOAD_BIT (R133) -/

/-- Without a stuffed 0 it is WRITE_BIT, and the run counter. -/
theorem encPayloadBitOn_plain {b : Bit} {e : EncCall} (p : TxPort) (h : ¬(b = true ∧ e.eOnes = 4)) :
    encPayloadBitOn b e p =
      (writeBitOn b e p).andThen fun x => .done ({ x.1 with eOnes := e.onesAfter b }, x.2) := by
  have hbits : stuffFrom e.eOnes.toNat [b] = [b] := by
    cases b with
    | false => rfl
    | true => exact stuffFrom_true (fun h4 => h ⟨rfl, BitVec.eq_of_toNat_eq h4⟩) []
  rw [encPayloadBitOn_eq_writeBitsOn, hbits, writeBitsOn_singleton]

/-- With a stuffed 0 it is two WRITE_BITs, and the run counter. -/
theorem encPayloadBitOn_stuffed {e : EncCall} (p : TxPort) (h : e.eOnes = 4) :
    encPayloadBitOn true e p =
      ((writeBitOn true e p).andThen fun x => writeBitOn false x.1 x.2).andThen fun x =>
        .done ({ x.1 with eOnes := e.onesAfter true }, x.2) := by
  rw [encPayloadBitOn_eq_writeBitsOn, h, ← writeBitsOn_pair]
  rfl

/-- Settles O23: whether a 0 is stuffed, then W_POS and the channel's answer. -/
theorem encPayloadBitEffect : Obligations.EncPayloadBitEffect := by
  refine ⟨fun b => by cases b <;> rfl, fun s e b hu _ => ⟨fun hplain => ⟨fun h0 => ?_, fun h0 rest hp => ?_⟩,
    fun hstuffed => ?_, fun rest hp => ⟨fun h0 => ?_, fun hb h4 h1 => ?_⟩⟩⟩
  · refine State.onEncoder_done hu ?_
    rw [encPayloadBitOn_plain _ hplain, writeBitOn_mid b _ h0]
    rfl
  · refine State.onEncoder_done hu ?_
    rw [encPayloadBitOn_plain _ hplain, writeBitOn_ok b h0 hp, h0]
    rfl
  · obtain ⟨rfl, h4⟩ := hstuffed
    refine ⟨fun h2 => ?_, fun h1 rest hp => ?_, fun h0 rest hp => ?_⟩
    · have h0 : e.wPos ≠ 0 := fun h => by simp [h] at h2
      have h1 : e.wPos - 1 ≠ 0 := fun h => by
        have hsub := toNat_wPos_sub h0
        rw [h] at hsub
        simp at hsub
        omega
      have hpred : (e.wPos - 1).toNat = e.wPos.toNat - 1 := Nat.eq_sub_of_add_eq (toNat_wPos_sub h0)
      have htwo : e.wPos - 1 - 1 = e.wPos - 2 := (by decide : ∀ x : BitVec 3, x - 1 - 1 = x - 2) e.wPos
      refine State.onEncoder_done hu ?_
      rw [encPayloadBitOn_stuffed _ h4, writeBitOn_mid true _ h0, Flow.andThen_done, writeBitOn_mid false _ h1]
      simp only [Flow.andThen_done, hpred, htwo]
      rfl
    · refine State.onEncoder_done hu ?_
      rw [encPayloadBitOn_stuffed _ h4, writeBitOn_mid true _ (by simp [h1]), Flow.andThen_done,
        writeBitOn_ok false (by simp [h1]) hp]
      rfl
    · refine State.onEncoder_done hu ?_
      rw [encPayloadBitOn_stuffed _ h4, writeBitOn_ok true h0 hp, Flow.andThen_done, writeBitOn_mid false _ (by simp), h0]
      simp only [Flow.andThen_done, show setBit 0x00 (7 : BitVec 3).toNat false = 0x00 by decide,
        show (7 : BitVec 3) - 1 = 6 by decide]
      rfl
  · refine State.onEncoder_abort hu (e' := { e with wByte := setBit e.wByte 0 b }) ?_
    rw [encPayloadBitOn, writeBitOn_err b h0 hp, Flow.andThen_abort, h0]
    rfl
  · subst hb
    refine State.onEncoder_abort hu
      (e' := { e with wByte := setBit (setBit e.wByte e.wPos.toNat true) 0 false, wPos := 0 }) ?_
    rw [encPayloadBitOn_stuffed _ h4, writeBitOn_mid true _ (by simp [h1]), Flow.andThen_done,
      writeBitOn_err false (by simp [h1]) hp]
    simp only [h1]
    rfl

/-! ### How SEQ moves in an ENCODE (R132) -/

theorem State.advance_withEnc (s : State) (e : EncCall) (p : TxPort) :
    (s.withEnc e p).advance =
      if e.ePhase = .pad then (s.withEnc e p).finish .ok e.eLen else s.withEnc e.advance p := rfl

/-- Everything one step of the sequencer can do in an ENCODE: it waits on a write, or ends the command, or runs the
micro-operation of SEQ's position and moves SEQ on, or loads the next payload byte, or leaves PAYLOAD. -/
inductive State.EncodeStep (s : State) (e : EncCall) : State → Prop where
  | waits (b : Byte) : EncodeStep s e (s.waiting (.write b))
  | ended (t : State) (unit : t.unit = .idle) : EncodeStep s e t
  | moved (e1 : EncCall) (p : TxPort) (same : e.SamePayload e1) (phase : e.ePhase ≠ .pad)
      (loaded : e.ePhase = .payload → e.eIdx.toNat < e.eLen.toNat ∧ e.eByte ≠ none) :
      EncodeStep s e (s.withEnc e1.advance p)
  | loads (v : Byte) (phase : e.ePhase = .payload) (more : e.eIdx.toNat < e.eLen.toNat) (empty : e.eByte = none) :
      EncodeStep s e { s with unit := .encoding { e with eByte := some v } }
  | leaves (phase : e.ePhase = .payload) (all : e.eLen.toNat ≤ e.eIdx.toNat) :
      EncodeStep s e { s with unit := .encoding { e with ePhase := .endFlag } }

section
variable {s t : State} {e : EncCall} (hu : s.unit = .encoding e)
include hu

theorem issueMicro_encodeStep {w : UopWord} {i : Instr} {f : EncCall → TxPort → Flow (EncCall × TxPort)}
    (hd : decodeU8 w = .ok i) (hx : exec i s = s.onEncoder f) (hf : EncoderResult e (f e s.tx))
    (hloaded : e.ePhase = .payload → e.eIdx.toNat < e.eLen.toNat ∧ e.eByte ≠ none) (h : issueMicro w s = .next t) :
    s.EncodeStep e t := by
  obtain ⟨t', hexec, rfl⟩ := issueMicro_next hd h
  obtain ⟨e0, hu0, hcase⟩ := State.onEncoder_next (hx.symm.trans (execMicro_eq_exec hd s ▸ hexec))
  obtain rfl : e0 = e := UnitState.encoding.inj (hu0.symm.trans hu)
  rcases hcase with ⟨e1, p, hdone, rfl⟩ | ⟨r, hwait, rfl⟩ | ⟨k, e1, p, -, rfl⟩
  · have hsame := (hdone ▸ hf).same_of_done
    have hphase : e1.ePhase = e0.ePhase := by rw [hsame]
    rw [State.advance_withEnc]
    split
    · exact .ended _ rfl
    · rename_i hpad
      exact .moved e1 p hsame (hphase ▸ hpad) hloaded
  · rw [hwait] at hf
    cases hf with
    | wait b => exact .waits b
  · exact .ended _ rfl

theorem sequencerStep_encodeStep (h : sequencerStep s = .next t) : s.EncodeStep e t := by
  simp only [sequencerStep, seqAction_encoding hu, encoderAction] at h
  cases hc : e.ePhase with
  | startFlag =>
    simp only [hc] at h
    exact issueMicro_encodeStep hu (i := .writeFlag) rfl rfl (writeFlagOn_result e _).encoderResult (by simp [hc]) h
  | endFlag =>
    simp only [hc] at h
    exact issueMicro_encodeStep hu (i := .writeFlag) rfl rfl (writeFlagOn_result e _).encoderResult (by simp [hc]) h
  | pad =>
    simp only [hc] at h
    exact issueMicro_encodeStep hu (i := .padOnes) rfl rfl (padOnesOn_result e _).encoderResult (by simp [hc]) h
  | payload =>
    simp only [hc] at h
    by_cases hlt : e.eIdx.toNat < e.eLen.toNat
    · simp only [if_pos hlt] at h
      cases hb : e.eByte with
      | some v =>
        simp only [hb] at h
        exact issueMicro_encodeStep hu (decodeU8_encPayloadBit _) rfl (encPayloadBitOn_result _ e _)
          (fun _ => ⟨hlt, by simp [hb]⟩) h
      | none =>
        simp only [hb] at h
        split at h
        · split at h
          · cases h
          · exact Host.Outcome.next.inj h ▸ .loads _ hc hlt hb
        · cases h
    · simp only [if_neg hlt] at h
      exact Host.Outcome.next.inj h ▸ .leaves hc (Nat.not_lt.mp hlt)

end

/-- Where SEQ is after one step of the sequencer: it stays, or goes one place on (R132). -/
structure EncCall.OnePlace (e e' : EncCall) : Prop where
  phase : e'.ePhase = e.ePhase ∨ (e.ePhase = .startFlag ∧ e'.ePhase = .payload) ∨
    (e.ePhase = .payload ∧ e'.ePhase = .endFlag ∧ e.eLen.toNat ≤ e.eIdx.toNat) ∨
    (e.ePhase = .endFlag ∧ e'.ePhase = .pad)
  len : e'.eLen = e.eLen
  place : (e'.eIdx = e.eIdx ∧ e'.eBit = e.eBit) ∨ (e.ePhase = .payload ∧ e.eIdx.toNat < e.eLen.toNat ∧
    ((e.eBit ≠ 0 ∧ e'.eIdx = e.eIdx ∧ e'.eBit = e.eBit - 1) ∨ (e.eBit = 0 ∧ e'.eIdx = e.eIdx + 1 ∧ e'.eBit = 7)))

section
variable {e : EncCall}

theorem EncCall.advance_startFlag (h : e.ePhase = .startFlag) : e.advance = { e with ePhase := .payload } := by
  rw [EncCall.advance, h]

theorem EncCall.advance_endFlag (h : e.ePhase = .endFlag) : e.advance = { e with ePhase := .pad } := by
  rw [EncCall.advance, h]

theorem EncCall.advance_nextBit (h : e.ePhase = .payload) (h0 : e.eBit ≠ 0) :
    e.advance = { e with eBit := e.eBit - 1 } := by
  rw [EncCall.advance, h]
  exact if_neg h0

theorem EncCall.advance_nextByte (h : e.ePhase = .payload) (h0 : e.eBit = 0) :
    e.advance = { e with eIdx := e.eIdx + 1, eBit := 7, eByte := none } := by
  rw [EncCall.advance, h]
  exact if_pos h0

theorem EncCall.advance_onePlace (hpad : e.ePhase ≠ .pad) (hlt : e.ePhase = .payload → e.eIdx.toNat < e.eLen.toNat) :
    e.OnePlace e.advance := by
  cases hc : e.ePhase with
  | startFlag => rw [EncCall.advance_startFlag hc]; exact ⟨.inr (.inl ⟨hc, rfl⟩), rfl, .inl ⟨rfl, rfl⟩⟩
  | endFlag => rw [EncCall.advance_endFlag hc]; exact ⟨.inr (.inr (.inr ⟨hc, rfl⟩)), rfl, .inl ⟨rfl, rfl⟩⟩
  | payload =>
    by_cases h0 : e.eBit = 0
    · rw [EncCall.advance_nextByte hc h0]
      exact ⟨.inl rfl, rfl, .inr ⟨hc, hlt hc, .inr ⟨h0, rfl, rfl⟩⟩⟩
    · rw [EncCall.advance_nextBit hc h0]
      exact ⟨.inl rfl, rfl, .inr ⟨hc, hlt hc, .inl ⟨h0, rfl, rfl⟩⟩⟩
  | pad => exact absurd hc hpad

theorem EncCall.SamePayload.onePlace {e1 e' : EncCall} (hs : e.SamePayload e1) (h : e1.OnePlace e') : e.OnePlace e' := by
  rw [hs] at h
  exact ⟨h.phase, h.len, h.place⟩

end

theorem State.EncodeStep.onePlace {s t : State} {e e' : EncCall} (h : s.EncodeStep e t) (hu : s.unit = .encoding e)
    (ht : t.unit = .encoding e') : e.OnePlace e' := by
  cases h with
  | waits b =>
    obtain rfl : e = e' := UnitState.encoding.inj (hu.symm.trans ht)
    exact ⟨.inl rfl, rfl, .inl ⟨rfl, rfl⟩⟩
  | ended t unit => cases unit.symm.trans ht
  | moved e1 p same phase loaded =>
    obtain rfl : e1.advance = e' := UnitState.encoding.inj ht
    refine same.onePlace (EncCall.advance_onePlace ?_ ?_) <;> rw [same]
    · exact phase
    · exact fun hp => (loaded hp).1
  | loads v phase more empty =>
    obtain rfl : { e with eByte := some v } = e' := UnitState.encoding.inj ht
    exact ⟨.inl rfl, rfl, .inl ⟨rfl, rfl⟩⟩
  | leaves phase all =>
    obtain rfl : { e with ePhase := .endFlag } = e' := UnitState.encoding.inj ht
    exact ⟨.inr (.inr (.inl ⟨phase, rfl, all⟩)), rfl, .inl ⟨rfl, rfl⟩⟩

/-- Settles O9, by what the step does; one that comes to wait leaves the call as it was. -/
theorem encoderPhaseOrder : Obligations.EncoderPhaseOrder := by
  intro s t e e' hu h ht
  obtain ⟨hphase, hlen, hplace⟩ := (sequencerStep_encodeStep hu h).onePlace hu ht
  refine ⟨fun ⟨hw, ho⟩ => ?_, hphase, hlen, hplace⟩
  obtain ⟨r, rfl, -⟩ := sequencerStep_waits ho h hw
  exact UnitState.encoding.inj (ht.symm.trans hu)

end Sys2Proof.Machine
end

section
/-! PROOFS. Every command completes or waits (R132, R160, R262): each step of the sequencer in a command has fewer left to do,
and the run of a command has room for them all. -/

namespace Sys2Proof.Machine

/-- What a step of a command with `k` steps left comes to: the command has ended, or waits with `W`, or has fewer steps left;
`Left j t` says that `t` has at most `j`. -/
def State.GoesOn (W : State → Prop) (Left : Nat → State → Prop) (k : Nat) (t : State) : Prop :=
  t.unit = .idle ∨ (t.outstanding ≠ none ∧ W t) ∨ (t.outstanding = none ∧ ∃ j, j < k ∧ Left j t)

/-- A run that has room for the steps left ends in IDLE or where it waits. -/
theorem runSequencer_ends {W : State → Prop} {Left : Nat → State → Prop} (hpos : ∀ s, ¬Left 0 s)
    (hstep : ∀ {k s t}, Left k s → sequencerStep s = .next t → t.GoesOn W Left k) {k n : Nat} {s t : State}
    (hk : k ≤ n) (h : Left k s) (ht : runSequencer n s = .next t) : t.unit = .idle ∨ W t := by
  induction n generalizing k s with
  | zero =>
    obtain rfl : k = 0 := Nat.le_zero.mp hk
    exact absurd h (hpos s)
  | succ n ih =>
    rw [runSequencer] at ht
    split at ht
    · rename_i hidle
      exact .inl (Host.Outcome.next.inj ht ▸ (UnitState.isIdle_iff _).mp hidle)
    · split at ht
      · rename_i t' hs
        split at ht
        · rename_i ho
          obtain rfl := Host.Outcome.next.inj ht
          rcases hstep h hs with hi | ⟨-, hw⟩ | ⟨hn, -⟩
          · exact .inl hi
          · exact .inr hw
          · simp [hn] at ho
        · rename_i ho
          rcases hstep h hs with hi | ⟨hn, -⟩ | ⟨-, j, hj, hr⟩
          · rw [runSequencer_idle n hi] at ht
            exact .inl (Host.Outcome.next.inj ht ▸ hi)
          · exact absurd (Option.isSome_iff_ne_none.mpr hn) ho
          · exact ih (by omega) hr ht
      · cases ht
      · cases ht

/-! ### ENCODE (R130, R132) -/

/-- The steps of PAYLOAD that are left: nine for each byte, less those done for the byte that is loaded. -/
def EncCall.payloadSteps (e : EncCall) : Nat :=
  match e.eByte with
  | none => 9 * (e.eLen.toNat - e.eIdx.toNat)
  | some _ => 9 * (e.eLen.toNat - e.eIdx.toNat - 1) + (e.eBit.toNat + 1)

/-- The steps of an ENCODE that are left. -/
def EncCall.stepsLeft (e : EncCall) : Nat :=
  match e.ePhase with
  | .startFlag => e.payloadSteps + 4
  | .payload => e.payloadSteps + 3
  | .endFlag => 2
  | .pad => 1

theorem EncCall.stepsLeft_pos (e : EncCall) : 0 < e.stepsLeft := by
  unfold EncCall.stepsLeft
  split <;> omega

section
variable {e : EncCall}

theorem EncCall.payloadSteps_none (h : e.eByte = none) : e.payloadSteps = 9 * (e.eLen.toNat - e.eIdx.toNat) := by
  rw [EncCall.payloadSteps, h]

theorem EncCall.payloadSteps_some {v : Byte} (h : e.eByte = some v) :
    e.payloadSteps = 9 * (e.eLen.toNat - e.eIdx.toNat - 1) + (e.eBit.toNat + 1) := by
  rw [EncCall.payloadSteps, h]

theorem EncCall.stepsLeft_payload (h : e.ePhase = .payload) : e.stepsLeft = e.payloadSteps + 3 := by
  rw [EncCall.stepsLeft, h]

theorem EncCall.stepsLeft_advance (hpad : e.ePhase ≠ .pad)
    (hloaded : e.ePhase = .payload → e.eIdx.toNat < e.eLen.toNat ∧ e.eByte ≠ none) :
    e.advance.stepsLeft < e.stepsLeft := by
  cases hc : e.ePhase with
  | startFlag =>
    rw [EncCall.advance_startFlag hc, EncCall.stepsLeft_payload rfl, EncCall.stepsLeft, hc]
    exact Nat.lt_succ_self _
  | endFlag =>
    rw [EncCall.advance_endFlag hc, EncCall.stepsLeft, EncCall.stepsLeft, hc]
    exact Nat.lt_succ_self 1
  | payload =>
    obtain ⟨hlt, hbyte⟩ := hloaded hc
    obtain ⟨v, hv⟩ := Option.ne_none_iff_exists'.mp hbyte
    rw [EncCall.stepsLeft_payload hc, EncCall.payloadSteps_some hv]
    by_cases h0 : e.eBit = 0
    · have hadd : (e.eIdx + 1).toNat = e.eIdx.toNat + 1 := by
        have := e.eLen.isLt
        rw [BitVec.toNat_add]
        simp
        omega
      rw [EncCall.advance_nextByte hc h0,
        EncCall.stepsLeft_payload (e := { e with eIdx := e.eIdx + 1, eBit := 7, eByte := none }) hc,
        EncCall.payloadSteps_none rfl]
      simp only [hadd]
      omega
    · have hsub : (e.eBit - 1).toNat < e.eBit.toNat := by
        have hlt := e.eBit.isLt
        have hne : e.eBit.toNat ≠ 0 := fun h => h0 (BitVec.eq_of_toNat_eq (by simpa using h))
        rw [BitVec.toNat_sub]
        simp
        omega
      rw [EncCall.advance_nextBit hc h0, EncCall.stepsLeft_payload (e := { e with eBit := e.eBit - 1 }) hc,
        EncCall.payloadSteps_some (e := { e with eBit := e.eBit - 1 }) hv]
      simp only
      omega
  | pad => exact absurd hc hpad

theorem EncCall.SamePayload.stepsLeft {e1 : EncCall} (h : e.SamePayload e1) : e1.stepsLeft = e.stepsLeft := by
  rw [h]
  rfl

end

/-- An ENCODE with at most `k` steps left; nothing is outstanding after its first one. -/
def State.EncodeLeft (k : Nat) (s : State) : Prop :=
  ∃ e, s.unit = .encoding e ∧ (e.ePhase = .startFlag ∨ s.outstanding = none) ∧ e.stepsLeft = k

def State.WaitsOnWrite (t : State) : Prop := ∃ b, t.outstanding = some (.write b)

theorem State.EncodeLeft.step {k : Nat} {s t : State} (h : s.EncodeLeft k) (ht : sequencerStep s = .next t) :
    t.GoesOn WaitsOnWrite EncodeLeft k := by
  obtain ⟨e, hu, hquiet, rfl⟩ := h
  have hq : e.ePhase = .payload → s.outstanding = none := fun hp => hquiet.resolve_left (by simp [hp])
  cases sequencerStep_encodeStep hu ht with
  | waits b => exact .inr (.inl ⟨by simp, b, rfl⟩)
  | ended t unit => exact .inl unit
  | moved e1 p same phase loaded =>
    have hless : e1.advance.stepsLeft < e1.stepsLeft := EncCall.stepsLeft_advance (by rw [same]; exact phase)
      (by rw [same]; exact loaded)
    exact .inr (.inr ⟨rfl, _, same.stepsLeft ▸ hless, e1.advance, rfl, .inr rfl, rfl⟩)
  | loads v phase more empty =>
    refine .inr (.inr ⟨hq phase, _, ?_, _, rfl, .inr (hq phase), rfl⟩)
    have := e.eBit.isLt
    rw [EncCall.stepsLeft_payload phase, EncCall.stepsLeft_payload (e := { e with eByte := some v }) phase,
      EncCall.payloadSteps_some rfl, EncCall.payloadSteps_none empty]
    simp only
    omega
  | leaves phase all =>
    refine .inr (.inr ⟨hq phase, _, ?_, _, rfl, .inr (hq phase), rfl⟩)
    rw [EncCall.stepsLeft_payload phase]
    exact Nat.lt_of_lt_of_le (Nat.lt_succ_self 2) (Nat.le_add_left 3 _)

theorem exec_encode_ends {n : Nat} {s t : State} (h : exec (.encode n) s = .next t) :
    t.unit = .idle ∨ ∃ b, t.outstanding = some (.write b) := by
  have h' : execEncode n s = .next t := h
  unfold execEncode at h'
  split at h'
  · rename_i hu
    by_cases hn : n ≤ 256
    · rw [s.startEncode_of_le hn] at h'
      refine runSequencer_ends (Left := State.EncodeLeft) (fun s ⟨e, _, _, h0⟩ => ?_) State.EncodeLeft.step ?_
        ⟨_, rfl, .inl rfl, rfl⟩ h'
      · have := e.stepsLeft_pos
        omega
      · have hlen := cmdLen_cmdWord 0x1 (len := n) (by omega)
        show 9 * ((cmdLen (cmdWord 0x1 n)).toNat - 0) + 4 ≤ encodeFuel
        rw [hlen]
        simp only [encodeFuel, Config.maxMessageLen]
        omega
    · have hover : Config.maxMessageLen < n := Nat.not_le.mp hn
      simp only [State.startEncode, if_pos hover, runSequencer_idle _ (State.finish_unit _ _ _)] at h'
      exact .inl (Host.Outcome.next.inj h' ▸ rfl)
  · cases h'
  · cases h'

/-! ### DECODE (R160, R162) -/

/-- The bits that the channel and R_BYTE still hold. -/
def DecCall.bitsLeft (d : DecCall) (p : RxPort) : Nat := 8 * p.answers.length + d.rAvail.toNat

/-- The frame bits that the destuffing pass has still to walk. -/
def DecCall.walkLeft (d : DecCall) : Nat :=
  match d.destuff with
  | none => 0
  | some x => d.fCnt.toNat - x.dIdx.toNat

/-- The steps of a DECODE that are left, at most: while bits are read, one for each of them and room for the walk of a full
F_BUF and the last steps. -/
def DecCall.stepsLeft (d : DecCall) (p : RxPort) : Nat :=
  match d.dState with
  | .seekingFlag => d.bitsLeft p + 2580
  | .inFrame => d.bitsLeft p + 2580
  | .destuffing => d.walkLeft + 3
  | .validating => 2
  | .packing => 1
  | .done => 1
  | .error => 1

theorem DecCall.stepsLeft_pos (d : DecCall) (p : RxPort) : 0 < d.stepsLeft p := by
  unfold DecCall.stepsLeft
  split <;> omega

section
variable {d d' : DecCall} {p p' : RxPort}

theorem DecCall.stepsLeft_reading (h : d.dState = .seekingFlag ∨ d.dState = .inFrame) :
    d.stepsLeft p = d.bitsLeft p + 2580 := by
  rcases h with h | h <;> rw [DecCall.stepsLeft, h]

theorem DecCall.stepsLeft_destuffing {x : Destuff} (h : d.dState = .destuffing) (hx : d.destuff = some x) :
    d.stepsLeft p = d.fCnt.toNat - x.dIdx.toNat + 3 := by
  rw [DecCall.stepsLeft, h, DecCall.walkLeft, hx]

/-- A READ_BIT that returns a bit takes it from those that are left. -/
theorem DecCall.Readable.bitsLeft_of_bit {b : Bit} (h : d.Readable) (hread : readBitOn d p = .done (d', p'))
    (hb : d'.rResult = some (.bit b)) : d'.bitsLeft p' < d.bitsLeft p := by
  by_cases h0 : d.rAvail = 0
  · cases hp : p.answers with
    | nil => rw [readBitOn_wait h0 hp] at hread; cases hread
    | cons a rest =>
      cases a with
      | byte v =>
        rw [readBitOn_byte h0 hp] at hread
        cases hread
        simp only [DecCall.bitsLeft, hp, h0, List.length_cons]
        simp
        omega
      | eos => rw [readBitOn_eos h0 hp] at hread; cases hread; cases hb
      | err => rw [readBitOn_err h0 hp] at hread; cases hread; cases hb
  · obtain ⟨v, hv⟩ := Option.ne_none_iff_exists'.mp (h.byte h0)
    rw [readBitOn_held p h0 hv h.avail] at hread
    cases hread
    have hsub := DecCall.toNat_avail_sub h0
    have hne : d.rAvail.toNat ≠ 0 := fun h => h0 (BitVec.eq_of_toNat_eq (by simpa using h))
    simp only [DecCall.bitsLeft, hsub]
    omega

theorem Flow.andThen_eq_done {α : Type} {x : Flow α} {f : α → Flow α} {z : α} (h : x.andThen f = .done z) :
    ∃ y, x = .done y ∧ f y = .done z := by
  cases x with
  | done y => exact ⟨y, rfl, h⟩
  | wait r => cases h
  | abort k y => cases h
  | fault g => cases h

theorem DecCall.Readable.sameFrame_of_done (h : d.Readable) (hread : readBitOn d p = .done (d', p')) : d.SameFrame d' := by
  rcases readBitOn_cases p h with ⟨hw, -⟩ | ⟨d1, p1, r, hd, hsame, -, -⟩
  · rw [hw] at hread; cases hread
  · rw [hd] at hread; cases hread; exact hsame

/-- A step of SEEKING_FLAG that is done has used up a bit. -/
theorem seekStepOn_less (hok : d.Ok) (hs : d.dState = .seekingFlag) (h : seekStepOn d p = .done (d', p')) :
    d'.stepsLeft p' < d.stepsLeft p := by
  obtain ⟨⟨d1, p1⟩, hread, hrest⟩ := Flow.andThen_eq_done h
  dsimp only at hrest
  have hstate : d1.dState = .seekingFlag := by rw [hok.readable.sameFrame_of_done hread]; exact hs
  split at hrest
  · cases hrest
  · cases hrest
  · cases hrest
  · rename_i b hb
    have hbits := hok.readable.bitsLeft_of_bit hread hb
    cases hrest
    rw [DecCall.stepsLeft_reading (.inl hs)]
    unfold seekBit
    split
    · rw [DecCall.stepsLeft_reading (.inr rfl)]
      exact Nat.add_lt_add_right hbits 2580
    · rw [DecCall.stepsLeft_reading (d := { d1 with dWin := shiftIn d1.dWin b }) (.inl hstate)]
      exact Nat.add_lt_add_right hbits 2580

/-- A bit that is stored leaves IN_FRAME as it is, or begins the destuffing of no more bits than F_BUF has place for. -/
theorem captureBit_less (b : Bit) (hcount : d.fCnt.toNat ≤ 2576) (hs : d.dState = .inFrame)
    (h : captureBit b d p = .done (d', p')) : d'.stepsLeft p' ≤ d.stepsLeft p := by
  have hlt : d.fCnt.toNat < 2576 := by
    refine Nat.lt_of_le_of_ne hcount fun heq => ?_
    rw [captureBit, if_pos (show _ = Config.frameBitCapacity from heq)] at h
    cases h
  have hsucc : (d.stored b).fCnt.toNat = d.fCnt.toNat + 1 := toNat_add_one_of_lt hlt (by decide)
  rw [DecCall.stepsLeft_reading (.inr hs)]
  rw [captureBit_of_lt b p hlt, endFlagTest] at h
  split at h
  · split at h
    · cases h
    · cases h
      have hsub : ((d.stored b).fCnt - 8).toNat ≤ 2576 := by
        rw [BitVec.toNat_sub, hsucc]
        simp
        omega
      rw [DecCall.stepsLeft_destuffing rfl rfl]
      simp only
      omega
  · cases h
    rw [DecCall.stepsLeft_reading (d := d.stored b) (.inr hs)]
    exact le_rfl

/-- A step of IN_FRAME that is done has used up a bit. -/
theorem captureStepOn_less (hok : d.Ok) (hs : d.dState = .inFrame) (h : captureStepOn d p = .done (d', p')) :
    d'.stepsLeft p' < d.stepsLeft p := by
  obtain ⟨⟨d1, p1⟩, hread, hrest⟩ := Flow.andThen_eq_done h
  dsimp only at hrest
  have hsame := hok.readable.sameFrame_of_done hread
  have hstate : d1.dState = .inFrame := by rw [hsame]; exact hs
  have hcount : d1.fCnt.toNat ≤ 2576 := by rw [hsame]; exact hok.count
  split at hrest
  · cases hrest
  · cases hrest
  · cases hrest
  · rename_i b hb
    have hbits := hok.readable.bitsLeft_of_bit hread hb
    have hle := captureBit_less b hcount hstate hrest
    rw [DecCall.stepsLeft_reading (.inr hs)]
    rw [DecCall.stepsLeft_reading (.inr hstate)] at hle
    omega

theorem Destuff.append_dIdx {b : Bit} {x y : Destuff} (h : x.append b = some y) : y.dIdx = x.dIdx := by
  unfold Destuff.append at h
  split at h
  · cases h
  · cases h; rfl

theorem destuffBit_dIdx {b : Bit} {x y : Destuff} (h : destuffBit b x = .done y) : y.dIdx = x.dIdx := by
  unfold destuffBit at h
  split at h
  · split at h
    · cases h
    · rename_i z hz
      split at h
      · cases h
      · cases h; exact Destuff.append_dIdx (y := z) hz
  · split at h
    · cases h; rfl
    · split at h
      · cases h
      · rename_i z hz
        cases h
        exact Destuff.append_dIdx (y := z) hz

/-- A step of DESTUFFING that is done has walked a bit, or has come to the end of the walk. -/
theorem destuffStepOn_less (hok : d.Ok) (hs : d.dState = .destuffing) (h : destuffStepOn d p = .done (d', p')) :
    d'.stepsLeft p' < d.stepsLeft p := by
  obtain ⟨x, hx, hxok⟩ := hok.walk (.inl hs)
  rw [DecCall.stepsLeft_destuffing hs hx]
  simp only [destuffStepOn, hx] at h
  split at h
  · cases h
    show 2 < _
    omega
  · rename_i hne
    have hlt : x.dIdx.toNat < d.fCnt.toNat := Nat.lt_of_le_of_ne hxok.order.2 fun he => hne (BitVec.eq_of_toNat_eq he)
    have hsucc := toNat_add_one_of_lt (Nat.lt_of_lt_of_le hlt hok.count) capacity_le
    split at h
    · cases h
    · split at h
      · rename_i y hy
        cases h
        have hidx : y.dIdx = x.dIdx + 1 := destuffBit_dIdx hy
        rw [DecCall.stepsLeft_destuffing (d := { d with destuff := some y }) hs rfl, hidx, hsucc]
        simp only
        omega
      · cases h
      · cases h
      · cases h

theorem validateOn_less (hs : d.dState = .validating) (h : validateOn d p = .done (d', p')) :
    d'.stepsLeft p' < d.stepsLeft p := by
  rw [DecCall.stepsLeft, DecCall.stepsLeft, hs]
  unfold validateOn at h
  split at h
  · cases h
  · split at h
    · cases h
    · split at h
      · cases h
      · cases h
        exact Nat.lt_succ_self 1

end

/-- A DECODE with at most `k` steps left. -/
def State.DecodeLeft (k : Nat) (s : State) : Prop :=
  ∃ d, s.unit = .decoding d ∧ d.Ok ∧ d.stepsLeft s.rx = k

def State.WaitsOnRead (t : State) : Prop := t.outstanding = some .read ∧ t.rx.answers = []

theorem issueMicro_goesOn {s t : State} {d : DecCall} {w : UopWord} {i : Instr}
    {f : DecCall → RxPort → Flow (DecCall × RxPort)} (hu : s.unit = .decoding d) (hd : decodeU8 w = .ok i)
    (hx : exec i s = s.onDecoder f) (hf : DecoderResult s.rx (f d s.rx))
    (hless : ∀ d' p', f d s.rx = .done (d', p') → d'.stepsLeft p' < d.stepsLeft s.rx) (h : issueMicro w s = .next t) :
    t.GoesOn State.WaitsOnRead State.DecodeLeft (d.stepsLeft s.rx) := by
  obtain ⟨t', hexec, rfl⟩ := issueMicro_next hd h
  obtain ⟨d0, hu0, hcase⟩ := State.onDecoder_next (hx.symm.trans (execMicro_eq_exec hd s ▸ hexec))
  obtain rfl : d0 = d := UnitState.decoding.inj (hu0.symm.trans hu)
  rcases hcase with ⟨d', p', hdone, rfl⟩ | ⟨r, hwait, rfl⟩ | ⟨k, d', p', -, rfl⟩
  · have hlt := hless d' p' hdone
    rw [hdone] at hf
    cases hf with
    | done _ _ ok => exact .inr (.inr ⟨rfl, _, hlt, d', rfl, ok, rfl⟩)
  · rw [hwait] at hf
    cases hf with
    | wait none => exact .inr (.inl ⟨by simp [State.advance, State.waiting], rfl, none⟩)
  · exact .inl rfl

theorem State.DecodeLeft.step {k : Nat} {s t : State} (h : s.DecodeLeft k) (ht : sequencerStep s = .next t) :
    t.GoesOn WaitsOnRead DecodeLeft k := by
  obtain ⟨d, hu, hok, rfl⟩ := h
  simp only [sequencerStep, seqAction_decoding hu, decoderAction] at ht
  cases hc : d.dState with
  | seekingFlag =>
    simp only [hc] at ht
    exact issueMicro_goesOn hu (i := .seekStep) rfl rfl (seekStepOn_result _ hok hc)
      (fun _ _ => seekStepOn_less hok hc) ht
  | inFrame =>
    simp only [hc] at ht
    exact issueMicro_goesOn hu (i := .captureStep) rfl rfl (captureStepOn_result _ hok hc)
      (fun _ _ => captureStepOn_less hok hc) ht
  | destuffing =>
    simp only [hc] at ht
    exact issueMicro_goesOn hu (i := .destuffStep) rfl rfl (destuffStepOn_result _ hok hc)
      (fun _ _ => destuffStepOn_less hok hc) ht
  | validating =>
    simp only [hc] at ht
    exact issueMicro_goesOn hu (i := .validate) rfl rfl (validateOn_result _ hok hc)
      (fun _ _ => validateOn_less hc) ht
  | packing =>
    simp only [hc] at ht
    obtain ⟨t', hx, rfl⟩ := issueMicro_next (i := .pack) rfl ht
    obtain ⟨_, _, _, _, -, -, rfl⟩ := execPack_writes hx
    exact .inl rfl
  | done => exact absurd hc hok.live.1
  | error => exact absurd hc hok.live.2

theorem exec_decode_ends {s t : State} (h : exec .decode s = .next t) :
    t.unit = .idle ∨ (t.outstanding = some .read ∧ t.rx.answers = []) := by
  have h' : execDecode s = .next t := h
  unfold execDecode at h'
  split at h'
  · refine runSequencer_ends (Left := State.DecodeLeft) (fun s ⟨d, _, _, h0⟩ => ?_) State.DecodeLeft.step ?_
      ⟨_, rfl, DecCall.entry_ok, rfl⟩ h'
    · have := d.stepsLeft_pos s.rx
      omega
    · exact le_rfl
  · cases h'
  · cases h'

/-- Settles O57: at the end of its fuel a command has no steps left, so its run has ended before, in IDLE or in a wait. -/
theorem commandsCompleteOrWait : Obligations.CommandsCompleteOrWait :=
  fun _ _ => ⟨fun _ => exec_encode_ends, exec_decode_ends⟩

end Sys2Proof.Machine
end

section
/-! PROOFS. One step of the reader and of the decoder: READ_BIT by what is left of the byte and the channel's answer (R150), the
two micro-operations that read by the bit READ_BIT returns (R163, R167), and what all but PACK leave alone (R39, R172, R175). -/

namespace Sys2Proof.Machine

/-! ### READ_BIT (R150) -/

theorem DecCall.avail_ne_zero {d : DecCall} (h : 0 < d.rAvail.toNat) : d.rAvail ≠ 0 := fun h0 =>
  absurd h (by rw [h0]; decide)

/-- Settles O31: the byte is exhausted, and the channel answers in one of three ways, or a bit of the byte is left. -/
theorem readBitEffect : Obligations.ReadBitEffect := by
  refine ⟨rfl, fun s d hu => ⟨fun h0 v rest hp => ?_, fun h0 rest hp => ?_, fun h0 rest hp => ?_, fun h0 h8 v hv => ?_⟩⟩
  · exact State.onDecoder_done hu (readBitOn_byte h0 hp)
  · exact State.onDecoder_done hu (readBitOn_eos h0 hp)
  · exact State.onDecoder_done hu (readBitOn_err h0 hp)
  · exact State.onDecoder_done hu (readBitOn_held _ (DecCall.avail_ne_zero h0) hv h8)

/-! ### The micro-operations that read, once a bit is read (R163, R167) -/

section
variable {d d' : DecCall} {p p' : RxPort} {b : Bit}

theorem seekBit_of_eq (h : shiftIn d.dWin b = Config.flag) :
    seekBit b d = { d with dState := .inFrame, dWin := 0x00, fCnt := 0 } := if_pos h

theorem seekBit_of_ne (h : shiftIn d.dWin b ≠ Config.flag) : seekBit b d = { d with dWin := shiftIn d.dWin b } := if_neg h

theorem seekStepOn_bit (hread : readBitOn d p = .done (d', p')) (hb : d'.rResult = some (.bit b)) :
    seekStepOn d p = .done (seekBit b d', p') := by
  simp only [seekStepOn, hread, Flow.andThen_done, hb]

theorem captureStepOn_bit (hread : readBitOn d p = .done (d', p')) (hb : d'.rResult = some (.bit b)) :
    captureStepOn d p = captureBit b d' p' := by
  simp only [captureStepOn, hread, Flow.andThen_done, hb]

end

/-- Settles O35: in both cases READ_BIT returns the bit, and the three micro-operations go on from the state it leaves. -/
theorem decoderStepsRunWhereReadable : Obligations.DecoderStepsRunWhereReadable := by
  intro s d d' b p v hu hcase
  obtain ⟨hread, r, a, rfl⟩ : readBitOn d s.rx = .done (d', p) ∧ ∃ r a, d' = d.returned r a b := by
    rcases hcase with ⟨h0, rest, hp, rfl, rfl, rfl⟩ | ⟨h0, h8, hv, rfl, rfl, rfl⟩
    · exact ⟨readBitOn_byte h0 hp, _, _, rfl⟩
    · exact ⟨readBitOn_held _ (DecCall.avail_ne_zero h0) hv h8, _, _, rfl⟩
  have hseek := seekStepOn_bit hread rfl
  have hcapture (hlt : d.fCnt.toNat < 2576) := (captureStepOn_bit hread rfl).trans (captureBit_of_lt b p hlt)
  refine ⟨hread, State.onDecoder_done hu hread, fun hflag => ?_, fun hno => ?_, fun hlt hno => ?_, fun h7 hlt hflag => ?_⟩
  · exact State.onDecoder_done hu (seekBit_of_eq (d := d.returned r a b) hflag ▸ hseek)
  · exact State.onDecoder_done hu (seekBit_of_ne (d := d.returned r a b) hno ▸ hseek)
  · exact State.onDecoder_done hu ((hcapture hlt).trans (endFlagTest_of_ne p hno))
  · have h8 : 8 ≤ ((d.returned r a b).stored b).fCnt.toNat := by
      show 8 ≤ (d.fCnt + 1).toNat
      rw [toNat_add_one_of_lt hlt (by decide)]
      omega
    have hstep := (hcapture hlt).trans (endFlagTest_of_eq p hflag h8)
    have hwin : ((d.returned r a b).stored b).dWin = 0x7E := hflag
    rw [← hwin]
    exact State.onDecoder_done hu hstep

/-! ### What a step leaves alone -/

/-- What the micro-operation `i` keeps of a DECODE's state, where the command goes on. -/
def DecCall.KeptBy (i : Instr) (d d' : DecCall) : Prop :=
  match i with
  | .readBit => d.SameFrame d'
  | .seekStep => d'.fBuf = d.fBuf ∧ d'.destuff = d.destuff
  | .captureStep => ∀ j, j ≠ d.fCnt.toNat → cellRead d'.fBuf j = cellRead d.fBuf j
  | .destuffStep => d' = { d with dState := d'.dState, destuff := d'.destuff }
  | .validate => d' = { d with dState := d'.dState }
  | _ => True

theorem DecCall.KeptBy.refl (i : Instr) (d : DecCall) : d.KeptBy i d := by
  cases i with
  | seekStep => exact ⟨rfl, rfl⟩
  | captureStep => exact fun _ _ => rfl
  | readBit => rfl
  | destuffStep => rfl
  | validate => rfl
  | _ => trivial

/-- The micro-operation makes no channel request (R172, R175). -/
abbrev ReadsNothing (i : Instr) : Prop := i ∈ [Instr.destuffStep, .validate]

/-- What the micro-operation `i` can come to from the call's state `d` and the port `p`. READ_BIT passes EOS and ERR on to its
caller and does not abort (R150). -/
inductive DecoderEffect (i : Instr) (d : DecCall) (p : RxPort) : Flow (DecCall × RxPort) → Prop where
  | done {d' : DecCall} {p' : RxPort} (kept : d.KeptBy i d') (port : ReadsNothing i → p' = p) :
    DecoderEffect i d p (.done (d', p'))
  | wait (r : ChanReq) : DecoderEffect i d p (.wait r)
  | abort {k : Kind} {d' : DecCall} {p' : RxPort} (raises : i ≠ .readBit) (error : k ≠ .ok)
    (port : ReadsNothing i → p' = p) : DecoderEffect i d p (.abort k (d', p'))
  | fault (g : Fault) : DecoderEffect i d p (.fault g)

section
variable (b : Bit) (d : DecCall) (p : RxPort)

theorem takeBit_cases : (∃ a r, takeBit d p = .done ({ d with rAvail := a, rResult := r }, p)) ∨
    ∃ g, takeBit d p = .fault g := by
  unfold takeBit
  split
  · exact .inr ⟨_, rfl⟩
  · split
    · exact .inr ⟨_, rfl⟩
    · exact .inl ⟨_, _, rfl⟩

theorem readBitOn_effect : DecoderEffect .readBit d p (readBitOn d p) := by
  have hport {p' : RxPort} : ReadsNothing .readBit → p' = p := fun h => absurd h (by decide)
  unfold readBitOn
  split
  · split
    · exact .wait _
    · exact .done rfl hport
    · exact .done rfl hport
    · rename_i v p' _
      rcases takeBit_cases { d with rByte := some v, rAvail := 8 } p' with ⟨a, r, h⟩ | ⟨g, h⟩ <;> rw [h]
      · exact .done rfl hport
      · exact .fault g
  · rcases takeBit_cases d p with ⟨a, r, h⟩ | ⟨g, h⟩ <;> rw [h]
    · exact .done rfl hport
    · exact .fault g

/-- What a micro-operation does after READ_BIT it does to the call it was given: READ_BIT has kept the cells, F_CNT and the
destuffing registers. -/
theorem DecoderEffect.afterRead {i : Instr} (hi : i = .seekStep ∨ i = .captureStep)
    {f : DecCall × RxPort → Flow (DecCall × RxPort)} (hf : ∀ d' p', DecoderEffect i d' p' (f (d', p'))) :
    DecoderEffect i d p ((readBitOn d p).andThen f) := by
  have hport {p'' : RxPort} : ReadsNothing i → p'' = p := by rcases hi with rfl | rfl <;> exact fun h => absurd h (by decide)
  have hread := readBitOn_effect d p
  generalize readBitOn d p = x at hread
  cases hread with
  | @done d' p' same _ =>
    have hrest := hf d' p'
    rw [Flow.andThen_done]
    generalize f (d', p') = y at hrest
    cases hrest with
    | @done d'' _ kept _ =>
      refine .done ?_ hport
      have hsame : d' = { d with rByte := d'.rByte, rAvail := d'.rAvail, rResult := d'.rResult } := same
      rcases hi with rfl | rfl <;> exact (hsame ▸ kept :)
    | wait r => exact .wait r
    | abort raises error _ => exact .abort raises error hport
    | fault g => exact .fault g
  | wait r => exact .wait r
  | abort raises => exact absurd rfl raises
  | fault g => exact .fault g

theorem seekBit_kept : d.KeptBy .seekStep (seekBit b d) := by
  unfold seekBit
  split <;> exact ⟨rfl, rfl⟩

theorem seekStepOn_effect : DecoderEffect .seekStep d p (seekStepOn d p) := by
  refine .afterRead d p (.inl rfl) fun d' p' => ?_
  dsimp only
  split
  · exact .fault _
  · exact .abort (by decide) (by decide) fun _ => rfl
  · exact .abort (by decide) (by decide) fun _ => rfl
  · exact .done (seekBit_kept _ d') fun _ => rfl

theorem endFlagTest_cases : endFlagTest d p = .abort .frameError (d, p) ∨
    ∃ d', endFlagTest d p = .done (d', p) ∧ d'.fBuf = d.fBuf := by
  unfold endFlagTest
  split
  · split
    · exact .inl rfl
    · exact .inr ⟨_, rfl, rfl⟩
  · exact .inr ⟨_, rfl, rfl⟩

theorem cellRead_cellWrite_other {c c' : Cells} {i j : Nat} (h : cellWrite c i b = some c') (hj : j ≠ i) :
    cellRead c' j = cellRead c j := by
  unfold cellWrite at h
  split at h
  · obtain rfl := Option.some.inj h
    rw [cellRead_cellPut, if_neg hj]
  · cases h

theorem captureBit_effect : DecoderEffect .captureStep d p (captureBit b d p) := by
  unfold captureBit
  split
  · exact .abort (by decide) (by decide) fun _ => rfl
  · split
    · exact .fault _
    · rename_i buf hbuf
      rcases endFlagTest_cases { d with fBuf := buf, fCnt := d.fCnt + 1, dWin := shiftIn d.dWin b } p with
        h | ⟨d', h, hcells⟩ <;> rw [h]
      · exact .abort (by decide) (by decide) fun _ => rfl
      · refine .done (fun j hj => ?_) fun _ => rfl
        rw [hcells]
        exact cellRead_cellWrite_other b hbuf hj

theorem captureStepOn_effect : DecoderEffect .captureStep d p (captureStepOn d p) := by
  refine .afterRead d p (.inr rfl) fun d' p' => ?_
  dsimp only
  split
  · exact .fault _
  · exact .abort (by decide) (by decide) fun _ => rfl
  · exact .abort (by decide) (by decide) fun _ => rfl
  · exact captureBit_effect _ d' p'

/-- A sixth 1-bit is the walk's only error (R172). -/
theorem destuffBit_abort {k : Kind} {x y : Destuff} (h : destuffBit b x = .abort k y) : k = .protocolError := by
  unfold destuffBit at h
  repeat' split at h
  all_goals cases h
  rfl

theorem destuffStepOn_effect : DecoderEffect .destuffStep d p (destuffStepOn d p) := by
  unfold destuffStepOn
  split
  · exact .fault _
  · split
    · exact .done rfl fun _ => rfl
    · split
      · exact .fault _
      · split
        · exact .done rfl fun _ => rfl
        · exact .wait _
        · rename_i hbit
          exact .abort (by decide) (by rw [destuffBit_abort _ hbit]; decide) fun _ => rfl
        · exact .fault _

theorem validateOn_effect : DecoderEffect .validate d p (validateOn d p) := by
  unfold validateOn
  split
  · exact .fault _
  · split
    · exact .abort (by decide) (by decide) fun _ => rfl
    · split
      · exact .abort (by decide) (by decide) fun _ => rfl
      · exact .done rfl fun _ => rfl

end

/-- What the micro-operation `i` of a DECODE leaves alone in the state: STATUS, CUR_CMD and what it keeps of the call too, where
the command does not end. -/
structure State.DecoderStepFrame (i : Instr) (s t : State) : Prop where
  mem : t.mem = s.mem
  tx : t.tx = s.tx
  hostReads : t.hostReads = s.hostReads
  agenda : t.agenda = s.agenda
  rx : ReadsNothing i → t.rx = s.rx
  call : (∃ d d', s.unit = .decoding d ∧ t.unit = .decoding d' ∧ t.status = s.status ∧ t.curCmd = s.curCmd ∧
      d.KeptBy i d') ∨
    ∃ (s' : State) (k : Kind), i ≠ .readBit ∧ k ≠ .ok ∧ t = s'.completed k 0

theorem State.onDecoder_stepFrame {i : Instr} {s t : State} {f : DecCall → RxPort → Flow (DecCall × RxPort)}
    (hf : ∀ d p, DecoderEffect i d p (f d p)) (h : s.onDecoder f = .next t) : s.DecoderStepFrame i t := by
  obtain ⟨d, hu, ⟨d', p, hx, rfl⟩ | ⟨r, -, rfl⟩ | ⟨k, d', p, hx, rfl⟩⟩ := State.onDecoder_next h
  · have heffect := hx ▸ hf d s.rx
    cases heffect with
    | done kept port => exact ⟨rfl, rfl, rfl, rfl, port, .inl ⟨d, d', hu, rfl, rfl, rfl, kept⟩⟩
  · exact ⟨rfl, rfl, rfl, rfl, fun _ => rfl, .inl ⟨d, d, hu, hu, rfl, rfl, .refl i d⟩⟩
  · have heffect := hx ▸ hf d s.rx
    cases heffect with
    | abort raises error port => exact ⟨rfl, rfl, rfl, rfl, port, .inr ⟨_, k, raises, error, rfl⟩⟩

/-- Settles O43: what each of the five operations can come to, and what comes of that in the state. -/
theorem decoderFrame : Obligations.DecoderFrame := by
  intro s t i hi h
  have hframe : s.DecoderStepFrame i t := by
    simp only [List.mem_cons, List.not_mem_nil, or_false] at hi
    rcases hi with rfl | rfl | rfl | rfl | rfl
    · exact State.onDecoder_stepFrame readBitOn_effect h
    · exact State.onDecoder_stepFrame seekStepOn_effect h
    · exact State.onDecoder_stepFrame captureStepOn_effect h
    · exact State.onDecoder_stepFrame destuffStepOn_effect h
    · exact State.onDecoder_stepFrame validateOn_effect h
  refine ⟨fun a => by rw [hframe.mem], hframe.tx, hframe.hostReads, hframe.agenda, hframe.rx, ?_⟩
  obtain ⟨d, d', hs, ht, hstatus, hcmd, hkept⟩ | ⟨s', k, hraises, herror, rfl⟩ := hframe.call
  · refine .inl ⟨d, d', hs, ht, hstatus, hcmd, ?_, ?_, ?_, ?_, ?_⟩ <;>
      · rintro rfl
        exact hkept
  · exact .inr ⟨rfl, hraises, herror, rfl, rfl⟩

end Sys2Proof.Machine
end

section
/-! PROOFS. One step of the Frame Decoder, case by case: SEEK_STEP and CAPTURE_STEP by the result of the read (R163 to R170),
DESTUFF_STEP by the frame bit and D_ONES (R172), VALIDATE by D_CNT (R175), PACK (R176, R177). -/

namespace Sys2Proof.Machine

/-! ### SEEK_STEP and CAPTURE_STEP (R163 to R170) -/

section
variable {d d' : DecCall} {p p' : RxPort} (hread : readBitOn d p = .done (d', p'))
include hread

theorem seekStepOn_eos (hr : d'.rResult = some .eos) : seekStepOn d p = .abort .syncError (d', p') := by
  simp only [seekStepOn, hread, Flow.andThen_done, hr]

theorem seekStepOn_err (hr : d'.rResult = some .err) : seekStepOn d p = .abort .ioError (d', p') := by
  simp only [seekStepOn, hread, Flow.andThen_done, hr]

theorem captureStepOn_eos (hr : d'.rResult = some .eos) : captureStepOn d p = .abort .unexpectedEOF (d', p') := by
  simp only [captureStepOn, hread, Flow.andThen_done, hr]

theorem captureStepOn_err (hr : d'.rResult = some .err) : captureStepOn d p = .abort .ioError (d', p') := by
  simp only [captureStepOn, hread, Flow.andThen_done, hr]

end

/-- A bit that finds F_BUF full is the error FrameTooLong (R169). -/
theorem captureBit_of_full (b : Bit) {d : DecCall} (p : RxPort) (h : d.fCnt.toNat = 2576) :
    captureBit b d p = .abort .frameTooLong (d, p) := if_pos h

/-- A match before eight frame bits is the error FrameError (R170). -/
theorem endFlagTest_of_short {d : DecCall} (p : RxPort) (h : d.dWin = Config.flag) (h8 : d.fCnt.toNat < 8) :
    endFlagTest d p = .abort .frameError (d, p) := by rw [endFlagTest, if_pos h, if_pos h8]

/-- F_CNT after a bit is stored, where F_BUF has a place for it. -/
theorem DecCall.stored_fCnt (b : Bit) {d : DecCall} (h : d.fCnt.toNat < 2576) : (d.stored b).fCnt.toNat = d.fCnt.toNat + 1 :=
  toNat_add_one_of_lt h (by decide)

/-- Settles O33: by what READ_BIT returned and, for a bit, by the window. -/
theorem seekStepEffect : Obligations.SeekStepEffect := by
  refine ⟨rfl, shiftIn_toNat, fun s d d' p hu hread => ⟨fun hr => ?_, fun hr => ?_, fun b hr =>
    ⟨fun hflag => ?_, fun hno => ?_⟩⟩⟩
  · exact State.onDecoder_abort hu (seekStepOn_eos hread hr)
  · exact State.onDecoder_abort hu (seekStepOn_err hread hr)
  · exact State.onDecoder_done hu (seekBit_of_eq hflag ▸ seekStepOn_bit hread hr)
  · exact State.onDecoder_done hu (seekBit_of_ne hno ▸ seekStepOn_bit hread hr)

/-- Settles O34: by what READ_BIT returned and, for a bit, by the room in F_BUF, then by the window and F_CNT. -/
theorem captureStepEffect : Obligations.CaptureStepEffect := by
  refine ⟨rfl, cellRead_cellPut, fun s d d' p hu hread => ⟨fun hr => ?_, fun hr => ?_, fun b hr => ?_⟩⟩
  · exact State.onDecoder_abort hu (captureStepOn_eos hread hr)
  · exact State.onDecoder_abort hu (captureStepOn_err hread hr)
  have hbit := captureStepOn_bit hread hr
  have hstored (hlt : d'.fCnt.toNat < 2576) := hbit.trans (captureBit_of_lt b p hlt)
  refine ⟨fun hfull => ?_, fun hlt hno => ?_, fun h8 hflag => ?_, fun h8 hlt hflag => ?_⟩
  · exact State.onDecoder_abort hu (hbit.trans (captureBit_of_full b p hfull))
  · exact State.onDecoder_done hu ((hstored hlt).trans (endFlagTest_of_ne p hno))
  · have hcnt := d'.stored_fCnt b (by omega)
    exact State.onDecoder_abort hu ((hstored (by omega)).trans (endFlagTest_of_short p hflag (by omega)))
  · have hcnt := d'.stored_fCnt b hlt
    have hwin : (d'.stored b).dWin = 0x7E := hflag
    rw [← hwin]
    exact State.onDecoder_done hu ((hstored hlt).trans (endFlagTest_of_eq p hflag (by omega)))

/-! ### DESTUFF_STEP (R172) -/

section
variable {x : Destuff}

/-- A 1-bit, the fifth of its run at most, is kept and counted. -/
theorem destuffBit_true (hcnt : x.dCnt.toNat < 2576) (h5 : x.dOnes.toNat < 5) :
    destuffBit true x =
      .done { x with dBuf := cellPut x.dBuf x.dCnt.toNat true, dCnt := x.dCnt + 1, dOnes := x.dOnes + 1 } := by
  simp only [destuffBit, Destuff.append_of_lt true hcnt, if_true]
  exact if_neg (by omega)

/-- The sixth 1-bit of a run is the error ProtocolError. -/
theorem destuffBit_sixth (hcnt : x.dCnt.toNat < 2576) (h5 : x.dOnes = 5) :
    ∃ y, destuffBit true x = .abort .protocolError y := by
  simp only [destuffBit, Destuff.append_of_lt true hcnt, if_true]
  exact ⟨_, if_pos (by rw [h5]; decide)⟩

/-- A 0 after exactly five 1-bits is dropped. -/
theorem destuffBit_stuffed (h5 : x.dOnes = 5) : destuffBit false x = .done { x with dOnes := 0 } := by
  simp only [destuffBit, Bool.false_eq_true, if_false, if_pos h5]

/-- Any other 0 is kept. -/
theorem destuffBit_false (hcnt : x.dCnt.toNat < 2576) (h5 : x.dOnes ≠ 5) :
    destuffBit false x = .done { x with dBuf := cellPut x.dBuf x.dCnt.toNat false, dCnt := x.dCnt + 1, dOnes := 0 } := by
  simp only [destuffBit, Bool.false_eq_true, if_false, if_neg h5, Destuff.append_of_lt false hcnt]

variable {d : DecCall} {b : Bit} (p : RxPort) (hx : d.destuff = some x)
include hx

theorem destuffStepOn_end (hidx : x.dIdx = d.fCnt) : destuffStepOn d p = .done ({ d with dState := .validating }, p) := by
  simp only [destuffStepOn, hx, if_pos hidx]

variable (hidx : x.dIdx ≠ d.fCnt) (hb : cellRead d.fBuf x.dIdx.toNat = some b)
include hidx hb

theorem destuffStepOn_done {y : Destuff} (hbit : destuffBit b { x with dIdx := x.dIdx + 1 } = .done y) :
    destuffStepOn d p = .done ({ d with destuff := some y }, p) := by
  simp only [destuffStepOn, hx, if_neg hidx, hb, hbit]

theorem destuffStepOn_abort {k : Kind} {y : Destuff} (hbit : destuffBit b { x with dIdx := x.dIdx + 1 } = .abort k y) :
    destuffStepOn d p = .abort k ({ d with destuff := some y }, p) := by
  simp only [destuffStepOn, hx, if_neg hidx, hb, hbit]

end

/-- Settles O36: by whether the walk is at its end, then by the frame bit and D_ONES. -/
theorem destuffStepEffect : Obligations.DestuffStepEffect := by
  refine ⟨rfl, fun s d x hu hx hcnt hones => ⟨fun hidx => ?_, fun hidx hb => ⟨fun h5 => ?_, fun h5 => ?_⟩,
    fun hidx hb => ⟨fun h5 => ?_, fun h5 => ?_⟩⟩⟩
  · exact State.onDecoder_done hu (destuffStepOn_end _ hx hidx)
  · have hlt : x.dOnes.toNat < 5 := Nat.lt_of_le_of_ne hones fun h => h5 (BitVec.eq_of_toNat_eq h)
    exact State.onDecoder_done hu (destuffStepOn_done _ hx hidx hb (destuffBit_true hcnt hlt))
  · obtain ⟨y, hbit⟩ := destuffBit_sixth (x := { x with dIdx := x.dIdx + 1 }) hcnt h5
    exact State.onDecoder_abort hu (destuffStepOn_abort _ hx hidx hb hbit)
  · exact State.onDecoder_done hu (destuffStepOn_done _ hx hidx hb (destuffBit_stuffed h5))
  · exact State.onDecoder_done hu (destuffStepOn_done _ hx hidx hb (destuffBit_false hcnt h5))

/-! ### VALIDATE (R175) -/

section
variable {d : DecCall} {x : Destuff} (p : RxPort) (hx : d.destuff = some x)
include hx

theorem validateOn_misaligned (h8 : x.dCnt.toNat % 8 ≠ 0) : validateOn d p = .abort .alignmentError (d, p) := by
  simp only [validateOn, hx, if_pos h8]

theorem validateOn_oversize (h8 : x.dCnt.toNat % 8 = 0) (h256 : 256 < x.dCnt.toNat / 8) :
    validateOn d p = .abort .oversizeError (d, p) := by
  simp only [validateOn, hx, if_neg (not_not.mpr h8)]
  exact if_pos h256

theorem validateOn_valid (h8 : x.dCnt.toNat % 8 = 0) (h256 : x.dCnt.toNat / 8 ≤ 256) :
    validateOn d p = .done ({ d with dState := .packing }, p) := by
  simp only [validateOn, hx, if_neg (not_not.mpr h8)]
  exact if_neg (Nat.not_lt.mpr h256)

end

/-- Settles O41: alignment first, then size. -/
theorem validateEffect : Obligations.ValidateEffect := by
  refine ⟨rfl, fun s d x hu hx => ⟨fun h8 => ?_, fun h8 h256 => ?_, fun h8 h256 => ?_⟩⟩
  · exact State.onDecoder_abort hu (validateOn_misaligned _ hx h8)
  · exact State.onDecoder_abort hu (validateOn_oversize _ hx h8 h256)
  · exact State.onDecoder_done hu (validateOn_valid _ hx h8 h256)

/-! ### PACK (R176, R177) -/

/-- A last group of fewer than 8 bits is left out. -/
theorem groupBytes_take (bits : List Bit) : groupBytes (bits.take (8 * (bits.length / 8))) = groupBytes bits := by
  have hlen : (bytesBits (groupBytes bits)).length = 8 * (bits.length / 8) := by
    rw [bytesBits_length, groupBytes_length_eq_div]
  rw [← congrArg (List.take (8 * (bits.length / 8))) (bytesBits_groupBytes_append_drop bits), ← hlen, List.take_left,
    groupBytes_bytesBits]

/-- Cells that hold a bit string hold its beginning. -/
theorem cellPrefix_take {c : Cells} {bits : List Bit} (h : cellPrefix c bits.length = some bits) {n : Nat}
    (hn : n ≤ bits.length) : cellPrefix c n = some (bits.take n) := by
  have hlen : (bits.take n).length = n := List.length_take_of_le hn
  rw [← congrArg (cellPrefix c) hlen]
  refine (cellPrefix_some_iff c _).mpr fun i hi => ?_
  rw [hlen] at hi
  rw [(cellPrefix_some_iff c bits).mp h i (by omega), List.getD_eq_getElem?_getD, List.getD_eq_getElem?_getD,
    List.getElem?_take_of_lt hi]

/-- PACK of the destuffed bits `bits`: their whole bytes are written from the start of RX_BUF, and the command completes. -/
theorem execPack_of_bits {s : State} {d : DecCall} {x : Destuff} {bits : List Bit} (hu : s.unit = .decoding d)
    (hx : d.destuff = some x) (hbits : cellPrefix x.dBuf bits.length = some bits) (hcnt : x.dCnt.toNat = bits.length)
    (hn : bits.length / 8 ≤ 256) :
    ∃ m, bufWriteAll s.mem .rx 0 (groupBytes bits) = some m ∧
      execPack s = .next (({ s with mem := m } : State).completed .ok (bits.length / 8)) := by
  obtain ⟨m, hm⟩ := bufWriteAll_of_le s.mem .rx 0 (groupBytes bits)
    (by rw [groupBytes_length_eq_div, Nat.zero_add]; exact hn)
  have hwhole := cellPrefix_take hbits (Nat.mul_div_le bits.length 8)
  refine ⟨m, hm, ?_⟩
  simp only [execPack, hu, hx, hcnt, hwhole, groupBytes_take, hm]
  rfl

/-- Settles O42: the bytes written are the groups of the destuffed bits, and their addresses are RX_BUF's first. -/
theorem packEffect : Obligations.PackEffect := by
  refine ⟨rfl, fun s d x bits hu hx hbits hcnt hn => ?_⟩
  have hlen := groupBytes_length_eq_div bits
  obtain ⟨m, hm, hexec⟩ := execPack_of_bits hu hx hbits hcnt hn
  obtain ⟨-, hframe, -⟩ := bufWriteAll_some hm
  rw [hlen] at hframe
  exact ⟨m, hexec, payloadStored_of_bufWriteAll hm (hlen ▸ hn), hlen, fun i k => groupBytes_getD_getLsbD bits, hframe⟩

end Sys2Proof.Machine
end

section
/-! PROOFS. Six consecutive 1-bits and the window (R165, R179 to R181): when destuffing fails, how early a match can come, and
that bytes without six consecutive 1-bits before a frame do not hide it. -/

namespace Sys2Proof.Machine

/-! ### destuff fails exactly on six consecutive 1-bits (R180) -/

theorem SixOnes.append_left {bs : List Bit} (h : SixOnes bs) (as : List Bit) : SixOnes (as ++ bs) :=
  h.trans (List.suffix_append as bs).isInfix

/-- Where the pass fails with its run counter at `c`, the 1-bits counted and the bits to come hold six in a row. -/
theorem sixOnes_of_destuffFrom_none (bs : List Bit) {c : Nat} (hc : c ≤ 5) (h : destuffFrom c bs = none) :
    SixOnes (List.replicate c true ++ bs) := by
  induction bs generalizing c with
  | nil => cases h
  | cons b bs ih =>
    cases b with
    | true =>
      rw [List.append_cons, ← List.replicate_succ']
      rw [destuffFrom] at h
      split at h
      · obtain rfl : c = 5 := by omega
        exact (List.prefix_append _ bs).isInfix
      · exact ih (by omega) (Option.map_eq_none_iff.mp h)
    | false =>
      have hrest : destuffFrom 0 bs = none := by
        rw [destuffFrom] at h
        split at h
        · exact h
        · exact Option.map_eq_none_iff.mp h
      exact ((ih (Nat.zero_le 5) hrest).append_left [false]).append_left _

/-- Settles O39: the pass fails at the sixth 1-bit of a run, and on every string that holds six. -/
theorem protocolErrorExactly : Obligations.ProtocolErrorExactly :=
  fun f => ⟨sixOnes_of_destuffFrom_none f (Nat.zero_le 5), SixOnes.destuff_none⟩

/-! ### The earliest match (R165, R181) -/

/-- It takes a bit to meet FLAG. -/
theorem firstFlag_pos {win : Byte} {bs : List Bit} {m : Nat} (h : firstFlag win bs = some m) : 0 < m := by
  obtain ⟨_, _, -, ⟨-, rfl⟩ | ⟨-, _, rfl, -⟩⟩ := firstFlag_some h <;> exact Nat.succ_pos _

/-- A match comes with the seventh bit of a run of six 1-bits and a 0 at the earliest, the window's own `r` 1-bits counted, and
with the seventh only where those bits are next. -/
theorem RunIn.firstFlag_early {win : Byte} {r : Nat} (m : Nat) {bs : List Bit} (h : RunIn win r) (hr : r ≤ 6)
    (hm : firstFlag win bs = some m) :
    7 ≤ r + m ∧ (r + m = 7 → bs.take m = List.replicate (6 - r) true ++ [false]) := by
  induction m generalizing win r bs with
  | zero => exact absurd (firstFlag_pos hm) (Nat.lt_irrefl 0)
  | succ m ih =>
    obtain ⟨b, cs, rfl, ⟨hflag, h1⟩ | ⟨hno, m', h1, hrest⟩⟩ := firstFlag_some hm
    · obtain ⟨rfl, rfl⟩ := (h.flag_iff hr b).mp hflag
      obtain rfl : m = 0 := by omega
      exact ⟨le_rfl, fun _ => rfl⟩
    · obtain rfl : m = m' := by omega
      cases b with
      | false =>
        have hlate := (ih (runIn_shiftIn_false win) (Nat.zero_le 6) hrest).1
        exact ⟨by omega, fun _ => by omega⟩
      | true =>
        by_cases h6 : r = 6
        · have hpos := firstFlag_pos hrest
          exact ⟨by omega, fun _ => by omega⟩
        · obtain ⟨hle, heq⟩ := ih (h.shiftIn_true hr) (by omega) hrest
          refine ⟨by omega, fun h7 => ?_⟩
          rw [List.take_succ_cons, heq (by omega), ← List.cons_append, ← List.replicate_succ,
            show 6 - (r + 1) + 1 = 6 - r by omega]

/-- Settles O40: from the empty window the run is the six 1-bits and the 0 themselves. -/
theorem earlyMatchExactly : Obligations.EarlyMatchExactly := by
  intro bits
  have hearly {m : Nat} (hm : firstFlag 0x00 bits = some m) := runIn_zero.firstFlag_early m (Nat.zero_le 6) hm
  refine ⟨fun m hm => ?_, fun ⟨m, hm, hlt⟩ => ?_, fun hseven => ⟨7, ?_, by decide⟩⟩
  · have hle := (hearly hm).1
    omega
  · obtain ⟨hle, heq⟩ := hearly hm
    obtain rfl : m = 7 := by omega
    exact heq rfl
  · rw [← List.take_append_drop 7 bits, hseven]
    exact runIn_zero.firstFlag_ones 6 rfl (bits.drop 7)

/-! ### Bytes before a frame (R179) -/

/-- Bits on which the pass does not fail, having counted the window's run of 1-bits, hold no match, and leave a run that is
shorter than a flag's. -/
theorem RunIn.firstFlag_clear (bs tail : List Bit) {win : Byte} {r : Nat} (h : RunIn win r) (hr : r ≤ 5)
    (hclear : destuffFrom r bs ≠ none) :
    ∃ win' r', RunIn win' r' ∧ r' ≤ 5 ∧ firstFlag win (bs ++ tail) = (firstFlag win' tail).map (· + bs.length) := by
  induction bs generalizing win r with
  | nil => exact ⟨win, r, h, hr, by simp⟩
  | cons b bs ih =>
    suffices ∃ r1, RunIn (shiftIn win b) r1 ∧ r1 ≤ 5 ∧ destuffFrom r1 bs ≠ none ∧ shiftIn win b ≠ Config.flag by
      obtain ⟨r1, h1, hr1, hclear1, hno⟩ := this
      obtain ⟨win', r', h', hr', heq⟩ := ih h1 hr1 hclear1
      refine ⟨win', r', h', hr', ?_⟩
      rw [List.cons_append, firstFlag_cons_of_ne hno, heq, Option.map_map]
      rfl
    have hno : shiftIn win b ≠ Config.flag := fun hflag => by
      have hsix := ((h.flag_iff (by omega) b).mp hflag).2
      omega
    cases b with
    | true =>
      by_cases h5 : 5 < r + 1
      · exact absurd (if_pos h5) hclear
      · refine ⟨r + 1, h.shiftIn_true (by omega), by omega, fun hnone => hclear ?_, hno⟩
        rw [destuffFrom, if_neg h5, hnone, Option.map_none]
    | false =>
      refine ⟨0, runIn_shiftIn_false win, Nat.zero_le 5, fun hnone => hclear ?_, hno⟩
      rw [destuffFrom, hnone, Option.map_none, ite_self]

/-- Settles O46: the bits of G hold no match, so the first one is the start flag's, and the frame is P's. -/
theorem decodeAfterGarbage : Obligations.DecodeAfterGarbage := by
  intro s G P rest hu hP hG hp
  have hbits : bytesBits (G ++ wireBytes P) = bytesBits G ++ wire P := by
    rw [bytesBits_append, wireBytes, bytesBits_groupBytes _ _ (wire_length P)]
  have hGlen := bytesBits_length G
  have hdrop : (bytesBits (G ++ wireBytes P)).drop (8 * G.length + 8) = (wire P).drop 8 := by
    rw [hbits, ← hGlen, ← List.drop_drop, List.drop_left]
  have hstuff := stuff_length P
  have hcount := stuffedCount_le hP
  have hstart : firstFlag 0x00 (bytesBits (G ++ wireBytes P)) = some (8 * G.length + 8) := by
    obtain ⟨win, r, h, hr, heq⟩ := runIn_zero.firstFlag_clear (bytesBits G) (wire P) (Nat.zero_le 5)
      (mt (protocolErrorExactly (bytesBits G)).mp hG)
    rw [hbits, heq, wire, List.append_assoc, List.append_assoc, h.firstFlag_flag hr, Option.map_some, hGlen, Nat.add_comm]
  have hframe : ((wire P).drop 8).take ((stuff P).length + 8 - 8) = stuff P := by
    rw [drop_flag_wire, Nat.add_sub_cancel, List.take_left']
    rfl
  have hlen : (G ++ wireBytes P).length = G.length + (P.length + 2 + (stuffedCount P + 7) / 8) := by
    rw [List.length_append, wireBytes_length]
  obtain ⟨m, hm, hexec⟩ := exec_decode_of_frame (out := bytesBits P) (n := P.length) hu hp hstart
    (hdrop ▸ (flagTransparency P).2) (by omega) (by omega) (by omega)
    (by rw [hdrop, hframe]; exact destuffInvertsStuff (bytesBits P)) (bytesBits_length P) hP
  have hall : (8 * G.length + 8 + ((stuff P).length + 8) + 7) / 8 = (G ++ wireBytes P).length := by omega
  rw [groupBytes_bytesBits] at hm
  rw [hall, List.take_length, List.drop_length] at hexec
  exact ⟨m, hm, hexec⟩

end Sys2Proof.Machine
end

section
/-! PROOFS. The destuffing pass (R172, R173), as DESTUFF_STEPs given by themselves and as steps of the sequencer. -/

namespace Sys2Proof.Machine

section
variable {x : Destuff} {i c : Nat} {out : List Bit}

/-- A frame bit is walked and dropped. -/
theorem Destuff.Walked.drop (h : x.Walked i c out) (hi : i < 2576) :
    ({ x with dIdx := x.dIdx + 1, dOnes := 0 } : Destuff).Walked (i + 1) 0 out where
  idx := (toNat_add_one_of_lt (h.idx ▸ hi) (by decide)).trans (congrArg (· + 1) h.idx)
  ones := rfl
  count := h.count
  cells := h.cells
  ones_le := Nat.zero_le 5
  kept_le := Nat.le_succ_of_le h.kept_le

/-- One bit of the pass on the machine is one bit of the pass on bit strings: both fail, or both keep the same bits. -/
theorem Destuff.Walked.bit_cases (h : x.Walked i c out) (hi : i < 2576) (b : Bit) (bs : List Bit) :
    (destuffFrom c (b :: bs) = none ∧ ∃ y, destuffBit b { x with dIdx := x.dIdx + 1 } = .abort .protocolError y) ∨
      ∃ y c' kept, destuffBit b { x with dIdx := x.dIdx + 1 } = .done y ∧ y.Walked (i + 1) c' (out ++ kept) ∧
        destuffFrom c (b :: bs) = (destuffFrom c' bs).map (kept ++ ·) := by
  have hcnt : x.dCnt.toNat < 2576 := by
    have hle := h.kept_le
    rw [h.count]
    omega
  have hfive : x.dOnes = 5 ↔ c = 5 := by rw [← BitVec.toNat_inj, h.ones]; rfl
  have hle := h.ones_le
  cases b with
  | true =>
    by_cases h5 : c = 5
    · exact .inl ⟨by rw [destuffFrom, if_pos (by omega)],
        destuffBit_sixth (x := { x with dIdx := x.dIdx + 1 }) hcnt (hfive.mpr h5)⟩
    · have hones : (x.dOnes + 1).toNat = c + 1 := by
        rw [BitVec.toNat_add, h.ones]
        simp
        omega
      have hwalk := h.keep hi true (ones := x.dOnes + 1) (by omega)
      rw [hones] at hwalk
      exact .inr ⟨_, c + 1, [true], destuffBit_true (x := { x with dIdx := x.dIdx + 1 }) hcnt (by rw [h.ones]; omega),
        hwalk, destuffFrom_true (by omega) bs⟩
  | false =>
    by_cases h5 : c = 5
    · refine .inr ⟨_, 0, [], destuffBit_stuffed (x := { x with dIdx := x.dIdx + 1 }) (hfive.mpr h5), ?_, ?_⟩
      · rw [List.append_nil]
        exact h.drop hi
      · rw [h5, destuffFrom_stuffed]
        exact Option.map_id'.symm
    · exact .inr ⟨_, 0, [false], destuffBit_false (x := { x with dIdx := x.dIdx + 1 }) hcnt (mt hfive.mp h5),
        h.keep hi false (ones := 0) (Nat.zero_le 5), destuffFrom_false h5 bs⟩

end

/-- `k` DESTUFF_STEPs given one after the other lead from `s` to `t`, and so do `k` steps of the sequencer. -/
structure State.DestuffsTo (k : Nat) (s t : State) : Prop where
  execs : execAll (List.replicate k .destuffStep) s = .next t
  runs : s.RunsTo k t

theorem State.DestuffsTo.refl (s : State) : s.DestuffsTo 0 s := ⟨rfl, .refl s⟩

theorem State.DestuffsTo.cons {s t u : State} {d : DecCall} {k : Nat} (hu : s.unit = .decoding d)
    (hs : d.dState = .destuffing) (h : exec .destuffStep s = .next t) (ho : t.outstanding = none)
    (hne : ∀ e, t.unit ≠ .encoding e) (h' : t.DestuffsTo k u) : s.DestuffsTo (k + 1) u where
  execs := by rw [List.replicate_succ, execAll, h]; exact h'.execs
  runs := by
    refine (State.RunsTo.step (by rw [hu]; rfl) ?_ ho).cons h'.runs
    have ha : seqAction s = .issue (uopWord 0x8 false) := by rw [seqAction_decoding hu, decoderAction, hs]
    rw [sequencerStep_issue ha, issueMicro_of_exec_next (i := .destuffStep) rfl h, State.advance_of_not_encoding hne]

/-- The rest `r` of the pass over the frame bits `f`: it comes to its end with the bits that destuff keeps, or ends the command
where destuff fails. -/
theorem Destuff.Walked.pass {f : List Bit} (r : List Bit) {s : State} {d : DecCall} {x : Destuff} {i c : Nat}
    {out : List Bit} (h : x.Walked i c out) (hu : s.unit = .decoding d) (hs : d.dState = .destuffing)
    (hx : d.destuff = some x) (hf : d.Holds f f.length) (hcap : f.length ≤ 2576) (hr : f.drop i = r) (hi : i ≤ f.length) :
    (∀ res, destuffFrom c r = some res → ∃ y c', y.Walked f.length c' (out ++ res) ∧
      s.DestuffsTo (r.length + 1) (s.withDec { d with dState := .validating, destuff := some y } s.rx)) ∧
    (destuffFrom c r = none → ∃ k, k ≤ r.length ∧ s.DestuffsTo k (s.completed .protocolError 0)) := by
  induction r generalizing s d x i c out with
  | nil =>
    refine ⟨fun res hres => ?_, nofun⟩
    obtain rfl : i = f.length := Nat.le_antisymm hi (List.drop_eq_nil_iff.mp hr)
    obtain rfl : [] = res := Option.some.inj hres
    have hidx : x.dIdx = d.fCnt := BitVec.eq_of_toNat_eq (h.idx.trans hf.count.symm)
    have hstep := State.onDecoder_done hu (destuffStepOn_end s.rx hx hidx)
    refine ⟨x, c, by rwa [List.append_nil], ?_⟩
    rw [← hx]
    exact .cons hu hs hstep rfl (by simp) (.refl _)
  | cons b r ih =>
    obtain ⟨hlt, hb, hr'⟩ := getD_of_drop_eq_cons hr
    have hidx : x.dIdx ≠ d.fCnt := fun heq => by
      have hcount := congrArg BitVec.toNat heq
      rw [h.idx, hf.count] at hcount
      omega
    have hread : cellRead d.fBuf x.dIdx.toNat = some b := by rw [h.idx, hf.cells i hlt, hb]
    rcases h.bit_cases (by omega) b r with ⟨hnone, y, hbit⟩ | ⟨y, c', kept, hbit, hy, heq⟩
    · refine ⟨fun res hres => (nomatch hnone.symm.trans hres), fun _ => ⟨1, Nat.succ_pos _, ?_⟩⟩
      exact .cons hu hs (State.onDecoder_abort hu (destuffStepOn_abort s.rx hx hidx hread hbit)) rfl (by simp) (.refl _)
    · have hstep := State.onDecoder_done hu (destuffStepOn_done s.rx hx hidx hread hbit)
      obtain ⟨hsome, hnone⟩ := ih (s := s.withDec { d with destuff := some y } s.rx) hy rfl hs rfl ⟨hf.count, hf.cells⟩ hr'
        hlt
      rw [heq]
      refine ⟨fun res hres => ?_, fun hres => ?_⟩
      · obtain ⟨res', hres', rfl⟩ := Option.map_eq_some_iff.mp hres
        obtain ⟨z, c'', hz, hrun⟩ := hsome res' hres'
        rw [List.append_assoc] at hz
        exact ⟨z, c'', hz, .cons hu hs hstep rfl (by simp) hrun⟩
      · obtain ⟨k, hk, hrun⟩ := hnone (Option.map_eq_none_iff.mp hres)
        exact ⟨k + 1, Nat.succ_le_succ hk, .cons hu hs hstep rfl (by simp) hrun⟩

/-- Settles O37: the pass over all the frame bits. -/
theorem destuffPass : Obligations.DestuffPass := by
  intro s d f hu hs hx hcap hcount hcells
  obtain ⟨hsome, hnone⟩ := Destuff.entry_walked.pass f hu hs hx ⟨hcount, hcells⟩ hcap List.drop_zero (Nat.zero_le _)
  refine ⟨fun out hout => ?_, fun hout => ?_⟩
  · obtain ⟨x, c, hwalk, hrun⟩ := hsome out hout
    exact ⟨x, hwalk.count, (cellPrefix_some_iff _ _).mpr hwalk.cells, BitVec.eq_of_toNat_eq (hwalk.idx.trans hcount.symm),
      hrun.execs⟩
  · obtain ⟨k, hk, hrun⟩ := hnone hout
    exact ⟨k, hk, hrun.execs⟩

end Sys2Proof.Machine
end

section
/-! PROOFS. R162's table: where one step of the sequencer can lead D_STATE, and with which kinds it can end a DECODE. -/

namespace Sys2Proof.Machine

/-- The states that D_STATE can be in after a step from this one, where the command goes on (R162). -/
def DState.nextStates : DState → List DState
  | .seekingFlag => [.seekingFlag, .inFrame]
  | .inFrame => [.inFrame, .destuffing]
  | .destuffing => [.destuffing, .validating]
  | .validating => [.packing]
  | .packing => []
  | .done => []
  | .error => []

/-- The kinds that a step from this D_STATE can end the command with (R162). -/
def DState.endKinds : DState → List Kind
  | .seekingFlag => [.syncError, .ioError]
  | .inFrame => [.unexpectedEOF, .ioError, .frameTooLong, .frameError]
  | .destuffing => [.protocolError]
  | .validating => [.alignmentError, .oversizeError]
  | .packing => [.ok]
  | .done => []
  | .error => []

/-- A micro-operation issued in `q` keeps to R162's table; where it waits, D_STATE stays. -/
inductive DState.Allows (q : DState) : Flow (DecCall × RxPort) → Prop where
  | done (q' : DState) {d' : DecCall} {p' : RxPort} (moved : d'.dState = q') (next : q' ∈ q.nextStates) :
    Allows q (.done (d', p'))
  | wait (r : ChanReq) (stay : q ∈ q.nextStates) : Allows q (.wait r)
  | abort {k : Kind} (x : DecCall × RxPort) (ends : k ∈ q.endKinds) : Allows q (.abort k x)
  | fault (g : Fault) : Allows q (.fault g)

section
variable {d : DecCall} (p : RxPort)

/-- READ_BIT does not move D_STATE (R150). -/
theorem DState.Allows.afterRead (hstay : d.dState ∈ d.dState.nextStates) {f : DecCall × RxPort → Flow (DecCall × RxPort)}
    (hf : ∀ d' p', d'.dState = d.dState → d.dState.Allows (f (d', p'))) : d.dState.Allows ((readBitOn d p).andThen f) := by
  have hread := readBitOn_effect d p
  generalize readBitOn d p = x at hread
  cases hread with
  | @done d' p' same _ =>
    have hsame : d' = { d with rByte := d'.rByte, rAvail := d'.rAvail, rResult := d'.rResult } := same
    exact hf d' p' (by rw [hsame])
  | wait r => exact .wait r hstay
  | abort raises => exact absurd rfl raises
  | fault g => exact .fault g

theorem seekStepOn_allows (hs : d.dState = .seekingFlag) : d.dState.Allows (seekStepOn d p) := by
  refine .afterRead p (by rw [hs]; decide) fun d' p' hsame => ?_
  rw [hs] at hsame ⊢
  dsimp only
  split
  · exact .fault _
  · exact .abort _ (by decide)
  · exact .abort _ (by decide)
  · unfold seekBit
    split
    · exact .done .inFrame rfl (by decide)
    · exact .done .seekingFlag hsame (by decide)

theorem endFlagTest_allows (hs : d.dState = .inFrame) : DState.Allows .inFrame (endFlagTest d p) := by
  unfold endFlagTest
  split
  · split
    · exact .abort _ (by decide)
    · exact .done .destuffing rfl (by decide)
  · exact .done .inFrame hs (by decide)

theorem captureStepOn_allows (hs : d.dState = .inFrame) : d.dState.Allows (captureStepOn d p) := by
  refine .afterRead p (by rw [hs]; decide) fun d' p' hsame => ?_
  rw [hs] at hsame ⊢
  dsimp only
  split
  · exact .fault _
  · exact .abort _ (by decide)
  · exact .abort _ (by decide)
  · unfold captureBit
    split
    · exact .abort _ (by decide)
    · split
      · exact .fault _
      · exact endFlagTest_allows _ hsame

theorem destuffStepOn_allows (hs : d.dState = .destuffing) : d.dState.Allows (destuffStepOn d p) := by
  unfold destuffStepOn
  rw [hs]
  split
  · exact .fault _
  · split
    · exact .done .validating rfl (by decide)
    · split
      · exact .fault _
      · split
        · exact .done .destuffing rfl (by decide)
        · exact .wait _ (by decide)
        · rename_i hbit
          exact .abort _ (destuffBit_abort _ hbit ▸ List.mem_cons_self)
        · exact .fault _

theorem validateOn_allows (hs : d.dState = .validating) : d.dState.Allows (validateOn d p) := by
  unfold validateOn
  rw [hs]
  split
  · exact .fault _
  · split
    · exact .abort _ (by decide)
    · split
      · exact .abort _ (by decide)
      · exact .done .packing rfl (by decide)

end

/-- After a step from the D_STATE `q` the command goes on in a state of the table, or has completed with a kind of the
table. -/
def State.FollowsTable (t : State) (q : DState) : Prop :=
  (∃ d, t.unit = .decoding d ∧ d.dState ∈ q.nextStates) ∨
    ∃ (s : State) (k : Kind) (c : Nat), t = s.completed k c ∧ k ∈ q.endKinds

theorem issueMicro_followsTable {s t : State} {d : DecCall} {w : UopWord} {i : Instr}
    {f : DecCall → RxPort → Flow (DecCall × RxPort)} (hu : s.unit = .decoding d) (hd : decodeU8 w = .ok i)
    (hx : exec i s = s.onDecoder f) (hf : d.dState.Allows (f d s.rx)) (h : issueMicro w s = .next t) :
    t.FollowsTable d.dState := by
  obtain ⟨t', hexec, rfl⟩ := issueMicro_next hd h
  obtain ⟨d0, hu0, hcase⟩ := State.onDecoder_next (hx.symm.trans (execMicro_eq_exec hd s ▸ hexec))
  obtain rfl : d0 = d := UnitState.decoding.inj (hu0.symm.trans hu)
  rcases hcase with ⟨d', p', hdone, rfl⟩ | ⟨r, hwait, rfl⟩ | ⟨k, d', p', habort, rfl⟩
  · rw [hdone] at hf
    cases hf with
    | done _ moved next => exact .inl ⟨d', rfl, moved ▸ next⟩
  · rw [hwait] at hf
    cases hf with
    | wait _ stay => exact .inl ⟨d0, hu, stay⟩
  · rw [habort] at hf
    cases hf with
    | abort _ ends => exact .inr ⟨_, k, 0, rfl, ends⟩

/-- One step of a DECODE, by D_STATE. -/
theorem sequencerStep_followsTable {s t : State} {d : DecCall} (hu : s.unit = .decoding d)
    (h : sequencerStep s = .next t) : t.FollowsTable d.dState := by
  simp only [sequencerStep, seqAction_decoding hu, decoderAction] at h
  cases hs : d.dState with
  | seekingFlag =>
    simp only [hs] at h
    exact hs ▸ issueMicro_followsTable hu (i := .seekStep) rfl rfl (seekStepOn_allows _ hs) h
  | inFrame =>
    simp only [hs] at h
    exact hs ▸ issueMicro_followsTable hu (i := .captureStep) rfl rfl (captureStepOn_allows _ hs) h
  | destuffing =>
    simp only [hs] at h
    exact hs ▸ issueMicro_followsTable hu (i := .destuffStep) rfl rfl (destuffStepOn_allows _ hs) h
  | validating =>
    simp only [hs] at h
    exact hs ▸ issueMicro_followsTable hu (i := .validate) rfl rfl (validateOn_allows _ hs) h
  | packing =>
    simp only [hs] at h
    obtain ⟨t', hx, rfl⟩ := issueMicro_next (i := .pack) rfl h
    obtain ⟨_, _, _, n, -, -, rfl⟩ := execPack_writes hx
    exact .inr ⟨_, .ok, n, rfl, List.mem_cons_self⟩
  | done => simp only [hs, reduceCtorEq] at h
  | error => simp only [hs, reduceCtorEq] at h

/-- Settles O10: R162's table, read row by row. -/
theorem decoderTransitions : Obligations.DecoderTransitions := by
  intro s t d hu h
  rcases sequencerStep_followsTable hu h with ⟨d', hd', hnext⟩ | ⟨s', k, c, rfl, hk⟩
  · refine .inl ⟨d', hd', ?_⟩
    revert hnext
    cases d.dState <;> simp [DState.nextStates]
  · refine .inr ⟨rfl, rfl, rfl, ?_⟩
    rw [State.completed_status]
    revert hk
    cases d.dState <;> simp [DState.endKinds]

end Sys2Proof.Machine
end

section
/-! PROOFS. A DECODE of any stream, against the rules on whole bit strings (R160 to R178): how its run ends where the window
meets FLAG twice, where the frame grows too long, and where the stream ends before a frame is complete. -/

namespace Sys2Proof.Machine

/-! ### How a run of a DECODE ends -/

theorem State.EndsIn.mono {s t : State} {k l : Nat} (h : s.EndsIn k t) (hkl : k ≤ l) : s.EndsIn l t :=
  fun n hn => h n (hkl.trans hn)

/-- A micro-operation of the reader or decoder that aborts is the last step of a run. -/
theorem State.EndsIn.decoderAbort {s : State} {w : UopWord} {i : Instr} {f : DecCall → RxPort → Flow (DecCall × RxPort)}
    {d d' : DecCall} {p : RxPort} {k : Kind} (hu : s.unit = .decoding d) (ha : seqAction s = .issue w)
    (hd : decodeU8 w = .ok i) (hx : exec i s = s.onDecoder f) (hf : f d s.rx = .abort k (d', p)) :
    s.EndsIn 1 (({ s with rx := p } : State).completed k 0) := by
  refine .last 0 (by rw [hu]; rfl) ?_ rfl rfl
  rw [sequencerStep_issue ha, issueMicro_of_exec_next hd (hx.trans (State.onDecoder_abort hu hf)), State.advance_of_idle rfl]

/-- The run from `t` ends in `n` steps at most, with the verdict's kind, payload and count, and the receive port at `p`; an
error has no payload. -/
def State.EndsAs (t : State) (n : Nat) (p : RxPort) (v : Verdict) : Prop :=
  ∃ m, bufWriteAll t.mem .rx 0 v.payload = some m ∧ v.payload.length ≤ 256 ∧ (v.kind = .ok ∨ v.payload = []) ∧
    t.EndsIn n (({ t with mem := m, rx := p } : State).completed v.kind v.payload.length)

section
variable {t : State} {d : DecCall} {k n : Nat} {p q : RxPort} {v : Verdict}

theorem State.EndsAs.of_error {kind : Kind} {consumed : Nat} {usesTail : Bool}
    (h : t.EndsIn n (({ t with rx := p } : State).completed kind 0)) : t.EndsAs n p ⟨kind, [], consumed, usesTail⟩ :=
  ⟨t.mem, rfl, Nat.zero_le _, .inr rfl, h⟩

theorem State.EndsAs.mono {l : Nat} (h : t.EndsAs n p v) (hnl : n ≤ l) : t.EndsAs l p v := by
  obtain ⟨m, hm, hle, herr, hend⟩ := h
  exact ⟨m, hm, hle, herr, hend.mono hnl⟩

theorem State.RunsTo.endsAs (h : t.RunsTo k (t.withDec d q)) (h' : (t.withDec d q).EndsAs n p v) : t.EndsAs (k + n) p v := by
  obtain ⟨m, hm, hle, herr, hend⟩ := h'
  exact ⟨m, hm, hle, herr, h.endsIn hend⟩

end

/-! ### The frame bits (R172 to R177) -/

/-- VALIDATE and PACK, after a pass that did not fail. -/
theorem Destuff.Walked.endsAs {t : State} {d : DecCall} {x : Destuff} {i c : Nat} {f out : List Bit} (used : Nat)
    (h : x.Walked i c out) (hu : t.unit = .decoding d) (hs : d.dState = .validating) (hx : d.destuff = some x)
    (hout : destuff f = some out) : t.EndsAs 2 t.rx (frameVerdict f used) := by
  have ha : seqAction t = .issue (uopWord 0x9 false) := by rw [seqAction_decoding hu, decoderAction, hs]
  have habort {kind : Kind} (hf : validateOn d t.rx = .abort kind (d, t.rx)) : t.EndsIn 2 (t.completed kind 0) :=
    (State.EndsIn.decoderAbort (i := .validate) hu ha rfl rfl hf).mono (Nat.le_succ 1)
  have hcnt := h.count
  simp only [frameVerdict, hout]
  by_cases h8 : out.length % 8 = 0
  · rw [if_neg (not_not.mpr h8)]
    by_cases h256 : 256 < out.length / 8
    · rw [if_pos (show Config.maxMessageLen < _ from h256)]
      exact .of_error (habort (validateOn_oversize t.rx hx (by rw [hcnt, h8]) (by rwa [hcnt])))
    · rw [if_neg (show ¬Config.maxMessageLen < _ from h256)]
      have hvalid := validateOn_valid t.rx hx (by rw [hcnt, h8]) (by rw [hcnt]; omega)
      have hrun := State.RunsTo.decoderMicro (i := .validate) hu ha rfl rfl hvalid
      obtain ⟨m, hm, hpack⟩ := execPack_of_bits (s := t.withDec { d with dState := .packing } t.rx) rfl hx
        ((cellPrefix_some_iff x.dBuf out).mpr h.cells) hcnt (by omega)
      have hstep : sequencerStep (t.withDec { d with dState := .packing } t.rx) = _ :=
        (sequencerStep_issue (s := t.withDec _ _) (w := uopWord 0xA false) rfl).trans
          (issueMicro_of_exec_next (s := t.withDec _ _) (i := .pack) rfl hpack)
      have hlen := groupBytes_length_eq_div out
      refine ⟨m, hm, by rw [hlen]; omega, .inl rfl, ?_⟩
      rw [hlen]
      exact hrun.endsIn (.last 0 rfl hstep rfl rfl)
  · rw [if_pos h8]
    exact .of_error (habort (validateOn_misaligned t.rx hx (by rwa [hcnt])))

/-- From the entry to DESTUFFING the run ends as the frame bits have it. -/
theorem State.endsAs_frameVerdict {t : State} {d : DecCall} {f : List Bit} (used : Nat) (hf : d.Holds f f.length)
    (hu : t.unit = .decoding d) (hs : d.dState = .destuffing) (hx : d.destuff = some .entry) (hcap : f.length ≤ 2576) :
    t.EndsAs (f.length + 3) t.rx (frameVerdict f used) := by
  obtain ⟨hsome, hnone⟩ := Destuff.entry_walked.pass f hu hs hx hf hcap List.drop_zero (Nat.zero_le _)
  cases hout : destuff f with
  | none =>
    obtain ⟨k, hk, hrun⟩ := hnone hout
    simp only [frameVerdict, hout]
    exact .of_error ((hrun.runs.endsIn (.of_idle rfl)).mono (by omega))
  | some out =>
    obtain ⟨x, c, hwalk, hrun⟩ := hsome out hout
    exact hrun.runs.endsAs (hwalk.endsAs used (t := t.withDec _ t.rx) rfl rfl rfl hout)

/-! ### The window's matches (R163, R167) -/

theorem firstFlag_cons_eq_none {win : Byte} {b : Bit} {bs : List Bit} (h : firstFlag win (b :: bs) = none) :
    shiftIn win b ≠ Config.flag ∧ firstFlag (shiftIn win b) bs = none := by
  have hb : shiftIn win b ≠ Config.flag := fun hflag => nomatch (firstFlag_cons_of_eq hflag bs).symm.trans h
  exact ⟨hb, Option.map_eq_none_iff.mp ((firstFlag_cons_of_ne hb bs).symm.trans h)⟩

theorem firstFlag_le_length {win : Byte} {bs : List Bit} (m : Nat) (h : firstFlag win bs = some m) : m ≤ bs.length := by
  induction m generalizing win bs with
  | zero => exact Nat.zero_le _
  | succ m ih =>
    obtain ⟨b, cs, rfl, ⟨-, h1⟩ | ⟨-, m', h1, hrest⟩⟩ := firstFlag_some h
    · rw [h1]
      exact Nat.succ_le_succ (Nat.zero_le _)
    · obtain rfl : m = m' := by omega
      exact Nat.succ_le_succ (ih hrest)

theorem firstFlag_append {win : Byte} {as : List Bit} (bs : List Bit) {m : Nat} (h : firstFlag win as = some m) :
    firstFlag win (as ++ bs) = some m := by
  induction as generalizing win m with
  | nil => cases h
  | cons a as ih =>
    rw [List.cons_append]
    by_cases ha : shiftIn win a = Config.flag
    · rw [firstFlag_cons_of_eq ha] at h ⊢
      exact h
    · rw [firstFlag_cons_of_ne ha] at h ⊢
      obtain ⟨m', hm', rfl⟩ := Option.map_eq_some_iff.mp h
      rw [ih hm', Option.map_some]

theorem firstFlag_of_take {win : Byte} {bs : List Bit} {n m : Nat} (h : firstFlag win (bs.take n) = some m) :
    firstFlag win bs = some m ∧ m ≤ n := by
  refine ⟨?_, (firstFlag_le_length m h).trans (List.length_take_le n bs)⟩
  rw [← List.take_append_drop n bs]
  exact firstFlag_append _ h

/-- The match comes with the bit after `m` bits that hold none. -/
theorem firstFlag_succ {win : Byte} {bs : List Bit} (m : Nat) (h : firstFlag win bs = some (m + 1)) :
    firstFlag win (bs.take m) = none ∧
      ∃ b cs, bs.drop m = b :: cs ∧ shiftIn ((bs.take m).foldl shiftIn win) b = Config.flag := by
  induction m generalizing win bs with
  | zero =>
    obtain ⟨b, cs, rfl, ⟨hflag, -⟩ | ⟨-, m', h1, hrest⟩⟩ := firstFlag_some h
    · exact ⟨rfl, b, cs, rfl, hflag⟩
    · have hpos := firstFlag_pos hrest
      omega
  | succ m ih =>
    obtain ⟨b, cs, rfl, ⟨-, h1⟩ | ⟨hno, m', h1, hrest⟩⟩ := firstFlag_some h
    · omega
    · obtain rfl : m' = m + 1 := by omega
      obtain ⟨hnone, hmatch⟩ := ih hrest
      exact ⟨by rw [List.take_succ_cons, firstFlag_cons_of_ne hno, hnone, Option.map_none], hmatch⟩

/-! ### The bits of a stream (R163 to R170) -/

/-- Where F_BUF holds the first bits of `f`, it holds those bits as a string of their own. -/
theorem DecCall.Holds.take {d : DecCall} {f : List Bit} {n : Nat} (h : d.Holds f n) (hn : n ≤ f.length) :
    d.Holds (f.take n) (f.take n).length := by
  rw [List.length_take_of_le hn]
  refine ⟨h.count, fun i hi => ?_⟩
  rw [h.cells i hi, List.getD_eq_getElem?_getD, List.getD_eq_getElem?_getD, List.getElem?_take_of_lt hi]

/-- The receive port after the answer that ends the stream. -/
def RxPort.afterTail (bytes : List Byte) (tail : RxAnswer) (rest log : List RxAnswer) : RxPort :=
  ⟨rest, log ++ (bytes.map .byte ++ [tail])⟩

section
variable {s : State} {bytes : List Byte} (rest log : List RxAnswer) {k : Nat} {d : DecCall} (h : d.AtBit bytes k)
include h

/-- A READ_BIT after the last bit takes the answer that ends the stream. -/
theorem DecCall.AtBit.readBitOn_tail {tail : RxAnswer} (hk : k = 8 * bytes.length) (htail : tail = .eos ∨ tail = .err) :
    ∃ d', readBitOn d (.afterBits bytes (tail :: rest) log k) = .done (d', .afterTail bytes tail rest log) ∧
      (tail = .eos ∧ d'.rResult = some .eos ∨ tail = .err ∧ d'.rResult = some .err) := by
  have h0 : d.rAvail = 0 := BitVec.eq_of_toNat_eq (by rw [h.avail, hk, Nat.mul_mod_right]; rfl)
  have hall : (k + 7) / 8 = bytes.length := by omega
  have hport : RxPort.afterBits bytes (tail :: rest) log k = ⟨tail :: rest, log ++ bytes.map .byte⟩ := by
    rw [RxPort.afterBits, hall, List.drop_length, List.take_length]
    rfl
  rw [hport, RxPort.afterTail, ← List.append_assoc]
  rcases htail with rfl | rfl
  · exact ⟨_, readBitOn_eos h0 rfl, .inl ⟨rfl, rfl⟩⟩
  · exact ⟨_, readBitOn_err h0 rfl, .inr ⟨rfl, rfl⟩⟩

variable {b : Bit} {cs : List Bit}

/-- A READ_BIT before that returns the stream's next bit. -/
theorem DecCall.AtBit.readBitOn_cons (hbits : (bytesBits bytes).drop k = b :: cs) :
    ∃ v a, readBitOn d (.afterBits bytes rest log k) = .done (d.returned v a b, .afterBits bytes rest log (k + 1)) ∧
      ∀ b', (d.returned v a b').AtBit bytes (k + 1) := by
  obtain ⟨hk, hb, -⟩ := getD_of_drop_eq_cons hbits
  rw [bytesBits_length] at hk
  exact hb ▸ h.readBitOn_done rest log hk

/-- SEEKING_FLAG to the end of a stream in which the window does not meet FLAG (R164). -/
theorem DecCall.AtBit.seek_endsIn (bs : List Bit) {tail : RxAnswer} (htail : tail = .eos ∨ tail = .err)
    (hu : s.unit = .decoding d) (hp : s.rx = .afterBits bytes (tail :: rest) log k) (hs : d.dState = .seekingFlag)
    (hbs : (bytesBits bytes).drop k = bs) (hk : k ≤ 8 * bytes.length) (hno : firstFlag d.dWin bs = none) :
    s.EndsIn (bs.length + 1) (({ s with rx := .afterTail bytes tail rest log } : State).completed
      (if tail = .eos then .syncError else .ioError) 0) := by
  have ha : seqAction s = .issue (uopWord 0x6 false) := by rw [seqAction_decoding hu, decoderAction, hs]
  induction bs generalizing s d k with
  | nil =>
    rw [List.drop_eq_nil_iff, bytesBits_length] at hbs
    obtain ⟨d', hread, ⟨rfl, hr⟩ | ⟨rfl, hr⟩⟩ := h.readBitOn_tail rest log (Nat.le_antisymm hk hbs) htail <;>
      rw [← hp] at hread
    · exact .decoderAbort (i := .seekStep) hu ha rfl rfl (seekStepOn_eos hread hr)
    · exact .decoderAbort (i := .seekStep) hu ha rfl rfl (seekStepOn_err hread hr)
  | cons b bs ih =>
    obtain ⟨hlt, -, hbs'⟩ := getD_of_drop_eq_cons hbs
    rw [bytesBits_length] at hlt
    obtain ⟨v, a, hread, hnext⟩ := h.readBitOn_cons (tail :: rest) log hbs
    rw [← hp] at hread
    obtain ⟨hb, hno'⟩ := firstFlag_cons_eq_none hno
    have hstep := seekStepOn_bit hread rfl
    rw [seekBit_of_ne (d := d.returned v a b) hb] at hstep
    have hrun := State.RunsTo.decoderMicro (i := .seekStep) hu ha rfl rfl hstep
    rw [Nat.add_comm]
    exact hrun.endsIn (ih (s := s.withDec _ _) (d := { d.returned v a b with dWin := shiftIn d.dWin b })
      ⟨(hnext b).avail, (hnext b).byte⟩ rfl rfl hs hbs' hlt hno'
      (by rw [seqAction_decoding rfl, decoderAction]; simp only [DecCall.returned, hs]))

/-- The steps of IN_FRAME over `n` bits that hold no match. -/
theorem DecCall.AtBit.capture_runsTo_unmatched (n : Nat) (hu : s.unit = .decoding d) (ho : s.outstanding = none)
    (hp : s.rx = .afterBits bytes rest log k) (hs : d.dState = .inFrame) (hcap : d.fCnt.toNat + n ≤ 2576)
    (hlen : k + n ≤ 8 * bytes.length) (hno : firstFlag d.dWin (((bytesBits bytes).drop k).take n) = none) :
    ∃ d', s.RunsTo n (s.withDec d' (.afterBits bytes rest log (k + n))) ∧ d'.AtBit bytes (k + n) ∧ d'.dState = .inFrame ∧
      d'.fCnt.toNat = d.fCnt.toNat + n ∧ d'.dWin = (((bytesBits bytes).drop k).take n).foldl shiftIn d.dWin := by
  induction n generalizing s d k with
  | zero =>
    have hself : s.withDec d (.afterBits bytes rest log k) = s := by rw [State.withDec, ← hu, ← ho, ← hp]
    exact ⟨d, by rw [Nat.add_zero, hself]; exact .refl s, h, hs, rfl, rfl⟩
  | succ n ih =>
    obtain ⟨b, cs, hbits⟩ : ∃ b cs, (bytesBits bytes).drop k = b :: cs :=
      List.exists_cons_of_ne_nil (mt List.drop_eq_nil_iff.mp (by rw [bytesBits_length]; omega))
    obtain ⟨-, -, hcs⟩ := getD_of_drop_eq_cons hbits
    obtain ⟨v, a, hread, hnext⟩ := h.readBitOn_cons rest log hbits
    rw [← hp] at hread
    rw [hbits, List.take_succ_cons] at hno ⊢
    obtain ⟨hb, hno'⟩ := firstFlag_cons_eq_none hno
    have hlt : (d.returned v a b).fCnt.toNat < 2576 := show d.fCnt.toNat < _ by omega
    have hcnt : ((d.returned v a b).stored b).fCnt.toNat = d.fCnt.toNat + 1 := DecCall.stored_fCnt b hlt
    have hstep := captureStepOn_bit hread rfl
    rw [captureBit_of_lt b _ hlt, endFlagTest_of_ne _ hb] at hstep
    have hrun := State.RunsTo.decoderMicro (w := uopWord 0x7 false) (i := .captureStep) hu
      (by rw [seqAction_decoding hu, decoderAction, hs]) rfl rfl hstep
    obtain ⟨d', hrun', hat, hs', hcnt', hwin⟩ := ih (s := s.withDec _ (.afterBits bytes rest log (k + 1)))
      (d := (d.returned v a b).stored b) ⟨(hnext b).avail, (hnext b).byte⟩ rfl rfl rfl hs (by omega) (by omega)
      (hcs ▸ hno')
    rw [show k + 1 + n = k + (n + 1) by omega] at hrun' hat
    exact ⟨d', hrun.cons hrun', hat, hs', by omega, hcs ▸ hwin⟩

/-- IN_FRAME where the window meets FLAG (R168, R170). -/
theorem DecCall.AtBit.capture_endsAs_match {m : Nat} (nBytes : Nat) (tail : RxAnswer) (hu : s.unit = .decoding d)
    (ho : s.outstanding = none) (hp : s.rx = .afterBits bytes rest log k) (hs : d.dState = .inFrame) (hwin : d.dWin = 0x00)
    (hcnt : d.fCnt = 0) (hm : firstFlag 0x00 (((bytesBits bytes).drop k).take Config.frameBitCapacity) = some m) :
    s.EndsAs (m + 2580) (.afterBits bytes rest log (k + m)) (captureVerdict ((bytesBits bytes).drop k) k nBytes tail) := by
  obtain ⟨hmatch, hcap⟩ := firstFlag_of_take hm
  replace hcap : m ≤ 2576 := hcap
  have hlen := firstFlag_le_length m hmatch
  rw [List.length_drop, bytesBits_length] at hlen
  have hcnt0 : d.fCnt.toNat = 0 := by rw [hcnt]; rfl
  simp only [captureVerdict, hm]
  by_cases h8 : m < 8
  · rw [if_pos h8]
    cases m with
    | zero => exact absurd (firstFlag_pos hmatch) (Nat.lt_irrefl 0)
    | succ m =>
      obtain ⟨hno, b, cs, hbits, hflag⟩ := firstFlag_succ m hmatch
      rw [List.drop_drop] at hbits
      obtain ⟨d1, hrun, hat, hs1, hcnt1, hwin1⟩ := h.capture_runsTo_unmatched rest log m hu ho hp hs (by omega) (by omega)
        (hwin ▸ hno)
      obtain ⟨v, a, hread, -⟩ := hat.readBitOn_cons rest log hbits
      have hlt : (d1.returned v a b).fCnt.toNat < 2576 := show d1.fCnt.toNat < _ by omega
      have hstored : ((d1.returned v a b).stored b).fCnt.toNat = d1.fCnt.toNat + 1 := DecCall.stored_fCnt b hlt
      have hwindow : ((d1.returned v a b).stored b).dWin = Config.flag := by
        show shiftIn d1.dWin b = _
        rw [hwin1, hwin, hflag]
      have hstep := captureStepOn_bit hread rfl
      rw [captureBit_of_lt b _ hlt, endFlagTest_of_short _ hwindow (by omega)] at hstep
      have hend := State.EndsIn.decoderAbort (s := s.withDec d1 (.afterBits bytes rest log (k + m))) (w := uopWord 0x7 false)
        (i := .captureStep) rfl (by rw [seqAction_decoding rfl, decoderAction, hs1]) rfl rfl hstep
      exact .of_error ((hrun.endsIn hend).mono (by omega))
  · rw [if_neg h8]
    have hflen : (((bytesBits bytes).drop k).take (m - 8)).length = m - 8 := by
      rw [List.length_take, List.length_drop, bytesBits_length]
      omega
    obtain ⟨d2, hrun, hs2, hx2, hd2⟩ := h.capture_runsTo rest log m (c := 0) hu hp hs
      ⟨hcnt0, fun i hi => absurd hi (Nat.not_lt_zero i)⟩ (hwin ▸ hmatch) (by omega) (by omega)
    rw [Nat.zero_add] at hrun hd2
    have hf := hd2.take (by rw [List.length_drop, bytesBits_length]; omega)
    have hend := State.endsAs_frameVerdict (t := s.withDec d2 (.afterBits bytes rest log (k + m))) (k + m) hf rfl hs2 hx2
      (by omega)
    exact (hrun.endsAs hend).mono (by omega)

end

end Sys2Proof.Machine
end

section
/-! PROOFS. The whole DECODE (R160 to R178, R232, R234): every stream that ends in EOS or ERR, and the streams that hold two
matches, whatever is behind them. -/

namespace Sys2Proof.Machine

/-- The receive port as a verdict leaves it. -/
def Verdict.port (v : Verdict) (bytes : List Byte) (tail : RxAnswer) (rest log : List RxAnswer) : RxPort :=
  if v.usesTail then .afterTail bytes tail rest log
  else ⟨(bytes.drop v.consumed).map .byte ++ tail :: rest, log ++ (bytes.take v.consumed).map .byte⟩

/-- The frame's verdict consumes the bytes begun up to the end flag. -/
theorem frameVerdict_port (f : List Bit) (used : Nat) (bytes : List Byte) (tail : RxAnswer) (rest log : List RxAnswer) :
    (frameVerdict f used).port bytes tail rest log = .afterBits bytes (tail :: rest) log used := by
  unfold frameVerdict
  split
  · rfl
  · split
    · rfl
    · split <;> rfl

/-- Where there is a match the stream's end is not reached. -/
theorem captureVerdict_port {bits : List Bit} {m : Nat} (h : firstFlag 0x00 (bits.take Config.frameBitCapacity) = some m)
    (used nBytes : Nat) (bytes : List Byte) (tail : RxAnswer) (rest log : List RxAnswer) :
    (captureVerdict bits used nBytes tail).port bytes tail rest log = .afterBits bytes (tail :: rest) log (used + m) := by
  simp only [captureVerdict, h]
  split
  · rfl
  · exact frameVerdict_port ..

section
variable {s : State} {bytes : List Byte} (rest log : List RxAnswer) {k : Nat} {d : DecCall} (h : d.AtBit bytes k)
  {tail : RxAnswer} (hu : s.unit = .decoding d) (ho : s.outstanding = none)
  (hp : s.rx = .afterBits bytes (tail :: rest) log k) (hs : d.dState = .inFrame) (hwin : d.dWin = 0x00) (hcnt : d.fCnt = 0)
  (hno : firstFlag 0x00 (((bytesBits bytes).drop k).take Config.frameBitCapacity) = none)
include h hu ho hp hs hwin hcnt hno

/-- IN_FRAME where F_BUF is full before a match, and a bit more comes (R169). -/
theorem DecCall.AtBit.capture_endsIn_tooLong (hlong : k + 2576 < 8 * bytes.length) :
    s.EndsIn 2577 (({ s with rx := .afterBits bytes (tail :: rest) log (k + 2576 + 1) } : State).completed .frameTooLong 0) := by
  have hcnt0 : d.fCnt.toNat = 0 := by rw [hcnt]; rfl
  obtain ⟨d1, hrun, hat, hs1, hcnt1, -⟩ := h.capture_runsTo_unmatched (tail :: rest) log 2576 hu ho hp hs (by omega)
    (by omega) (hwin ▸ hno)
  obtain ⟨b, cs, hbits⟩ : ∃ b cs, (bytesBits bytes).drop (k + 2576) = b :: cs :=
    List.exists_cons_of_ne_nil (mt List.drop_eq_nil_iff.mp (by rw [bytesBits_length]; omega))
  obtain ⟨v, a, hread, -⟩ := hat.readBitOn_cons (tail :: rest) log hbits
  have hfull : (d1.returned v a b).fCnt.toNat = 2576 := hcnt1.trans (by rw [hcnt0])
  have hstep := captureStepOn_bit hread rfl
  rw [captureBit_of_full b _ hfull] at hstep
  exact hrun.endsIn (.decoderAbort (s := s.withDec d1 _) (w := uopWord 0x7 false) (i := .captureStep) rfl
    (by rw [seqAction_decoding rfl, decoderAction, hs1]) rfl rfl hstep)

/-- IN_FRAME where the stream ends before a match (R167). -/
theorem DecCall.AtBit.capture_endsIn_tail (htail : tail = .eos ∨ tail = .err) {n : Nat} (hn : k + n = 8 * bytes.length)
    (hshort : n ≤ 2576) :
    s.EndsIn (n + 1) (({ s with rx := .afterTail bytes tail rest log } : State).completed
      (if tail = .eos then .unexpectedEOF else .ioError) 0) := by
  have hcnt0 : d.fCnt.toNat = 0 := by rw [hcnt]; rfl
  have htake (j : Nat) (hj : n ≤ j) : ((bytesBits bytes).drop k).take j = (bytesBits bytes).drop k :=
    List.take_of_length_le (by rw [List.length_drop, bytesBits_length]; omega)
  rw [htake Config.frameBitCapacity hshort, ← htake n le_rfl] at hno
  obtain ⟨d1, hrun, hat, hs1, -⟩ := h.capture_runsTo_unmatched (tail :: rest) log n hu ho hp hs (by omega) (by omega)
    (hwin ▸ hno)
  have ha : seqAction (s.withDec d1 (.afterBits bytes (tail :: rest) log (k + n))) = .issue (uopWord 0x7 false) := by
    rw [seqAction_decoding rfl, decoderAction, hs1]
  refine hrun.endsIn ?_
  obtain ⟨d', hread, ⟨rfl, hr⟩ | ⟨rfl, hr⟩⟩ := hat.readBitOn_tail rest log hn htail
  · exact .decoderAbort (s := s.withDec d1 _) (i := .captureStep) rfl ha rfl rfl (captureStepOn_eos hread hr)
  · exact .decoderAbort (s := s.withDec d1 _) (i := .captureStep) rfl ha rfl rfl (captureStepOn_err hread hr)

end

/-- IN_FRAME, on every stream that ends in EOS or ERR. -/
theorem DecCall.AtBit.capture_endsAs {s : State} {bytes : List Byte} (rest log : List RxAnswer) {k : Nat} {d : DecCall}
    (h : d.AtBit bytes k) {tail : RxAnswer} (htail : tail = .eos ∨ tail = .err) (hu : s.unit = .decoding d)
    (ho : s.outstanding = none) (hp : s.rx = .afterBits bytes (tail :: rest) log k) (hs : d.dState = .inFrame)
    (hwin : d.dWin = 0x00) (hcnt : d.fCnt = 0) (hk : k ≤ 8 * bytes.length) {v : Verdict}
    (hv : captureVerdict ((bytesBits bytes).drop k) k bytes.length tail = v) :
    s.EndsAs (8 * bytes.length - k + 2580) (v.port bytes tail rest log) v := by
  have hlen : ((bytesBits bytes).drop k).length = 8 * bytes.length - k := by rw [List.length_drop, bytesBits_length]
  cases hm : firstFlag 0x00 (((bytesBits bytes).drop k).take Config.frameBitCapacity) with
  | some m =>
    have hend := h.capture_endsAs_match (tail :: rest) log bytes.length tail hu ho hp hs hwin hcnt hm
    have hle := firstFlag_le_length m (firstFlag_of_take hm).1
    rw [← hv, captureVerdict_port hm]
    exact hend.mono (by omega)
  | none =>
    simp only [captureVerdict, hm, hlen] at hv
    by_cases hlong : 2576 < 8 * bytes.length - k
    · rw [if_pos (show Config.frameBitCapacity < _ from hlong)] at hv
      obtain rfl := hv
      exact .of_error ((h.capture_endsIn_tooLong rest log hu ho hp hs hwin hcnt hm (by omega)).mono (by omega))
    · rw [if_neg (show ¬Config.frameBitCapacity < _ from hlong)] at hv
      obtain rfl := hv
      exact .of_error ((h.capture_endsIn_tail rest log hu ho hp hs hwin hcnt hm htail
        (n := 8 * bytes.length - k) (by omega) (by omega)).mono (by omega))

/-! ### The whole command -/

theorem RxPort.eq_afterBits_zero {p : RxPort} {bytes : List Byte} {rest : List RxAnswer}
    (hp : p.answers = bytes.map .byte ++ rest) : p = .afterBits bytes rest p.log 0 := by simp [RxPort.afterBits, ← hp]

theorem DecCall.entry_atBit (bytes : List Byte) : DecCall.entry.AtBit bytes 0 := ⟨rfl, fun h => absurd rfl h⟩

/-- A DECODE whose run ends as the verdict has it, in the steps that the command has room for (R160). -/
theorem State.EndsAs.exec_decode {s : State} {n : Nat} {p : RxPort} {v : Verdict} (h : s.decodeBegun.EndsAs n p v)
    (hu : s.unit = .idle) (hn : n ≤ 8 * s.rx.answers.length + 2580) :
    ∃ m, bufWriteAll s.mem .rx 0 v.payload = some m ∧ v.payload.length ≤ 256 ∧ (v.kind = .ok ∨ v.payload = []) ∧
      exec .decode s = .next (({ s with mem := m, rx := p } : State).completed v.kind v.payload.length) := by
  obtain ⟨m, hm, hle, herr, hend⟩ := h
  exact ⟨m, hm, hle, herr, (exec_decode_idle hu).trans (hend _ hn)⟩

section
variable {s : State} {bytes : List Byte} {rest : List RxAnswer}

/-- The steps of a DECODE over the start flag (R163, R166). -/
theorem State.decodeBegun_runsTo {k : Nat} (hp : s.rx.answers = bytes.map .byte ++ rest)
    (hk : firstFlag 0x00 (bytesBits bytes) = some k) :
    ∃ d, s.decodeBegun.RunsTo k (s.decodeBegun.withDec d (.afterBits bytes rest s.rx.log k)) ∧ d.AtBit bytes k ∧
      d.dState = .inFrame ∧ d.dWin = 0x00 ∧ d.fCnt = 0 ∧ k ≤ 8 * bytes.length := by
  obtain ⟨d, hseek, hat, hs, hwin, hcnt⟩ := (DecCall.entry_atBit bytes).seek_runsTo (s := s.decodeBegun) rest s.rx.log k rfl
    (RxPort.eq_afterBits_zero hp) rfl hk
  rw [Nat.zero_add] at hseek hat
  exact ⟨d, hseek, hat, hs, hwin, hcnt, bytesBits_length bytes ▸ firstFlag_le_length k hk⟩

/-- DECODE of a stream in which the window meets FLAG twice, with no more than F_BUF's bits between: the verdict on those bits,
whatever is behind them. -/
theorem exec_decode_of_matches {k m : Nat} (tail : RxAnswer) (hu : s.unit = .idle)
    (hp : s.rx.answers = bytes.map .byte ++ rest) (hk : firstFlag 0x00 (bytesBits bytes) = some k)
    (hm : firstFlag 0x00 (((bytesBits bytes).drop k).take Config.frameBitCapacity) = some m) {v : Verdict}
    (hv : decodeVerdict bytes tail = v) :
    ∃ mem, bufWriteAll s.mem .rx 0 v.payload = some mem ∧ v.payload.length ≤ 256 ∧ (v.kind = .ok ∨ v.payload = []) ∧
      exec .decode s = .next (({ s with mem := mem, rx := .afterBits bytes rest s.rx.log (k + m) } : State).completed v.kind
        v.payload.length) := by
  obtain ⟨d, hseek, hat, hs, hwin, hcnt, hkle⟩ := State.decodeBegun_runsTo hp hk
  have hend := hat.capture_endsAs_match (s := s.decodeBegun.withDec d _) rest s.rx.log bytes.length tail rfl rfl rfl hs hwin
    hcnt hm
  have hle := firstFlag_le_length m (firstFlag_of_take hm).1
  rw [List.length_drop, bytesBits_length] at hle
  simp only [decodeVerdict, hk] at hv
  rw [hv] at hend
  refine (hseek.endsAs hend).exec_decode hu ?_
  rw [hp, List.length_append, List.length_map]
  omega

/-- DECODE of a stream that ends in EOS or ERR. -/
theorem State.decodeBegun_endsAs {tail : RxAnswer} (htail : tail = .eos ∨ tail = .err)
    (hp : s.rx.answers = bytes.map .byte ++ tail :: rest) :
    s.decodeBegun.EndsAs (8 * bytes.length + 2580) ((decodeVerdict bytes tail).port bytes tail rest s.rx.log)
      (decodeVerdict bytes tail) := by
  unfold decodeVerdict
  split
  · rename_i hno
    have hend := (DecCall.entry_atBit bytes).seek_endsIn (s := s.decodeBegun) rest s.rx.log (bytesBits bytes) htail rfl
      (RxPort.eq_afterBits_zero hp) rfl rfl (Nat.zero_le _) hno
    rw [bytesBits_length] at hend
    exact .of_error (hend.mono (by omega))
  · rename_i k hk
    obtain ⟨d, hseek, hat, hs, hwin, hcnt, hkle⟩ := State.decodeBegun_runsTo hp hk
    have hend := hat.capture_endsAs (s := s.decodeBegun.withDec d _) rest s.rx.log htail rfl rfl rfl hs hwin hcnt hkle rfl
    exact (hseek.endsAs hend).mono (by omega)

end

/-- Settles O44: the run of the sequencer ends as the verdict has it, with the port where the verdict leaves it. -/
theorem decodeFollowsTheRules : Obligations.DecodeFollowsTheRules := by
  intro s bytes tail rest hu htail hp v
  obtain ⟨m, hm, hle, herr, hexec⟩ := (State.decodeBegun_endsAs htail hp).exec_decode hu
    (by rw [hp, List.length_append, List.length_map]; omega)
  refine ⟨m, payloadStored_of_bufWriteAll hm hle, fun hk => ?_, hle, ?_⟩
  · rw [herr.resolve_left hk] at hm
    exact (Option.some.inj hm).symm
  · rw [hexec, Verdict.port]
    cases v.usesTail <;> rfl

/-- Settles O47: the two matches of each stream, and the verdict on the bits between them. -/
theorem decodeNamedStreams : Obligations.DecodeNamedStreams := by
  intro s rest hu
  refine ⟨fun hp => ?_, fun hp => ?_, fun hp => ?_⟩
  · obtain ⟨m, hm, -, -, hexec⟩ := exec_decode_of_matches (bytes := [0x7E, 0x7E]) (k := 8) (m := 8) (v := ⟨.ok, [], 2, false⟩)
      .eos hu hp (by decide) (by decide) (by decide)
    obtain rfl := Option.some.inj hm
    exact hexec
  · obtain ⟨m, hm, hle, -, hexec⟩ := exec_decode_of_matches (bytes := [0x7E, 0x1F, 0x7E]) (k := 8) (m := 16)
      (v := ⟨.ok, [0x1F], 3, false⟩) .eos hu hp (by decide) (by decide) (by decide)
    exact ⟨m, payloadStored_of_bufWriteAll hm hle, hexec⟩
  · obtain ⟨m, hm, -, -, hexec⟩ := exec_decode_of_matches (bytes := [0x3F, 0x7E]) (k := 9) (m := 7)
      (v := ⟨.frameError, [], 2, false⟩) .eos hu hp (by decide) (by decide) (by decide)
    obtain rfl := Option.some.inj hm
    exact hexec

end Sys2Proof.Machine
end

section
/-! PROOFS. The host's accesses (R200 to R211): the buffers by byte, the STATUS word by field, acceptance of a command word by
field, and what is refused. -/

namespace Sys2Proof.Machine

/-! ### Accesses outside the map (R61, R209) -/

/-- Settles O6: an access that decodes is the word of a BUS row, and the premises exclude each of those rows. -/
theorem illegalHostAccessRefused : Obligations.IllegalHostAccessRefused := by
  intro s rest a ha hwr8 hrd8 hwr16 hrd32
  have hrefused : step s = .refused .illegalHostAccess := by
    cases hd : decodeBus a with
    | error x => exact step_host_illegal ha hd
    | ok i =>
      obtain ⟨hword, hwf⟩ := encode_of_decodeBus hd
      cases i with
      | wr8Tx i v => exact absurd (Raw.bus.inj hword).symm (hwr8 i v (of_decide_eq_true hwf))
      | rd8Tx i =>
        have hi : i < 256 := of_decide_eq_true hwf
        exact absurd (Raw.bus.inj hword).symm (hrd8 i (by omega))
      | rd8Rx i =>
        have hi : i < 256 := of_decide_eq_true hwf
        exact absurd (Raw.bus.inj hword).symm (hrd8 (0x100 + i) (by omega))
      | wr16Cmd w => exact absurd (Raw.bus.inj hword).symm (hwr16 w)
      | rd32Status => exact absurd (Raw.bus.inj hword).symm hrd32
      | _ => cases hword
  exact ⟨⟨_, hrefused⟩, fun _ => hrefused⟩

/-! ### The buffers (R200 to R202, R211) -/

/-- WR8 TX in IDLE is one write of the buffers. -/
theorem exec_wr8Tx_idle {s : State} {i : Nat} (v : Byte) (hi : i < 256) (hu : s.unit = .idle) :
    exec (.wr8Tx i v) s = .next { s with mem := memWrite s.mem (Buf.tx.base + i) v } := by
  rw [exec, execWr8Tx, State.whenIdle_idle _ hu, bufWrite_of_lt _ _ _ hi]

/-- Settles O12: TX_BUF stands at address 0, so byte `i` is the one address that the write changes. -/
theorem hostWriteOfTxBuf : Obligations.HostWriteOfTxBuf := by
  intro s i v hi
  have hbase : Buf.tx.base + i = i := Nat.zero_add i
  refine ⟨rfl, fun hu => ⟨memWrite s.mem i v, ?_, ?_, fun a ha => memRead_memWrite_other _ v ha⟩,
    fun hu => State.whenIdle_busy _ hu⟩
  · rw [exec_wr8Tx_idle v hi hu, hbase]
  · rw [bufByte_of_lt _ _ hi, hbase, memRead_memWrite_same]

section
variable {s : State} {buf : Buf} {i : Nat}

theorem State.whenIdle_readBuf_some (hu : s.unit = .idle) {v : Byte} (hv : bufByte s.mem buf i = some v) :
    s.whenIdle (s.readBuf buf i) = .next (s.hostReturn (.byte v)) :=
  (State.whenIdle_idle _ hu).trans (State.readBuf_some hv)

theorem State.whenIdle_readBuf_none (hu : s.unit = .idle) (hi : i < 256) (hv : bufByte s.mem buf i = none) :
    s.whenIdle (s.readBuf buf i) = .fault (.uninitialisedRead buf i) :=
  (State.whenIdle_idle _ hu).trans (State.readBuf_none hi hv)

end

/-- Settles O13: both reads are `readBuf` of their buffer, in IDLE alone. -/
theorem hostReadOfBuffers : Obligations.HostReadOfBuffers := fun _ _ hi =>
  ⟨rfl, rfl,
    fun hu _ hv => State.whenIdle_readBuf_some hu hv, fun hu hv => State.whenIdle_readBuf_none hu hi hv,
    fun hu => State.whenIdle_busy _ hu,
    fun hu _ hv => State.whenIdle_readBuf_some hu hv, fun hu hv => State.whenIdle_readBuf_none hu hi hv,
    fun hu => State.whenIdle_busy _ hu⟩

/-! ### STATUS (R90, R91, R208) -/

/-- A field put above a number that stays below it is added to it. -/
theorem toNat_shiftLeft_or {len n : Nat} (x : BitVec len) {y : BitVec 32} (hx : len + n ≤ 32) (hy : y.toNat < 2 ^ n) :
    (x.zeroExtend 32 <<< n ||| y).toNat = x.toNat * 2 ^ n + y.toNat := by
  have hfit : x.toNat <<< n < 2 ^ 32 := calc
    x.toNat <<< n = x.toNat * 2 ^ n := Nat.shiftLeft_eq ..
    _ < 2 ^ len * 2 ^ n := Nat.mul_lt_mul_of_pos_right x.isLt (Nat.two_pow_pos n)
    _ = 2 ^ (len + n) := (Nat.pow_add ..).symm
    _ ≤ 2 ^ 32 := Nat.pow_le_pow_right (by decide) hx
  have hext : (x.zeroExtend 32).toNat = x.toNat := BitVec.toNat_setWidth_of_le (by omega)
  rw [BitVec.toNat_or, BitVec.toNat_shiftLeft, hext, Nat.mod_eq_of_lt hfit, ← Nat.shiftLeft_add_eq_or_of_lt hy,
    Nat.shiftLeft_eq]

/-- The STATUS word as a number: its fields do not overlap. -/
theorem Status.word_toNat (t : Status) :
    t.word.toNat = t.count.toNat * 65536 + t.kind.code.toNat * 16 + t.done.toNat * 2 + t.busy.toNat := by
  have hkind := t.kind.code.isLt
  have hdone := t.done.toNat_le
  have hbusy := t.busy.toNat_le
  have hlow : ((BitVec.ofBool t.busy).zeroExtend 32).toNat = t.busy.toNat := by cases t.busy <;> rfl
  have hdoneBusy : ((BitVec.ofBool t.done).zeroExtend 32 <<< 1 ||| (BitVec.ofBool t.busy).zeroExtend 32).toNat =
      t.done.toNat * 2 ^ 1 + t.busy.toNat := by
    rw [toNat_shiftLeft_or _ (by decide) (by omega), hlow, BitVec.toNat_ofBool]
  have hkindDoneBusy : (t.kind.code.zeroExtend 32 <<< 4 |||
      ((BitVec.ofBool t.done).zeroExtend 32 <<< 1 ||| (BitVec.ofBool t.busy).zeroExtend 32)).toNat =
      t.kind.code.toNat * 2 ^ 4 + (t.done.toNat * 2 ^ 1 + t.busy.toNat) := by
    rw [toNat_shiftLeft_or _ (by decide) (by omega), hdoneBusy]
  rw [Status.word, BitVec.or_assoc, BitVec.or_assoc, toNat_shiftLeft_or _ (by decide) (by omega), hkindDoneBusy]
  omega

theorem getLsbD_eq_of_toNat {n : Nat} {v : BitVec n} {i : Nat} {b : Bool} (h : v.toNat / 2 ^ i % 2 = b.toNat) :
    v.getLsbD i = b := by
  rw [BitVec.getLsbD, Nat.testBit_eq_decide_div_mod_eq, h]
  cases b <;> rfl

theorem extractLsb'_eq_of_toNat {n start len : Nat} {v : BitVec n} {x : BitVec len}
    (h : v.toNat / 2 ^ start % 2 ^ len = x.toNat) : v.extractLsb' start len = x :=
  BitVec.eq_of_toNat_eq (by rw [BitVec.extractLsb'_toNat, Nat.shiftRight_eq_div_pow, h])

theorem extractLsb'_eq_zero_of_toNat {n start len : Nat} {v : BitVec n} (h : v.toNat / 2 ^ start % 2 ^ len = 0) :
    v.extractLsb' start len = 0 :=
  extractLsb'_eq_of_toNat (h.trans BitVec.toNat_zero.symm)

/-- Settles O14: every field is read off the STATUS word as a number. -/
theorem hostReadOfStatus : Obligations.HostReadOfStatus := by
  refine ⟨rfl, fun s => ⟨s.status.word, rfl, s.status.word_toNat, ?_⟩, rfl⟩
  have hword := s.status.word_toNat
  have hcount := s.status.count.isLt
  have hkind := s.status.kind.code.isLt
  have hdone := s.status.done.toNat_le
  have hbusy := s.status.busy.toNat_le
  exact ⟨getLsbD_eq_of_toNat (by omega), getLsbD_eq_of_toNat (by omega), extractLsb'_eq_zero_of_toNat (by omega),
    extractLsb'_eq_of_toNat (by omega), extractLsb'_eq_zero_of_toNat (by omega), extractLsb'_eq_of_toNat (by omega),
    extractLsb'_eq_zero_of_toNat (by omega)⟩

/-! ### Commands (R204 to R207) -/

/-- A CMD word written out from its fields (R86). -/
theorem toNat_ofNat_cmdFields {op rsvd len : Nat} (hop : op < 16) (hrsvd : rsvd < 8) (hlen : len < 512) :
    (BitVec.ofNat 16 (op * 4096 + rsvd * 512 + len)).toNat = op * 4096 + rsvd * 512 + len :=
  Nat.mod_eq_of_lt (by omega)

/-- WR16 CMD of the DECODE word begins the command. -/
theorem exec_wr16Cmd_decode {s : State} (hu : s.unit = .idle) : exec (.wr16Cmd 0x2000) s = .next s.decodeBegun :=
  exec_wr16Cmd_idle hu _

/-- Settles O15: R89 on the fields of the word, and the begin or the completion of the command they name. -/
theorem commandAcceptance : Obligations.CommandAcceptance := by
  intro s op rsvd len hop hrsvd hlen hu w
  have hw := toNat_ofNat_cmdFields hop hrsvd hlen
  refine ⟨fun hbad => ?_, ?_, ?_, ?_⟩
  · refine exec_wr16Cmd_illegal hu ((decodeCmd16_error_iff_toNat w).mpr ?_)
    rw [hw]
    omega
  · rintro rfl rfl hover
    exact exec_wr16Cmd_overlong hu (decodeCmd16_ofNat_encode hlen) hover
  · rintro rfl rfl hle
    rw [exec_wr16Cmd_encode hu hle, State.encodeBegun, cmdLen_cmdWord_eq _ hlen,
      ← decodeCmd16_encode (decodeCmd16_ofNat_encode hlen)]
    rfl
  · rintro rfl rfl rfl
    exact exec_wr16Cmd_decode hu

/-- Every instruction that begins a command asks for IDLE first (R207). -/
theorem exec_command_busy {s : State} (hu : s.unit ≠ .idle) :
    (∀ w, exec (.wr16Cmd w) s = .refused .commandWhileBusy) ∧ (∀ n, exec (.encode n) s = .refused .commandWhileBusy) ∧
      exec .decode s = .refused .commandWhileBusy := by
  cases hc : s.unit with
  | idle => exact absurd hc hu
  | encoding e => simp [exec, execWr16Cmd, execEncode, execDecode, hc]
  | decoding d => simp [exec, execWr16Cmd, execEncode, execDecode, hc]

/-- Settles O16: the instructions that begin a command, and the turn that gives a whole one. -/
theorem commandWhileBusyRefused : Obligations.CommandWhileBusyRefused := fun _ hu =>
  have ⟨hcmd, hencode, hdecode⟩ := exec_command_busy hu
  ⟨hcmd, hencode, hdecode, fun _ _ h => step_command_busy h hu⟩

end Sys2Proof.Machine
end

section
/-! PROOFS. How a command in progress ends (R220, R236, R251), and where a run stops (R244): each turn of the agenda, by the
agent it belongs to. -/

namespace Sys2Proof.Machine

/-! ### A command in progress ends only by its completion (R236) -/

section
variable {s t : State}

/-- A micro-operation that leaves the unit IDLE has ended the command. -/
theorem exec_micro_justEnded {i : Instr} (hi : MicroInstr i) (h : exec i s = .next t) (ht : t.unit = .idle) :
    t.JustEnded := by
  rcases hi.runsOn with ⟨f, hf⟩ | ⟨f, hf⟩ | rfl
  · obtain ⟨e, hu, ⟨_, _, -, rfl⟩ | ⟨_, -, rfl⟩ | ⟨k, _, _, -, rfl⟩⟩ := State.onEncoder_next (hf s ▸ h)
    · cases ht
    · cases hu.symm.trans ht
    · exact State.completed_zero_justEnded _ k
  · obtain ⟨d, hu, ⟨_, _, -, rfl⟩ | ⟨_, -, rfl⟩ | ⟨k, _, _, -, rfl⟩⟩ := State.onDecoder_next (hf s ▸ h)
    · cases ht
    · cases hu.symm.trans ht
    · exact State.completed_zero_justEnded _ k
  · exact execPack_justEnded h

/-- SEQ's move leads to IDLE only by the completion after PAD, or from a state that is IDLE already (R130). -/
theorem State.advance_justEnded (hend : t.unit = .idle → t.JustEnded) (ht : t.advance.unit = .idle) :
    t.advance.JustEnded := by
  rcases t.advance_cases with hadv | ⟨-, e, -, hadv | hadv⟩ <;> rw [hadv] at ht ⊢
  · exact hend ht
  · exact State.finish_ok_justEnded _ _
  · cases ht

/-- A step of the sequencer that leads out of a command has completed it. -/
theorem sequencerStep_justEnded (hu : s.unit ≠ .idle) (h : sequencerStep s = .next t) (ht : t.unit = .idle) :
    t.JustEnded := by
  rcases sequencerStep_next h with ⟨-, rfl⟩ | ⟨w, i, t', -, hd, hx, rfl⟩ | ⟨e, v, -, -, rfl⟩ | ⟨e, -, rfl⟩
  · exact absurd ht hu
  · exact State.advance_justEnded (exec_micro_justEnded (decodeU8_micro hd) hx) ht
  · cases ht
  · cases ht

end

/-- Everything a command or a host access comes to while a command is in progress: only the read of STATUS runs (R207, R208,
R211). -/
theorem exec_busy {s : State} {i : Instr} (hi : ¬MicroInstr i) (hu : s.unit ≠ .idle) :
    exec i s = .refused .commandWhileBusy ∨ exec i s = .refused .hostAccessWhileBusy ∨
      exec i s = .next (s.hostReturn (.word s.status.word)) := by
  obtain ⟨hcmd, hencode, hdecode⟩ := exec_command_busy hu
  cases i with
  | encode n => exact .inl (hencode n)
  | decode => exact .inl hdecode
  | wr16Cmd w => exact .inl (hcmd w)
  | wr8Tx i v => exact .inr (.inl (State.whenIdle_busy _ hu))
  | rd8Tx i => exact .inr (.inl (State.whenIdle_busy _ hu))
  | rd8Rx i => exact .inr (.inl (State.whenIdle_busy _ hu))
  | rd32Status => exact .inr (.inr rfl)
  | _ => exact absurd trivial hi

/-- A command or a host access that runs while a command is in progress does not end it. -/
theorem exec_busy_unit {s t : State} {i : Instr} (hi : ¬MicroInstr i) (hu : s.unit ≠ .idle) (h : exec i s = .next t) :
    t.unit = s.unit := by
  rcases exec_busy hi hu with hx | hx | hx <;> cases hx.symm.trans h
  rfl

theorem step_micro_unknown {s : State} {rest : List Turn} {w : UopWord} {x : Reject} (h : s.agenda = .micro w :: rest)
    (hd : decodeU8 w = .error x) : step s = .refused .unknownMicroOp := by
  simp [step, fetch, h, fetchTurn, hd]

/-- Settles O55, by the turn: the sequencer's step and a micro-operation lead to IDLE only by a completion, a host access
does not lead there, and a command word is refused. -/
theorem onlyCompletionOrResetEndsACommand : Obligations.OnlyCompletionOrResetEndsACommand := by
  intro s t h hu ht
  suffices (∃ rest, s.agenda = .reset :: rest) ∨ t.JustEnded from this.imp_right fun he => ⟨he.done, he.busy⟩
  cases ha : s.agenda with
  | nil => exact .inr (sequencerStep_justEnded hu (step_nil ha ▸ h) ht)
  | cons turn rest =>
    cases turn with
    | reset => exact .inl ⟨rest, rfl⟩
    | unit => exact .inr (sequencerStep_justEnded (s := { s with agenda := rest }) hu (step_unit ha ▸ h) ht)
    | host a =>
      cases hd : decodeBus a with
      | ok i =>
        have hunit : t.unit = s.unit :=
          exec_busy_unit (s := { s with agenda := rest }) (decodeBus_not_micro hd) hu (step_host ha hd ▸ h)
        exact absurd (hunit ▸ ht) hu
      | error x => simp [step_host_illegal ha hd] at h
    | command w => simp [step_command_busy ha hu] at h
    | micro w =>
      cases hd : decodeU8 w with
      | ok i => exact .inr (exec_micro_justEnded (decodeU8_micro hd) (step_micro ha hd ▸ h) ht)
      | error x => simp [step_micro_unknown ha hd] at h

/-! ### Where a run stops (R244) -/

/-- An outcome that R244 allows, on buffers `m` and in the unit state `u`: the machine goes on, comes to a buffer byte
without a value, or refuses a word or access that comes while the unit is busy or that R209 excludes. -/
inductive RuledOutcome (m : List Host.Cell) (u : UnitState) : Result → Prop where
  | next (t : State) : RuledOutcome m u (.next t)
  | payload {i : Nat} (hi : i < 256) (hnone : bufByte m .tx i = none) : RuledOutcome m u (.fault (.uninitialisedPayload i))
  | read {buf : Buf} {i : Nat} (hi : i < 256) (hnone : bufByte m buf i = none) :
    RuledOutcome m u (.fault (.uninitialisedRead buf i))
  | commandBusy (hu : u ≠ .idle) : RuledOutcome m u (.refused .commandWhileBusy)
  | accessBusy (hu : u ≠ .idle) : RuledOutcome m u (.refused .hostAccessWhileBusy)
  | illegalAccess : RuledOutcome m u (.refused .illegalHostAccess)

/-- A step of the sequencer leaves TX_BUF alone, in either command (R52, R134). -/
theorem sequencerStep_txBuf {s t : State} (h : sequencerStep s = .next t) (k : Nat) :
    bufByte t.mem .tx k = bufByte s.mem .tx k := by
  by_cases hu : ∃ d, s.unit = .decoding d
  · obtain ⟨d, hu⟩ := hu
    exact (sequencerStep_decodeFrame (by simp [hu]) h).txBuf k
  · rw [(sequencerStep_encodeFrame (fun d hd => hu ⟨d, hd⟩) h).mem]

section
variable {s : State} {m : List Host.Cell}

/-- A step of the sequencer stops only at a byte of TX_BUF without a value: it reads no other buffer and refuses nothing. -/
theorem sequencerStep_ruled (h : s.Inv) (hm : ∀ k, bufByte s.mem .tx k = bufByte m .tx k) (u : UnitState) :
    RuledOutcome m u (sequencerStep s) := by
  obtain ⟨hfault, hrefused⟩ := sequencerStep_stops h
  cases hs : sequencerStep s with
  | next t => exact .next t
  | fault g =>
    obtain ⟨i, rfl, hi, hnone⟩ := hfault g hs
    exact .payload hi (hm i ▸ hnone)
  | refused r => exact absurd hs (hrefused r)

/-- A run stops as one of its steps does, and its steps leave TX_BUF alone. -/
theorem runSequencer_ruled (n : Nat) (h : s.Inv) (hm : ∀ k, bufByte s.mem .tx k = bufByte m .tx k) (u : UnitState) :
    RuledOutcome m u (runSequencer n s) := by
  induction n generalizing s with
  | zero => exact .next s
  | succ n ih =>
    have hstep := sequencerStep_ruled h hm u
    rw [runSequencer]
    split
    · exact .next s
    · cases hs : sequencerStep s with
      | next t =>
        dsimp only
        split
        · exact .next t
        · exact ih (sequencerStep_inv h hs) fun k => (sequencerStep_txBuf hs k).trans (hm k)
      | fault g => exact (hs ▸ hstep : RuledOutcome m u (.fault g))
      | refused r => exact (hs ▸ hstep : RuledOutcome m u (.refused r))

/-- A host read in IDLE stops only at a byte without a value (R201, R202). -/
theorem State.whenIdle_readBuf_ruled (hu : s.unit = .idle) (buf : Buf) {i : Nat} (hi : i < 256) (u : UnitState) :
    RuledOutcome s.mem u (s.whenIdle (s.readBuf buf i)) := by
  cases hv : bufByte s.mem buf i with
  | none => exact State.whenIdle_readBuf_none hu hi hv ▸ .read hi hv
  | some v => exact State.whenIdle_readBuf_some hu hv ▸ .next _

theorem exec_encode_idle (n : Nat) (hu : s.unit = .idle) :
    exec (.encode n) s = runSequencer encodeFuel ((s.accept (cmdWord 0x1 n)).startEncode n) := by
  simp [exec, execEncode, hu]

/-- A command or a host access with operands of its encoding stops only as R244 says. -/
theorem exec_ruled {i : Instr} (hi : ¬MicroInstr i) (hwf : i.wellFormed = true) (h : s.Inv) :
    RuledOutcome s.mem s.unit (exec i s) := by
  by_cases hu : s.unit = .idle
  · cases i with
    | encode n =>
      rw [exec_encode_idle n hu]
      exact runSequencer_ruled _ (h.startEncode hu rfl)
        (fun k => congrArg (bufByte · .tx k) ((s.accept (cmdWord 0x1 n)).startEncode_hostFrame n).2) _
    | decode =>
      rw [exec_decode_idle hu]
      exact runSequencer_ruled _ (h.startDecode hu) (fun _ => rfl) _
    | wr8Tx i v => exact exec_wr8Tx_idle v (of_decide_eq_true hwf) hu ▸ .next _
    | rd8Tx i => exact State.whenIdle_readBuf_ruled hu .tx (of_decide_eq_true hwf) _
    | rd8Rx i => exact State.whenIdle_readBuf_ruled hu .rx (of_decide_eq_true hwf) _
    | wr16Cmd w => exact exec_wr16Cmd_idle hu w ▸ .next _
    | rd32Status => exact .next _
    | _ => exact absurd trivial hi
  · rcases exec_busy hi hu with hx | hx | hx <;> rw [hx]
    · exact .commandBusy hu
    · exact .accessBusy hu
    · exact .next _

end

/-- Each turn of the agenda stops only as R244 says; the invariant itself excludes a micro-operation from outside. -/
theorem step_ruled {s : State} (h : s.Inv) : RuledOutcome s.mem s.unit (step s) := by
  cases ha : s.agenda with
  | nil => exact step_nil ha ▸ sequencerStep_ruled h (fun _ => rfl) _
  | cons turn rest =>
    have h' := h.nextTurn ha
    cases turn with
    | unit => exact step_unit ha ▸ sequencerStep_ruled h' (fun _ => rfl) _
    | reset => exact step_reset ha ▸ .next _
    | host a =>
      cases hd : decodeBus a with
      | ok i => exact step_host ha hd ▸ exec_ruled (decodeBus_not_micro hd) (encode_of_decodeBus hd).2 h'
      | error x => exact step_host_illegal ha hd ▸ .illegalAccess
    | command w =>
      by_cases hu : s.unit = .idle
      · cases hd : decodeCmd16 w with
        | ok i => exact step_command ha hu hd ▸ exec_ruled (decodeCmd16_not_micro hd) (encode_of_decodeCmd16 hd).2 h'
        | error x => exact step_command_illegal ha hu hd ▸ .next _
      · exact step_command_busy ha hu ▸ .commandBusy hu
    | micro w => exact absurd (ha ▸ List.mem_cons_self ..) (h.noMicro w)

/-- Settles O50: the outcomes of `step_ruled`, the faults and the refusals apart. -/
theorem stopsAreTheRulesStops : Obligations.StopsAreTheRulesStops := by
  intro s h
  have hstep := step_ruled h
  refine ⟨fun g hg => ?_, fun r hr => ?_⟩
  · rw [hg] at hstep
    cases hstep with
    | payload hi hnone => exact .inl ⟨_, rfl, hi, hnone⟩
    | read hi hnone => exact .inr ⟨_, _, rfl, hi, hnone⟩
  · rw [hr] at hstep
    cases hstep with
    | commandBusy hu => exact .inl ⟨rfl, hu⟩
    | accessBusy hu => exact .inr (.inl ⟨rfl, hu⟩)
    | illegalAccess => exact .inr (.inr rfl)

end Sys2Proof.Machine
end

section
/-! PROOFS. A command as one step and in the sequencer's steps (R66, R263): a run of the sequencer and the machine's run with an
empty agenda come to the same outcome, from the state that the CMD write of the command's word leads to. -/

namespace Sys2Proof.Machine

section
variable {s : State} (ha : s.agenda = [])
include ha

theorem run_one_of_agenda_nil : Host.Core.run Sys2Proof.core 1 s = sequencerStep s := by
  have hcore : Sys2Proof.core.step s = sequencerStep s := step_nil ha
  simp only [Host.Core.run, hcore]
  cases sequencerStep s <;> rfl

theorem run_succ_of_agenda_nil {t : State} (hs : sequencerStep s = .next t) (k : Nat) :
    Host.Core.run Sys2Proof.core (k + 1) s = Host.Core.run Sys2Proof.core k t := by
  have hcore : Sys2Proof.core.step s = .next t := (step_nil ha).trans hs
  simp only [Host.Core.run, hcore]

/-- With an empty agenda the machine comes to the outcome of a run of the sequencer, be it a state, a fault or a refusal. -/
theorem exists_run_eq_runSequencer (n : Nat) : ∃ k, Host.Core.run Sys2Proof.core k s = runSequencer n s := by
  induction n generalizing s with
  | zero => exact ⟨0, rfl⟩
  | succ n ih =>
    rw [runSequencer]
    split
    · exact ⟨0, rfl⟩
    · cases hs : sequencerStep s with
      | next t =>
        by_cases hw : t.outstanding.isSome = true
        · exact ⟨1, ((run_one_of_agenda_nil ha).trans hs).trans (if_pos hw).symm⟩
        · obtain ⟨k, hk⟩ := ih ((sequencerStep_agenda hs).trans ha)
          exact ⟨k + 1, ((run_succ_of_agenda_nil ha hs k).trans hk).trans (if_neg hw).symm⟩
      | fault g => exact ⟨1, (run_one_of_agenda_nil ha).trans hs⟩
      | refused r => exact ⟨1, (run_one_of_agenda_nil ha).trans hs⟩

/-- Where a command is a run of the sequencer from the state after the CMD write of its word, the machine comes to the
command's outcome from there. -/
theorem exists_run_eq_of_wr16Cmd (hu : s.unit = .idle) {w : CmdWord} {o : Result} {fuel : Nat}
    (ho : o = runSequencer fuel ((s.accept w).dispatch w)) :
    ∃ s1, exec (.wr16Cmd w) s = .next s1 ∧ ∃ k, Host.Core.run Sys2Proof.core k s1 = o := by
  have hagenda : ((s.accept w).dispatch w).agenda = [] := ((s.accept w).dispatch_hostFrame w).1.agenda.trans ha
  exact ⟨_, exec_wr16Cmd_idle hu w, ho ▸ exists_run_eq_runSequencer hagenda fuel⟩

end

/-- An ENCODE, over-long or not, is the run from the dispatch of its word. -/
theorem exec_encode_eq_run_dispatch {s : State} (hu : s.unit = .idle) {w : CmdWord} {n : Nat}
    (hd : decodeCmd16 w = .ok (.encode n)) :
    exec (.encode n) s = runSequencer encodeFuel ((s.accept w).dispatch w) := by
  rw [exec_encode_idle n hu, State.dispatch, hd, ← decodeCmd16_encode hd]

/-- Settles O56: each command is a run of the sequencer from the state after the CMD write, which leaves the agenda empty. -/
theorem commandAsOneStepOrMany : Obligations.CommandAsOneStepOrMany := by
  intro s hu ha
  refine ⟨fun n hn => ?_, ?_⟩
  · obtain ⟨s1, hwrite, k, hrun⟩ := exists_run_eq_of_wr16Cmd ha hu
      (exec_encode_eq_run_dispatch hu (decodeCmd16_ofNat_encode hn))
    exact ⟨s1, hwrite, fun _ ht => ⟨k, hrun.trans ht⟩, fun _ hg => ⟨k, hrun.trans hg⟩⟩
  · obtain ⟨s1, hwrite, k, hrun⟩ := exists_run_eq_of_wr16Cmd (w := 0x2000) ha hu (exec_decode_idle hu)
    exact ⟨s1, hwrite, fun _ ht => ⟨k, hrun.trans ht⟩⟩

end Sys2Proof.Machine
end
